-- ==== Sys2Proof/Word.lean ====
section
/-! DEFINITION. The word types of the framing block (FB): the byte (spec R10), the 32-bit command word and the
16-bit result (spec R8, R84, R87). All stored quantities are unsigned (spec R11). -/

namespace Sys2Proof

/-- A byte: 8 bits, the only data unit FB stores or moves (R10). -/
abbrev Byte := BitVec 8

/-- The command word `W` (R8, R84). -/
abbrev CommandWord := BitVec 32

/-- The result `RES` of a response (R8, R87). -/
abbrev ResultWord := BitVec 16

/-- The data-in vector `DIN`: a sequence of `LEN` bytes, `LEN` being its length (R8, R86). -/
abbrev DataIn := List Byte

end Sys2Proof
end

