-- ==== Sys2Proof/Config.lean ====
section
/-! DEFINITION. What is fixed before reset and never written: the constants the source fixes (spec R6) and the two
parameters it leaves to the implementation (spec R7), which every definition takes by name. -/

namespace Sys2Proof

/-- Most bytes in one frame, header included (R6). -/
def frameMax : Nat := 32

/-- Most payload bytes in one frame, and the size of a serial slot (R6). -/
def payloadMax : Nat := 31

/-- Most frames in one page (R6). -/
def pageFramesMax : Nat := 16

/-- The largest `LEN` the command port can present: `LEN` is a 6-bit number (R86). -/
def lenPortMax : Nat := 63

/-- The implementation parameters of R7. They are configuration, "fixed before reset and never written" (R33). -/
structure Config where
  /-- `SERIAL_SLOTS`, 1..16, default 16 (R7, decision D17). -/
  serialSlots : Nat
  /-- `RADIO_BUF_BYTES`, at least 496, default 496 (R7, decision D10). -/
  radioBufBytes : Nat
deriving DecidableEq, Repr

/-- The defaults of R7. -/
def Config.default : Config := { serialSlots := 16, radioBufBytes := 496 }

/-- The ranges of R7. -/
abbrev Config.ok (c : Config) : Prop :=
  1 ≤ c.serialSlots ∧ c.serialSlots ≤ pageFramesMax ∧ pageFramesMax * payloadMax ≤ c.radioBufBytes

end Sys2Proof
end

