-- ==== Sys2Proof/Syntax.lean ====
section
/-! DEFINITION. The commands of FB as syntax: `Instr` has one constructor per row of spec/opcode_table.json (spec R88),
its operands those of the row's format (spec R85, R92), in the order of the assembler syntax (spec R93). -/

namespace Sys2Proof

/-- The two RadioPageBuffers, 0 (called A) and 1 (called B) (R22, R92). -/
inductive BufId where
  | bufA
  | bufB
deriving DecidableEq, Repr

/-- What the host presents on the command port: the command word and the data-in vector (R8, R84, R86). -/
structure Request where
  word : CommandWord
  din  : DataIn
deriving DecidableEq, Repr

/-- The 25 commands of R88. -/
inductive Instr where
  /-- `SYS_RESET` (R190). -/
  | sysReset
  /-- `CK_MAKE [p]` (R111). -/
  | ckMake (p : DataIn)
  /-- `CK_VERIFY [f]` (R114). -/
  | ckVerify (f : DataIn)
  /-- `BID_MAKE st, ix, [p]` (R121). -/
  | bidMake (st : BitVec 1) (ix : BitVec 16) (p : DataIn)
  /-- `BID_STREAM h` (R122). -/
  | bidStream (h : Byte)
  /-- `BID_INDEX h` (R123). -/
  | bidIndex (h : Byte)
  /-- `BID_CK h` (R124). -/
  | bidCk (h : Byte)
  /-- `RB_PROCESS [f]` (R133). -/
  | rbProcess (f : DataIn)
  /-- `RX_FRAME [f]` (R142). -/
  | rxFrame (f : DataIn)
  /-- `RB_READY b` (R143). -/
  | rbReady (b : BufId)
  /-- `RB_SWITCH` (R144). -/
  | rbSwitch
  /-- `RB_FLUSH_BEGIN b` (R145). -/
  | rbFlushBegin (b : BufId)
  /-- `RB_RD b, a` (R147). -/
  | rbRd (b : BufId) (a : BitVec 9)
  /-- `RB_RESET b` (R146). -/
  | rbReset (b : BufId)
  /-- `RB_STAT b` (R148). -/
  | rbStat (b : BufId)
  /-- `SB_PUT v` (R160). -/
  | sbPut (v : Byte)
  /-- `SB_SEND_FIRST` (R164). -/
  | sbSendFirst
  /-- `SB_SEND_NEXT` (R165). -/
  | sbSendNext
  /-- `SB_RESEND` (R166). -/
  | sbResend
  /-- `SB_RESTART` (R167). -/
  | sbRestart
  /-- `SB_RD` (R168). -/
  | sbRd
  /-- `SB_PENDING` (R169). -/
  | sbPending
  /-- `SB_STAT` (R170). -/
  | sbStat
  /-- `SB_SLOT n` (R171); the spec writes the slot number `s`. -/
  | sbSlot (n : BitVec 4)
  /-- `SB_RESET` (R172). -/
  | sbReset
deriving DecidableEq, Repr

end Sys2Proof
end

