-- ==== Sys2Proof/WellFormed.lean ====
section
/-! DEFINITION. Which terms of `Instr` the command port can present. Every operand in the word has the width of its
field by its type; the one remaining check is that `LEN` fits its 6 bits (spec R86). A `LEN` that fits and is out of a
command's range is no ill-formed term: the command answers `BAD_OPERAND` (spec R90 step 3). -/

namespace Sys2Proof

/-- `LEN` is a 6-bit number (R86). -/
def DataIn.wf (d : DataIn) : Bool := decide (d.length ≤ lenPortMax)

/-- A request the port can present (R86). -/
def Request.wf (r : Request) : Bool := DataIn.wf r.din

/-- A command the port can present: its data-in vector, where its format has one, fits `LEN` (R85, R86). -/
def Instr.wf : Instr → Bool
  | .ckMake p => DataIn.wf p
  | .ckVerify f => DataIn.wf f
  | .bidMake _ _ p => DataIn.wf p
  | .rbProcess f => DataIn.wf f
  | .rxFrame f => DataIn.wf f
  | .sysReset => true
  | .bidStream _ => true
  | .bidIndex _ => true
  | .bidCk _ => true
  | .rbReady _ => true
  | .rbSwitch => true
  | .rbFlushBegin _ => true
  | .rbRd _ _ => true
  | .rbReset _ => true
  | .rbStat _ => true
  | .sbPut _ => true
  | .sbSendFirst => true
  | .sbSendNext => true
  | .sbResend => true
  | .sbRestart => true
  | .sbRd => true
  | .sbPending => true
  | .sbStat => true
  | .sbSlot _ => true
  | .sbReset => true

end Sys2Proof
end

