-- ==== Sys2Proof/Decode.lean ====
section
/-! DEFINITION. Decoding a request into a command (spec R84, R85, R88 to R92), total and rejecting by name, and the
encoder from the same tables. -/

namespace Sys2Proof

/-- `W[16]` names buffer A when 0 and buffer B when 1 (R92). -/
def BufId.ofBit (x : BitVec 1) : BufId := if x = 0#1 then .bufA else .bufB

/-- The number of a buffer as one bit (R22). -/
def BufId.bit : BufId → BitVec 1
  | .bufA => 0#1
  | .bufB => 1#1

/-- The seven command formats (R85). -/
inductive Format where
  | n | h | b | a | s | v | m
deriving DecidableEq, Repr

/-- The bits a format fixes (R85, column "mask"). -/
def Format.mask : Format → CommandWord
  | .n => 0xFFFFFFFF#32
  | .h => 0xFFFFFF00#32
  | .b => 0xFFFEFFFF#32
  | .a => 0xFFFEFE00#32
  | .s => 0xFFFFFFF0#32
  | .v => 0xFFFFFFFF#32
  | .m => 0xFFFE0000#32

/-- Whether a format reads `DIN` (R85, R86). -/
def Format.usesDin : Format → Bool
  | .v => true
  | .m => true
  | .n => false
  | .h => false
  | .b => false
  | .a => false
  | .s => false

/-- `OPC` = `W[31:24]` (R84). -/
def opcOf (w : CommandWord) : BitVec 8 := w.extractLsb' 24 8

/-- `B` = `W[16]` (R84). -/
def bitB (w : CommandWord) : BitVec 1 := w.extractLsb' 16 1

/-- The buffer operand `b` of formats B and A (R92). -/
def opB (w : CommandWord) : BufId := BufId.ofBit (bitB w)

/-- The byte operand `v` = `W[7:0]` of format H (R92). -/
def opV (w : CommandWord) : Byte := w.extractLsb' 0 8

/-- The offset operand `a` = `W[8:0]` of format A (R92). -/
def opA (w : CommandWord) : BitVec 9 := w.extractLsb' 0 9

/-- The slot operand `s` = `W[3:0]` of format S (R92). -/
def opS (w : CommandWord) : BitVec 4 := w.extractLsb' 0 4

/-- The index operand `ix` = `W[15:0]` of format M, before masking (R92). -/
def opIx (w : CommandWord) : BitVec 16 := w.extractLsb' 0 16

/-- One row of the opcode map R88: the opcode, the format and how the operands are formed (R92). -/
structure Row where
  opc    : BitVec 8
  format : Format
  build  : CommandWord → DataIn → Instr

/-- R88, unit 0. -/
def systemRows : List Row := [⟨0x01#8, .n, fun _ _ => .sysReset⟩]

/-- R88, unit 1. -/
def checksumRows : List Row :=
  [⟨0x10#8, .v, fun _ d => .ckMake d⟩,
   ⟨0x11#8, .v, fun _ d => .ckVerify d⟩]

/-- R88, unit 2. -/
def byteIdRows : List Row :=
  [⟨0x20#8, .m, fun w d => .bidMake (bitB w) (opIx w) d⟩,
   ⟨0x21#8, .h, fun w _ => .bidStream (opV w)⟩,
   ⟨0x22#8, .h, fun w _ => .bidIndex (opV w)⟩,
   ⟨0x23#8, .h, fun w _ => .bidCk (opV w)⟩]

/-- R88, unit 3. -/
def reassemblyRows : List Row :=
  [⟨0x30#8, .v, fun _ d => .rbProcess d⟩,
   ⟨0x31#8, .v, fun _ d => .rxFrame d⟩,
   ⟨0x32#8, .b, fun w _ => .rbReady (opB w)⟩,
   ⟨0x33#8, .n, fun _ _ => .rbSwitch⟩,
   ⟨0x34#8, .b, fun w _ => .rbFlushBegin (opB w)⟩,
   ⟨0x35#8, .a, fun w _ => .rbRd (opB w) (opA w)⟩,
   ⟨0x36#8, .b, fun w _ => .rbReset (opB w)⟩,
   ⟨0x37#8, .b, fun w _ => .rbStat (opB w)⟩]

/-- R88, unit 4. -/
def serialRows : List Row :=
  [⟨0x40#8, .h, fun w _ => .sbPut (opV w)⟩,
   ⟨0x41#8, .n, fun _ _ => .sbSendFirst⟩,
   ⟨0x42#8, .n, fun _ _ => .sbSendNext⟩,
   ⟨0x43#8, .n, fun _ _ => .sbResend⟩,
   ⟨0x44#8, .n, fun _ _ => .sbRestart⟩,
   ⟨0x45#8, .n, fun _ _ => .sbRd⟩,
   ⟨0x46#8, .n, fun _ _ => .sbPending⟩,
   ⟨0x47#8, .n, fun _ _ => .sbStat⟩,
   ⟨0x48#8, .s, fun w _ => .sbSlot (opS w)⟩,
   ⟨0x49#8, .n, fun _ _ => .sbReset⟩]

/-- The opcode map (R88). -/
def opcodeTable : List Row :=
  systemRows ++ checksumRows ++ byteIdRows ++ reassemblyRows ++ serialRows

/-- The row of an opcode, if the map has one (R90 step 1). -/
def rowOf (opc : BitVec 8) : Option Row := opcodeTable.find? (fun row => row.opc == opc)

/-- `match` of a row: `OPC << 24` (R85). -/
def matchWord (opc : BitVec 8) : CommandWord := opc.setWidth 32 <<< 24

/-- Why a word is no command (R89). Both are answered `ILLEGAL_CMD` by the machine (R90). -/
inductive DecodeError where
  /-- R90 step 1: the opcode is not in the map. -/
  | unknownOpcode (opc : BitVec 8)
  /-- R90 step 2: a bit the format says must be zero is 1. -/
  | mustBeZero (opc : BitVec 8)
deriving DecidableEq, Repr

/-- The decoder: R90 steps 1 and 2, then the operands of R92. Total on every word and every `DIN`. -/
def decode (r : Request) : Except DecodeError Instr :=
  match rowOf (opcOf r.word) with
  | none => .error (.unknownOpcode (opcOf r.word))
  | some row =>
    if r.word &&& row.format.mask = matchWord row.opc then .ok (row.build r.word r.din)
    else .error (.mustBeZero row.opc)

/-- The instruction a table word of `nbits` bits stands for; a command is one 32-bit word (R91) and `DIN` is beside it,
so a word alone is presented with `LEN` = 0. -/
def decodeTableWord (nbits w : Nat) : Option Instr :=
  (decode { word := BitVec.ofNat 32 (w % 2 ^ nbits), din := [] }).toOption

/-- The command word by its fields: `OPC`[31:24], zero[23:17], `B`[16], `ARG`[15:0] (R84). -/
def packWord (opc : BitVec 8) (b : BitVec 1) (arg : BitVec 16) : CommandWord := opc ++ 0#7 ++ b ++ arg

/-- The request that presents a command (R84, R85, R88). A format that ignores `DIN` is presented with `LEN` = 0. -/
def encode : Instr → Request
  | .sysReset => ⟨packWord 0x01#8 0#1 0#16, []⟩
  | .ckMake p => ⟨packWord 0x10#8 0#1 0#16, p⟩
  | .ckVerify f => ⟨packWord 0x11#8 0#1 0#16, f⟩
  | .bidMake st ix p => ⟨packWord 0x20#8 st ix, p⟩
  | .bidStream h => ⟨packWord 0x21#8 0#1 (h.setWidth 16), []⟩
  | .bidIndex h => ⟨packWord 0x22#8 0#1 (h.setWidth 16), []⟩
  | .bidCk h => ⟨packWord 0x23#8 0#1 (h.setWidth 16), []⟩
  | .rbProcess f => ⟨packWord 0x30#8 0#1 0#16, f⟩
  | .rxFrame f => ⟨packWord 0x31#8 0#1 0#16, f⟩
  | .rbReady b => ⟨packWord 0x32#8 b.bit 0#16, []⟩
  | .rbSwitch => ⟨packWord 0x33#8 0#1 0#16, []⟩
  | .rbFlushBegin b => ⟨packWord 0x34#8 b.bit 0#16, []⟩
  | .rbRd b a => ⟨packWord 0x35#8 b.bit (a.setWidth 16), []⟩
  | .rbReset b => ⟨packWord 0x36#8 b.bit 0#16, []⟩
  | .rbStat b => ⟨packWord 0x37#8 b.bit 0#16, []⟩
  | .sbPut v => ⟨packWord 0x40#8 0#1 (v.setWidth 16), []⟩
  | .sbSendFirst => ⟨packWord 0x41#8 0#1 0#16, []⟩
  | .sbSendNext => ⟨packWord 0x42#8 0#1 0#16, []⟩
  | .sbResend => ⟨packWord 0x43#8 0#1 0#16, []⟩
  | .sbRestart => ⟨packWord 0x44#8 0#1 0#16, []⟩
  | .sbRd => ⟨packWord 0x45#8 0#1 0#16, []⟩
  | .sbPending => ⟨packWord 0x46#8 0#1 0#16, []⟩
  | .sbStat => ⟨packWord 0x47#8 0#1 0#16, []⟩
  | .sbSlot n => ⟨packWord 0x48#8 0#1 (n.setWidth 16), []⟩
  | .sbReset => ⟨packWord 0x49#8 0#1 0#16, []⟩

end Sys2Proof
end

