-- ==== Sys2Proof/Machine/State.lean ====
section
/-! DEFINITION. The state of FB: everything spec 10_state.md gives it (R22 to R32), the configuration it was built with
(R7, R33), and the two ports of R8 as plain data (what the host has presented, and the last response), which are the
model's own fields. -/

namespace Sys2Proof.Machine

/-- A byte memory: the offsets that hold a byte, with the byte, in rising order of offset. An offset not listed holds no
value: its content is unspecified after power-on (R27, R32, R39; log entry 1). -/
abbrev Memory := List Host.Cell

/-- One RadioPageBuffer (R23 to R27). -/
structure RadioBuf where
  /-- `RB[b].wr`, the write cursor (R23). -/
  wr  : BitVec 9
  /-- `RB[b].exp`, the index of the frame most recently accepted (R24). -/
  exp : BitVec 4
  /-- `RB[b].got`, the `gotAllPackets` flag (R25). -/
  got : Bool
  /-- `RB[b].fl`, the `flushing` flag (R26). -/
  fl  : Bool
  /-- `RBMEM[b]`, the payload storage (R27). -/
  mem : Memory
deriving DecidableEq, Repr

/-- One slot of the serial buffer (R30 to R32). -/
structure Slot where
  /-- `SB.slot[s].wr`, the write cursor (R30). -/
  wr  : BitVec 5
  /-- `SB.slot[s].rd`, the read cursor (R31). -/
  rd  : BitVec 5
  /-- `SBMEM[s]`, the slot's bytes (R32). -/
  mem : Memory
deriving DecidableEq, Repr

/-- The eight values of `STATUS` (R200). -/
inductive Status where
  | ok
  | illegalCmd
  | badOperand
  | badState
  | badChecksum
  | stream
  | overflow
  | empty
deriving DecidableEq, Repr

/-- A response: `STATUS` and `RES` (R8, R87). -/
structure Response where
  status : Status
  res    : ResultWord
deriving DecidableEq, Repr

/-- What reaches FB from outside: the reset input (R220) or one command with its data-in vector (R8). -/
inductive PortEvent where
  | resetInput
  | command (r : Request)
deriving DecidableEq, Repr

structure State where
  /-- The parameters of R7: configuration, never written (R33; log entry 2). -/
  cfg     : Config
  /-- `CUR`, the current selector (R22). -/
  cur     : BufId
  /-- `RB[0]`, buffer A (R23 to R27). -/
  rb0     : RadioBuf
  /-- `RB[1]`, buffer B (R23 to R27). -/
  rb1     : RadioBuf
  /-- `SB.pq`, pagesQueued (R28). -/
  pq      : BitVec 5
  /-- `SB.ps`, pagesSent (R29). -/
  ps      : BitVec 5
  /-- `SB.slot[s]` and `SBMEM[s]`, slot 0 first; `SERIAL_SLOTS` of them (R30 to R32). -/
  slots   : List Slot
  /-- The model's own field: what the host presents next, in the order the port receives it (R8, R21; log entry 3). -/
  pending : List PortEvent
  /-- The model's own field: the response of the last command, none before the first (R8, R33; log entry 4). -/
  resp    : Option Response
deriving DecidableEq, Repr

/-- Why the machine stops. FB itself has no trap or access fault (R69, R202): each of these is an access that R69 says
cannot happen, so none is raised from a state that satisfies the invariants. All are safe: the model stops. -/
inductive Fault where
  /-- Raised by a read of a memory offset that nothing has written since power-on: its content is unspecified (R39,
  decision D12). Safe. -/
  | unwrittenByte
  /-- Raised by an access at an offset at or above the memory's size (R60, R69). Safe. -/
  | outsideMemory
  /-- Raised by an access to a slot the configuration does not have (R60, R69). Safe. -/
  | noSuchSlot
deriving DecidableEq, Repr

/-- Why the model gives no next state. -/
inductive Refusal where
  /-- Raised by `exec` for a command with no meaning yet. Safe. -/
  | notModelled (mnemonic : String)
  /-- Raised by `step` for a command other than `SYS_RESET` in a state that breaks the invariants of R37 or R38: the
  spec has a model "treat such a state as ill-formed and refuse it" (decision D28, entry U7; log entry 6). Safe. -/
  | illFormedState
deriving DecidableEq, Repr

/-- A RadioPageBuffer after a hardware reset (R39). -/
def RadioBuf.reset : RadioBuf := { wr := 0#9, exp := 0#4, got := false, fl := false, mem := [] }

/-- A slot after a hardware reset (R39). -/
def Slot.reset : Slot := { wr := 0#5, rd := 0#5, mem := [] }

/-- The state a hardware reset leaves, for any configuration (R39, R220). -/
def State.resetWith (c : Config) : State :=
  { cfg := c, cur := .bufA, rb0 := RadioBuf.reset, rb1 := RadioBuf.reset, pq := 0#5, ps := 0#5,
    slots := List.replicate c.serialSlots Slot.reset, pending := [], resp := none }

/-- The state right after reset with the default parameters (R7, R39). -/
def State.reset : State := State.resetWith Config.default

end Sys2Proof.Machine
end

