-- ==== Sys2Proof/Machine/Operands.lean ====
section
/-! DEFINITION. Every operand form and every computed value: the fields of a header and of a frame (spec R81, R92), the
`LEN` ranges (R86, R88), the checksum (R110), the header packer (R120), the numbers of statuses and outcome tags
(R200, R201), and the layouts of `RES` (R87). -/

namespace Sys2Proof.Machine

/-- `1 - b`: the other buffer (R22). -/
def otherBuf : BufId → BufId
  | .bufA => .bufB
  | .bufB => .bufA

/-- Whether `LEN` lies in a command's range (R86, R88). -/
def lenIn (lo hi : Nat) (d : DataIn) : Bool := decide (lo ≤ d.length) && decide (d.length ≤ hi)

/-- `S` = `h[7]`, the stream flag (R81). -/
def hdrStream (h : Byte) : BitVec 1 := h.extractLsb' 7 1

/-- `I` = `h[6:3]`, the packet index (R81). -/
def hdrIndex (h : Byte) : BitVec 4 := h.extractLsb' 3 4

/-- `K` = `h[2:0]`, the embedded checksum (R81). -/
def hdrCk (h : Byte) : BitVec 3 := h.extractLsb' 0 3

/-- The header of a frame, `DIN[0]` (R92). Used only where `LEN` ≥ 1 has been checked. -/
def frameHeader (f : DataIn) : Byte := f.headD 0#8

/-- The payload of a frame, `DIN[1..LEN-1]` (R92). -/
def framePayload (f : DataIn) : DataIn := f.tail

/-- `Σ p`: the integer sum of the bytes, each taken as 0..255 (R12). -/
def byteSum : List Byte → Nat
  | [] => 0
  | v :: p => v.toNat + byteSum p

/-- The checksum: the sum negated, its low three bits kept (R110). -/
def ck (p : List Byte) : BitVec 3 := BitVec.ofInt 3 (-(byteSum p : Int))

/-- The header packer: stream flag, the low four bits of the index, checksum (R120, layout R81). -/
def mk (st : BitVec 1) (ix : Nat) (p : List Byte) : Byte := st ++ BitVec.ofNat 4 ix ++ ck p

/-- The number of a status (R200). -/
def Status.code : Status → BitVec 4
  | .ok => 0#4
  | .illegalCmd => 1#4
  | .badOperand => 2#4
  | .badState => 3#4
  | .badChecksum => 4#4
  | .stream => 5#4
  | .overflow => 6#4
  | .empty => 7#4

/-- The ten outcomes of the frame processor (R201). -/
inductive OutcomeTag where
  | lastSingle
  | notLastFirst
  | notLastMiddle
  | lastMulti
  | missedNotLast
  | missedLast
  | switchLast
  | switchNotLast
  | failSwitchLast
  | failSwitchNotLast
deriving DecidableEq, Repr

/-- The number of an outcome (R201). -/
def OutcomeTag.code : OutcomeTag → BitVec 4
  | .lastSingle => 0#4
  | .notLastFirst => 1#4
  | .notLastMiddle => 2#4
  | .lastMulti => 3#4
  | .missedNotLast => 4#4
  | .missedLast => 5#4
  | .switchLast => 6#4
  | .switchNotLast => 7#4
  | .failSwitchLast => 8#4
  | .failSwitchNotLast => 9#4

/-- `RES[0]` = a truth value, the rest 0 (R114, R143, R169). -/
def resFlag (x : Bool) : ResultWord := if x then 1#16 else 0#16

/-- A narrow result placed in `RES` with zero fill (`zext`, R13). -/
def resZext {n : Nat} (x : BitVec n) : ResultWord := x.setWidth 16

/-- `BUF` and `TAG` (R141). -/
def resOutcome (cur : BufId) (tag : OutcomeTag) : ResultWord := 0#11 ++ cur.bit ++ tag.code

/-- The result of `RB_SWITCH`: `RES[4]` = `CUR` after it, `RES[0]` = success (R144). -/
def resSwitch (cur : BufId) (success : Bool) : ResultWord := 0#11 ++ cur.bit ++ 0#3 ++ BitVec.ofBool success

/-- The result of `RB_STAT`: `IS_CUR`, `fl`, `got`, `exp`, `wr` (R148). -/
def resStat (isCur : Bool) (r : RadioBuf) : ResultWord :=
  BitVec.ofBool isCur ++ BitVec.ofBool r.fl ++ BitVec.ofBool r.got ++ r.exp ++ r.wr

/-- Two 5-bit numbers, one in bits 12:8 and one in bits 4:0 (R170, R171). -/
def resPair (hi lo : BitVec 5) : ResultWord := 0#3 ++ hi ++ 0#3 ++ lo

/-- The result of the three send commands: `N` in bits 12:8, `HDR` in bits 7:0 (R163). -/
def resSend (n : BitVec 5) (hdr : Byte) : ResultWord := 0#3 ++ n ++ hdr

end Sys2Proof.Machine
end

