-- ==== Sys2Proof/Machine/Flags.lean ====
section
/-! DEFINITION. The flag predicates of a RadioPageBuffer (spec R35, R36) and the class the frame processor tests
(spec R130). FB has no condition codes: no command computes a flag from a result. -/

namespace Sys2Proof.Machine

/-- `empty(b)` (R36). -/
def RadioBuf.empty (r : RadioBuf) : Bool := decide (r.wr.toNat = 0)

/-- `has_data(b)` (R36). -/
def RadioBuf.hasData (r : RadioBuf) : Bool := decide (0 < r.wr.toNat)

/-- `complete(b)` (R36). -/
def RadioBuf.complete (r : RadioBuf) : Bool := r.got

/-- `incomplete(b)` (R36). -/
def RadioBuf.incomplete (r : RadioBuf) : Bool := r.hasData && !r.complete

/-- `ready(b)`: `readyForNewPage` (R36, R143). -/
def RadioBuf.ready (r : RadioBuf) : Bool := r.empty && !r.fl

/-- The three classes of the current buffer (R130). -/
inductive BufClass where
  | complete
  | incomplete
  | empty
deriving DecidableEq, Repr

/-- The class of a buffer, tested in the order of R130. -/
def RadioBuf.classOf (r : RadioBuf) : BufClass :=
  if r.complete then .complete else if r.hasData then .incomplete else .empty

/-- The gap rule, over integers with no wrap: `exp - idx == 1` (R133, R136). -/
def gapIsOne (exp idx : BitVec 4) : Bool := decide ((exp.toNat : Int) - (idx.toNat : Int) = 1)

end Sys2Proof.Machine
end

