-- ==== Sys2Proof/Machine/Ops.lean ====
section
/-! DEFINITION. The shared operations of FB: the byte memories (spec R13, R60, R69), the registers, the response
(R13, R87), the stores of the frame processor (R131, R132), the resets (R146, R172) and the framing of a slot (R163).

FB has no trap entry and no trap return (R209, R210): nothing saves state, changes a mode or transfers control. What
stands in their place is ONE shared operation, `refuse` (R13): the refusing status, `RES` = 0 and nothing else. -/

namespace Sys2Proof.Machine

/-- The outcome of a step. -/
abbrev Result := Host.Outcome State Fault Refusal

/-! ### Byte memories -/

/-- The canonical form of a memory: offsets strictly rising. An unlisted offset holds no value, so no entry can equal
what it would read as. -/
abbrev Memory.wf (m : Memory) : Prop := (m.map Prod.fst).Pairwise (· < ·)

/-- The byte at an offset, none where nothing has been written. -/
def Memory.read : Memory → Nat → Option Byte
  | [], _ => none
  | (k, v) :: m, a => if k = a then some v else Memory.read m a

/-- Write one byte, keeping the canonical form. -/
def Memory.write : Memory → Nat → Byte → Memory
  | [], a, v => [(a, v)]
  | (k, w) :: m, a, v =>
    if a < k then (a, v) :: (k, w) :: m
    else if a = k then (a, v) :: m
    else (k, w) :: Memory.write m a v

/-- Write a byte sequence at rising offsets from `base` (the loops of R131, R132). -/
def Memory.writeBytes (m : Memory) (base : Nat) : List Byte → Memory
  | [] => m
  | v :: p => Memory.writeBytes (Memory.write m base v) (base + 1) p

/-- Read `n` bytes at rising offsets from `base`, none if one of them holds no value. -/
def Memory.readBytes (m : Memory) (base : Nat) : Nat → Option (List Byte)
  | 0 => some []
  | n + 1 =>
    match Memory.read m base, Memory.readBytes m (base + 1) n with
    | some v, some p => some (v :: p)
    | _, _ => none

/-- `MemRead(space, a, 1)` on a memory of `size` bytes (R13, R60, R69). -/
def load (size : Nat) (m : Memory) (a : Nat) : Except Fault Byte :=
  if a < size then
    match Memory.read m a with
    | some v => .ok v
    | none => .error .unwrittenByte
  else .error .outsideMemory

/-- The whole of a memory range, for a checksum (R163, R193). -/
def loadBytes (size : Nat) (m : Memory) (n : Nat) : Except Fault (List Byte) :=
  if n ≤ size then
    match Memory.readBytes m 0 n with
    | some p => .ok p
    | none => .error .unwrittenByte
  else .error .outsideMemory

/-- `MemWrite` of a byte sequence from `base` on, in a memory of `size` bytes (R13, R60, R69). -/
def store (size : Nat) (m : Memory) (base : Nat) (p : List Byte) : Except Fault Memory :=
  if base + p.length ≤ size then .ok (Memory.writeBytes m base p) else .error .outsideMemory

/-! ### Registers -/

/-- `RB[b]`. -/
def State.rb (s : State) : BufId → RadioBuf
  | .bufA => s.rb0
  | .bufB => s.rb1

/-- Write `RB[b]`. -/
def State.setRb (s : State) (b : BufId) (r : RadioBuf) : State :=
  match b with
  | .bufA => { s with rb0 := r }
  | .bufB => { s with rb1 := r }

/-- Write `CUR`. -/
def State.setCur (s : State) (b : BufId) : State := { s with cur := b }

/-- Write `SB.pq`. -/
def State.setPq (s : State) (x : BitVec 5) : State := { s with pq := x }

/-- Write `SB.ps`. -/
def State.setPs (s : State) (x : BitVec 5) : State := { s with ps := x }

/-- Write slot `t`. -/
def State.setSlot (s : State) (t : Nat) (sl : Slot) : State := { s with slots := s.slots.set t sl }

/-- Slot `t`, a fault where the configuration has no such slot (R60). -/
def slotAt (s : State) (t : Nat) : Except Fault Slot :=
  match s.slots[t]? with
  | some sl => .ok sl
  | none => .error .noSuchSlot

/-! ### Responses -/

/-- Put a response on the response port (R8, R87). -/
def State.respond (s : State) (st : Status) (r : ResultWord) : State := { s with resp := some ⟨st, r⟩ }

/-- `return (S, r)` (R13). -/
def answer (s : State) (st : Status) (r : ResultWord) : Result := .next (s.respond st r)

/-- `refuse S`: the status, `RES` = 0, no state change (R9, R13). -/
def refuse (s : State) (st : Status) : Result := answer s st 0#16

/-! ### The reassembly engine's stores -/

/-- Store a payload in buffer `b` from offset `base` on and record the frame's index; `fl` is not written (the common
part of R131 and R132). -/
def storePayload (s : State) (b : BufId) (base : Nat) (idx : BitVec 4) (p : List Byte) : Except Fault State :=
  match store s.cfg.radioBufBytes (s.rb b).mem base p with
  | .error f => .error f
  | .ok m =>
    .ok (s.setRb b { s.rb b with
      mem := m, wr := BitVec.ofNat 9 (base + p.length), exp := idx, got := decide (idx = 0#4) })

/-- `store_first(b, idx, p)` (R131). -/
def storeFirst (s : State) (b : BufId) (idx : BitVec 4) (p : List Byte) : Except Fault State :=
  storePayload s b 0 idx p

/-- `append(b, idx, p)` (R132). -/
def append (s : State) (b : BufId) (idx : BitVec 4) (p : List Byte) : Except Fault State :=
  storePayload s b (s.rb b).wr.toNat idx p

/-- End a frame command after a store: the outcome `tag` about the buffer that is current after it (R141). -/
def outcome (r : Except Fault State) (tag : OutcomeTag) : Result :=
  match r with
  | .error f => .fault f
  | .ok t => answer t .ok (resOutcome t.cur tag)

/-! ### Resets -/

/-- `reset()` of a RadioPageBuffer: cursor, index and both flags cleared, memory kept (R146). -/
def RadioBuf.cleared (r : RadioBuf) : RadioBuf := { r with wr := 0#9, exp := 0#4, got := false, fl := false }

/-- Reset buffer `b` (R146, and the MISSED reset of R138). -/
def State.clearRb (s : State) (b : BufId) : State := s.setRb b (s.rb b).cleared

/-- A slot with its cursors cleared, memory kept (R172). -/
def Slot.cleared (sl : Slot) : Slot := { sl with wr := 0#5, rd := 0#5 }

/-- Empty the serial buffer (R172). -/
def State.clearSb (s : State) : State :=
  { s with pq := 0#5, ps := 0#5, slots := s.slots.map Slot.cleared }

/-! ### The serial buffer -/

/-- Store byte `v` at offset `off` of slot `t`, its write cursor one above, with `SB.pq` = `pq` after it (the three
storing branches of R160). -/
def putByte (s : State) (t off : Nat) (pq : BitVec 5) (v : Byte) : Result :=
  match slotAt s t with
  | .error f => .fault f
  | .ok sl =>
    match store payloadMax sl.mem off [v] with
    | .error f => .fault f
    | .ok m => answer ((s.setSlot t { sl with mem := m, wr := BitVec.ofNat 5 (off + 1) }).setPq pq) .ok 0#16

/-- `frame_hdr(t, idx)` of a slot: stream flag 0, the index, the checksum of the slot's bytes (R163). -/
def frameHdr (sl : Slot) (idx : Nat) : Except Fault Byte :=
  match loadBytes payloadMax sl.mem sl.wr.toNat with
  | .error f => .error f
  | .ok p => .ok (mk 0#1 idx p)

/-- Frame slot `t` with index `idx`, put its read cursor to 0 and `SB.ps` to `ps`, and answer its header and length (the
common part of R164, R165, R166). -/
def sendSlot (s : State) (t idx : Nat) (ps : BitVec 5) : Result :=
  match slotAt s t with
  | .error f => .fault f
  | .ok sl =>
    match frameHdr sl idx with
    | .error f => .fault f
    | .ok hdr => answer ((s.setSlot t { sl with rd := 0#5 }).setPs ps) .ok (resSend sl.wr hdr)

end Sys2Proof.Machine
end

