-- ==== Sys2Proof/Machine/ByteId.lean ====
section
/-! DEFINITION. The Byte-ID header codec's commands (spec 41_byteid_codec.md). Pure: no state but the response is
written. -/

namespace Sys2Proof.Machine

/-- `BID_MAKE st, ix, [p]` (R121). -/
def execBidMake (st : BitVec 1) (ix : BitVec 16) (p : DataIn) (s : State) : Result :=
  if lenIn 0 payloadMax p then answer s .ok (resZext (mk st ix.toNat p)) else refuse s .badOperand

/-- `BID_STREAM h` (R122). -/
def execBidStream (h : Byte) (s : State) : Result := answer s .ok (resZext (hdrStream h))

/-- `BID_INDEX h` (R123). -/
def execBidIndex (h : Byte) (s : State) : Result := answer s .ok (resZext (hdrIndex h))

/-- `BID_CK h` (R124). -/
def execBidCk (h : Byte) (s : State) : Result := answer s .ok (resZext (hdrCk h))

end Sys2Proof.Machine
end

