-- ==== Sys2Proof/Machine/Checksum.lean ====
section
/-! DEFINITION. The checksum unit's commands (spec 40_checksum.md). Pure: no state but the response is written. -/

namespace Sys2Proof.Machine

/-- `CK_MAKE [p]` (R111). -/
def execCkMake (p : DataIn) (s : State) : Result :=
  if lenIn 0 payloadMax p then answer s .ok (resZext (ck p)) else refuse s .badOperand

/-- `CK_VERIFY [f]` (R114). -/
def execCkVerify (f : DataIn) (s : State) : Result :=
  if lenIn 1 frameMax f then
    answer s .ok (resFlag (decide (ck (framePayload f) = hdrCk (frameHeader f))))
  else refuse s .badOperand

end Sys2Proof.Machine
end

