-- ==== Sys2Proof/Machine/Reassembly.lean ====
section
/-! DEFINITION. The reassembly engine's commands (spec 42_reassembly_engine.md). -/

namespace Sys2Proof.Machine

/-- One of two outcomes, the `_LAST` variant when the index is 0 (R130). -/
def lastOr (idx : BitVec 4) (last notLast : OutcomeTag) : OutcomeTag := if idx = 0#4 then last else notLast

/-- The frame processor: the pseudocode of R133 from its second line (outcomes R134 to R140, result R141). -/
def processFrame (f : DataIn) (s : State) : Result :=
  let idx := hdrIndex (frameHeader f)
  let p := framePayload f
  let c := s.cur
  let o := otherBuf s.cur
  match (s.rb c).classOf with
  | .complete =>
    if (s.rb o).ready then
      outcome (storeFirst (s.setCur o) o idx p) (lastOr idx .switchLast .switchNotLast)
    else
      outcome (.ok s) (lastOr idx .failSwitchLast .failSwitchNotLast)
  | .incomplete =>
    if gapIsOne (s.rb c).exp idx then
      outcome (append s c idx p) (lastOr idx .lastMulti .notLastMiddle)
    else
      outcome (.ok (s.clearRb c)) (lastOr idx .missedLast .missedNotLast)
  | .empty =>
    outcome (storeFirst s c idx p) (lastOr idx .lastSingle .notLastFirst)

/-- `RB_PROCESS [f]` (R133). -/
def execRbProcess (f : DataIn) (s : State) : Result :=
  if lenIn 2 frameMax f then processFrame f s else refuse s .badOperand

/-- `RX_FRAME [f]`: the checksum gate, the stream gate, then the frame processor (R142). -/
def execRxFrame (f : DataIn) (s : State) : Result :=
  if lenIn 2 frameMax f then
    if ck (framePayload f) ≠ hdrCk (frameHeader f) then answer s .badChecksum 0#16
    else if hdrStream (frameHeader f) = 1#1 then answer s .stream (resZext (hdrIndex (frameHeader f)))
    else processFrame f s
  else refuse s .badOperand

/-- `RB_READY b` (R143). -/
def execRbReady (b : BufId) (s : State) : Result := answer s .ok (resFlag (s.rb b).ready)

/-- `RB_SWITCH` (R144). -/
def execRbSwitch (s : State) : Result :=
  let o := otherBuf s.cur
  if (s.rb o).ready then answer (s.setCur o) .ok (resSwitch o true)
  else answer s .ok (resSwitch s.cur false)

/-- `RB_FLUSH_BEGIN b` (R145). It answers `RB[b].wr`, as R145's pseudocode says, although R40's table leaves `RB[b].wr`
blank (not read) for it and 90_conflicts.md does not name the difference: DEDUCED (log entry 13), safe. -/
def execRbFlushBegin (b : BufId) (s : State) : Result :=
  if (s.rb b).got = false ∨ (s.rb b).fl = true then refuse s .badState
  else answer (s.setRb b { s.rb b with fl := true }) .ok (resZext (s.rb b).wr)

/-- `RB_RD b, a` (R147). -/
def execRbRd (b : BufId) (a : BitVec 9) (s : State) : Result :=
  if (s.rb b).wr.toNat ≤ a.toNat then refuse s .badOperand
  else
    match load s.cfg.radioBufBytes (s.rb b).mem a.toNat with
    | .error f => .fault f
    | .ok v => answer s .ok (resZext v)

/-- `RB_RESET b` (R146). -/
def execRbReset (b : BufId) (s : State) : Result := answer (s.clearRb b) .ok 0#16

/-- `RB_STAT b` (R148). -/
def execRbStat (b : BufId) (s : State) : Result := answer s .ok (resStat (decide (s.cur = b)) (s.rb b))

end Sys2Proof.Machine
end

