-- ==== Sys2Proof/Machine/Serial.lean ====
section
/-! DEFINITION. The serial ingest buffer's commands (spec 43_serial_page_buffer.md). -/

namespace Sys2Proof.Machine

/-- `SB_PUT v` (R160), with the overflow of R161. -/
def execSbPut (v : Byte) (s : State) : Result :=
  if s.pq.toNat = 0 then putByte s 0 0 1#5 v
  else
    let t := s.pq.toNat - 1
    match slotAt s t with
    | .error f => .fault f
    | .ok sl =>
      if sl.wr.toNat < payloadMax then putByte s t sl.wr.toNat s.pq v
      else if s.pq.toNat < s.cfg.serialSlots then putByte s (t + 1) 0 (s.pq + 1#5) v
      else answer s.clearSb .overflow 0#16

/-- `SB_SEND_FIRST` (R164). -/
def execSbSendFirst (s : State) : Result :=
  if 0 < s.pq.toNat ∧ s.ps.toNat = 0 then sendSlot s 0 (s.pq.toNat - 1) 1#5 else refuse s .badState

/-- `SB_SEND_NEXT` (R165). -/
def execSbSendNext (s : State) : Result :=
  if 1 ≤ s.ps.toNat ∧ s.ps.toNat < s.pq.toNat then
    sendSlot s s.ps.toNat (s.pq.toNat - 1 - s.ps.toNat) (s.ps + 1#5)
  else refuse s .badState

/-- `SB_RESEND` (R166). -/
def execSbResend (s : State) : Result :=
  if s.ps.toNat = 0 then refuse s .badState
  else sendSlot s (s.ps.toNat - 1) (s.pq.toNat - 1 - (s.ps.toNat - 1)) s.ps

/-- `SB_RESTART` (R167). -/
def execSbRestart (s : State) : Result := answer (s.setPs 0#5) .ok 0#16

/-- `SB_RD` (R168). -/
def execSbRd (s : State) : Result :=
  if s.ps.toNat = 0 then refuse s .badState
  else
    let t := s.ps.toNat - 1
    match slotAt s t with
    | .error f => .fault f
    | .ok sl =>
      if sl.rd = sl.wr then answer s .empty 0#16
      else
        match load payloadMax sl.mem sl.rd.toNat with
        | .error f => .fault f
        | .ok v => answer (s.setSlot t { sl with rd := sl.rd + 1#5 }) .ok (resZext v)

/-- `SB_PENDING` (R169). -/
def execSbPending (s : State) : Result := answer s .ok (resFlag (decide (s.ps.toNat < s.pq.toNat)))

/-- `SB_STAT` (R170). -/
def execSbStat (s : State) : Result := answer s .ok (resPair s.ps s.pq)

/-- `SB_SLOT n` (R171). -/
def execSbSlot (n : BitVec 4) (s : State) : Result :=
  if s.cfg.serialSlots ≤ n.toNat then refuse s .badOperand
  else
    match slotAt s n.toNat with
    | .error f => .fault f
    | .ok sl => answer s .ok (resPair sl.rd sl.wr)

/-- `SB_RESET` (R172). -/
def execSbReset (s : State) : Result := answer s.clearSb .ok 0#16

end Sys2Proof.Machine
end

