-- ==== Sys2Proof/Machine/System.lean ====
section
/-! DEFINITION. The system command (spec 44_system_ops.md). -/

namespace Sys2Proof.Machine

/-- `SYS_RESET`: every register to its reset value, no memory written (R190). -/
def execSysReset (s : State) : Result :=
  answer (((s.setCur .bufA).clearRb .bufA).clearRb .bufB).clearSb .ok 0#16

end Sys2Proof.Machine
end

