-- ==== Sys2Proof/Machine/Dispatch.lean ====
section
/-! DEFINITION. The meaning of every command, one arm per constructor of Instr (spec R88). -/

namespace Sys2Proof.Machine

def exec (i : Instr) (s : State) : Host.Outcome State Fault Refusal :=
  match i with
  | .sysReset => Sys2Proof.Machine.execSysReset s
  | .ckMake p => Sys2Proof.Machine.execCkMake p s
  | .ckVerify f => Sys2Proof.Machine.execCkVerify f s
  | .bidMake st ix p => Sys2Proof.Machine.execBidMake st ix p s
  | .bidStream h => Sys2Proof.Machine.execBidStream h s
  | .bidIndex h => Sys2Proof.Machine.execBidIndex h s
  | .bidCk h => Sys2Proof.Machine.execBidCk h s
  | .rbProcess f => Sys2Proof.Machine.execRbProcess f s
  | .rxFrame f => Sys2Proof.Machine.execRxFrame f s
  | .rbReady b => Sys2Proof.Machine.execRbReady b s
  | .rbSwitch => Sys2Proof.Machine.execRbSwitch s
  | .rbFlushBegin b => Sys2Proof.Machine.execRbFlushBegin b s
  | .rbRd b a => Sys2Proof.Machine.execRbRd b a s
  | .rbReset b => Sys2Proof.Machine.execRbReset b s
  | .rbStat b => Sys2Proof.Machine.execRbStat b s
  | .sbPut v => Sys2Proof.Machine.execSbPut v s
  | .sbSendFirst => Sys2Proof.Machine.execSbSendFirst s
  | .sbSendNext => Sys2Proof.Machine.execSbSendNext s
  | .sbResend => Sys2Proof.Machine.execSbResend s
  | .sbRestart => Sys2Proof.Machine.execSbRestart s
  | .sbRd => Sys2Proof.Machine.execSbRd s
  | .sbPending => Sys2Proof.Machine.execSbPending s
  | .sbStat => Sys2Proof.Machine.execSbStat s
  | .sbSlot n => Sys2Proof.Machine.execSbSlot n s
  | .sbReset => Sys2Proof.Machine.execSbReset s

end Sys2Proof.Machine
end

