-- ==== Sys2Proof/Machine/Invariants.lean ====
section
/-! DEFINITION. The invariants of the registers as the spec numbers them: RI1 to RI5 of each RadioPageBuffer (spec R37)
and SI1 to SI5 of the serial buffer (spec R38). They are decidable: the machine's step refuses a command in a state
that breaks them (decision D28, entry U7). -/

namespace Sys2Proof.Machine

/-- RI1 (R37). -/
abbrev RadioBuf.RI1 (r : RadioBuf) : Prop := r.fl = true → r.got = true

/-- RI2 (R37). -/
abbrev RadioBuf.RI2 (r : RadioBuf) : Prop := r.got = true → 1 ≤ r.wr.toNat ∧ r.exp.toNat = 0

/-- RI3 (R37). -/
abbrev RadioBuf.RI3 (r : RadioBuf) : Prop := r.wr.toNat = 0 → r.exp.toNat = 0 ∧ r.got = false ∧ r.fl = false

/-- RI4 (R37). -/
abbrev RadioBuf.RI4 (r : RadioBuf) : Prop := r.incomplete = true → 1 ≤ r.exp.toNat ∧ r.exp.toNat ≤ 15

/-- RI5 (R37). -/
abbrev RadioBuf.RI5 (r : RadioBuf) : Prop := r.wr.toNat ≤ payloadMax * (pageFramesMax - r.exp.toNat)

/-- RI1 to RI5 of one buffer (R37). -/
abbrev RadioBuf.regsOk (r : RadioBuf) : Prop := r.RI1 ∧ r.RI2 ∧ r.RI3 ∧ r.RI4 ∧ r.RI5

/-- SI1 (R38). -/
abbrev State.SI1 (s : State) : Prop := s.ps.toNat ≤ s.pq.toNat ∧ s.pq.toNat ≤ s.cfg.serialSlots

/-- SI2 (R38): a slot before the active one is full. -/
abbrev State.SI2 (s : State) : Prop :=
  ∀ i, ∀ h : i < s.slots.length, i + 1 < s.pq.toNat → s.slots[i].wr.toNat = payloadMax

/-- SI3 (R38): the active slot holds 1 to 31 bytes. -/
abbrev State.SI3 (s : State) : Prop :=
  ∀ i, ∀ h : i < s.slots.length, i + 1 = s.pq.toNat → 1 ≤ s.slots[i].wr.toNat ∧ s.slots[i].wr.toNat ≤ payloadMax

/-- SI4 (R38): a slot after the active one is empty. -/
abbrev State.SI4 (s : State) : Prop :=
  ∀ i, ∀ h : i < s.slots.length, s.pq.toNat ≤ i → s.slots[i].wr.toNat = 0

/-- SI5 (R38): no read cursor is above its write cursor. -/
abbrev State.SI5 (s : State) : Prop :=
  ∀ i, ∀ h : i < s.slots.length, s.slots[i].rd.toNat ≤ s.slots[i].wr.toNat

/-- Every register invariant of R37 and R38. -/
abbrev State.regsOk (s : State) : Prop :=
  s.rb0.regsOk ∧ s.rb1.regsOk ∧ s.SI1 ∧ s.SI2 ∧ s.SI3 ∧ s.SI4 ∧ s.SI5

end Sys2Proof.Machine
end

