-- ==== Sys2Proof/Machine/Port.lean ====
section
/-! DEFINITION. What FB does with each thing that reaches it from outside: a pulse of the reset input (spec R220) or one
command on the command port (spec R8, R90), and how a command word is presented. -/

namespace Sys2Proof.Machine

/-- The reset input released (R39, R220): every register at its reset value, the memories' content unspecified, the
response port silent. What the host has still to present is the host's and stays. -/
def hardReset (s : State) : State := { State.resetWith s.cfg with pending := s.pending }

/-- One command from decode to response (R90). -/
def runRequest (r : Request) (s : State) : Result :=
  match decode r with
  | .error _ => refuse s .illegalCmd
  | .ok i => exec i s

/-- Whether a request is `SYS_RESET`, "legal in every state" (R190). -/
def isSysReset (r : Request) : Bool :=
  match decode r with
  | .ok i => decide (i = .sysReset)
  | .error _ => false

/-- Whether the machine runs this request in this state: a state that satisfies R37 and R38 runs every request; in any
other "no rule applies" before `SYS_RESET` (R221, decision D28). -/
abbrev accepts (r : Request) (s : State) : Prop := isSysReset r = true ∨ s.regsOk

/-- Take one event from outside. -/
def takeEvent (e : PortEvent) (s : State) : Result :=
  match e with
  | .resetInput => .next (hardReset s)
  | .command r => if accepts r s then runRequest r s else .refused .illFormedState

/-- One step: the first thing presented is taken off and acted on, to completion (R8, R66). With nothing presented FB
does nothing: it acts only when commanded (R207). -/
def stepPort (s : State) : Result :=
  match s.pending with
  | [] => .next s
  | e :: rest => takeEvent e { s with pending := rest }

/-- Present a command before everything else the host has to present. -/
def present (r : Request) (s : State) : State := { s with pending := .command r :: s.pending }

/-- The request of a table word of `nbits` bits, with `LEN` = 0. -/
def tableRequest (nbits w : Nat) : Request := { word := BitVec.ofNat 32 (w % 2 ^ nbits), din := [] }

end Sys2Proof.Machine
end

