-- ==== Sys2Proof/Machine/Step.lean ====
section
/-! DEFINITION. The step function and how a table word comes to be the next command (spec R8, R21, R90). -/

namespace Sys2Proof.Machine

/-- One step of FB (R212: one step per command). -/
def step (s : State) : Host.Outcome State Fault Refusal := stepPort s

/-- `s` with a table word presented on the command port, so that the next step runs it. FB fetches nothing (R21, R74):
the host presents commands. -/
def State.withFetchWord (s : State) (nbits w : Nat) : State := present (tableRequest nbits w) s

end Sys2Proof.Machine
end

