-- ==== Sys2Proof/Safety.lean ====
section
/-! DEFINITION. What counts as a well-formed state and a run, in the terms the claims use: the invariant of a state
(spec R37, R38, with the memories' own form), runs of commands (spec R8, R66), and the vocabulary of frames. -/

namespace Sys2Proof

/-! ### Kinds of commands -/

/-- The commands of the reassembly engine (R88, unit 3). -/
def Instr.isRadio : Instr → Bool
  | .rbProcess _ | .rxFrame _ | .rbReady _ | .rbSwitch | .rbFlushBegin _ | .rbRd _ _ | .rbReset _ | .rbStat _ => true
  | .sysReset | .ckMake _ | .ckVerify _ | .bidMake _ _ _ | .bidStream _ | .bidIndex _ | .bidCk _ => false
  | .sbPut _ | .sbSendFirst | .sbSendNext | .sbResend | .sbRestart | .sbRd | .sbPending | .sbStat | .sbSlot _
  | .sbReset => false

/-- The commands of the serial buffer (R88, unit 4). -/
def Instr.isSerial : Instr → Bool
  | .sbPut _ | .sbSendFirst | .sbSendNext | .sbResend | .sbRestart | .sbRd | .sbPending | .sbStat | .sbSlot _
  | .sbReset => true
  | .sysReset | .ckMake _ | .ckVerify _ | .bidMake _ _ _ | .bidStream _ | .bidIndex _ | .bidCk _ => false
  | .rbProcess _ | .rxFrame _ | .rbReady _ | .rbSwitch | .rbFlushBegin _ | .rbRd _ _ | .rbReset _ | .rbStat _ => false

/-- The commands R67 lists as idempotent. -/
def Instr.isIdempotent : Instr → Bool
  | .ckMake _ | .ckVerify _ | .bidMake _ _ _ | .bidStream _ | .bidIndex _ | .bidCk _ => true
  | .rbReady _ | .rbRd _ _ | .rbStat _ | .sbPending | .sbStat | .sbSlot _ => true
  | .sysReset | .rbProcess _ | .rxFrame _ | .rbSwitch | .rbFlushBegin _ | .rbReset _ => false
  | .sbPut _ | .sbSendFirst | .sbSendNext | .sbResend | .sbRestart | .sbRd | .sbReset => false

/-- The two commands that give a frame to the engine. -/
def Instr.isFrame : Instr → Bool
  | .rbProcess _ | .rxFrame _ => true
  | .sysReset | .ckMake _ | .ckVerify _ | .bidMake _ _ _ | .bidStream _ | .bidIndex _ | .bidCk _ => false
  | .rbReady _ | .rbSwitch | .rbFlushBegin _ | .rbRd _ _ | .rbReset _ | .rbStat _ => false
  | .sbPut _ | .sbSendFirst | .sbSendNext | .sbResend | .sbRestart | .sbRd | .sbPending | .sbStat | .sbSlot _
  | .sbReset => false

/-- The statuses a command may answer beside `OK` (R200, column "produced by"). -/
def Instr.alsoAnswers : Instr → List Machine.Status
  | .sysReset => []
  | .ckMake _ => [.badOperand]
  | .ckVerify _ => [.badOperand]
  | .bidMake _ _ _ => [.badOperand]
  | .bidStream _ => []
  | .bidIndex _ => []
  | .bidCk _ => []
  | .rbProcess _ => [.badOperand]
  | .rxFrame _ => [.badOperand, .badChecksum, .stream]
  | .rbReady _ => []
  | .rbSwitch => []
  | .rbFlushBegin _ => [.badState]
  | .rbRd _ _ => [.badOperand]
  | .rbReset _ => []
  | .rbStat _ => []
  | .sbPut _ => [.overflow]
  | .sbSendFirst => [.badState]
  | .sbSendNext => [.badState]
  | .sbResend => [.badState]
  | .sbRestart => []
  | .sbRd => [.badState, .empty]
  | .sbPending => []
  | .sbStat => []
  | .sbSlot _ => [.badOperand]
  | .sbReset => []

end Sys2Proof

namespace Sys2Proof.Machine

/-! ### The invariant of a state -/

/-- A RadioPageBuffer's memory is in canonical form, inside its size, and holds a byte at every offset below the write
cursor (R27, R69). -/
abbrev RadioBuf.memOk (size : Nat) (r : RadioBuf) : Prop :=
  Memory.wf r.mem ∧ (∀ c ∈ r.mem, c.1 < size) ∧ ∀ a, a < r.wr.toNat → (Memory.read r.mem a).isSome = true

/-- The same of a slot (R32, R69). -/
abbrev Slot.memOk (sl : Slot) : Prop :=
  Memory.wf sl.mem ∧ (∀ c ∈ sl.mem, c.1 < payloadMax) ∧ ∀ a, a < sl.wr.toNat → (Memory.read sl.mem a).isSome = true

/-- The state has the parameters' ranges and as many slots as the configuration says (R7, R60). -/
abbrev State.shape (s : State) : Prop := s.cfg.ok ∧ s.slots.length = s.cfg.serialSlots

/-- Every memory of the state is as it should be. -/
abbrev State.memOk (s : State) : Prop :=
  s.rb0.memOk s.cfg.radioBufBytes ∧ s.rb1.memOk s.cfg.radioBufBytes ∧ ∀ sl ∈ s.slots, sl.memOk

/-- The invariant: the shape, R37 and R38, and the memories. Entry U7 has a model "carry the
invariants as a premise". -/
structure State.Inv (s : State) : Prop where
  shape : s.shape
  regs  : s.regsOk
  mem   : s.memOk

/-! ### The conditions of a buffer (R37) -/

/-- The four conditions of R37. -/
inductive Condition where
  | empty
  | filling
  | complete
  | flushing
deriving DecidableEq, Repr

/-- Which condition a buffer is in (R37). -/
def RadioBuf.isIn (r : RadioBuf) : Condition → Prop
  | .empty => r.wr.toNat = 0 ∧ r.exp.toNat = 0 ∧ r.got = false ∧ r.fl = false
  | .filling => 1 ≤ r.wr.toNat ∧ 1 ≤ r.exp.toNat ∧ r.got = false ∧ r.fl = false
  | .complete => 1 ≤ r.wr.toNat ∧ r.exp.toNat = 0 ∧ r.got = true ∧ r.fl = false
  | .flushing => 1 ≤ r.wr.toNat ∧ r.exp.toNat = 0 ∧ r.got = true ∧ r.fl = true

/-- A buffer's moves: the cycle of R37 and its shortcuts, or no move. -/
def Condition.mayMove : Condition → Condition → Bool
  | .empty, .filling => true
  | .filling, .complete => true
  | .complete, .flushing => true
  | .empty, .complete => true
  | _, .empty => true
  | x, y => decide (x = y)

/-! ### Runs -/

/-- Run commands one after the other (R8, R70). -/
def execList : List Instr → State → Result
  | [], s => .next s
  | i :: is, s =>
    match exec i s with
    | .next t => execList is t
    | .fault f => .fault f
    | .refused r => .refused r

/-- Run commands and collect their responses, first command first; none if one of them gives no next state. -/
def runTrace : List Instr → State → Option (List Response × State)
  | [], s => some ([], s)
  | i :: is, s =>
    match exec i s with
    | .next t =>
      match t.resp, runTrace is t with
      | some r, some (rs, u) => some (r :: rs, u)
      | _, _ => none
    | .fault _ => none
    | .refused _ => none

/-! ### The opcode table as the spec prints it -/

/-- spec/opcode_table.json: `match` and `mask` of each of the 25 rows, in its order. -/
def specTable : List (CommandWord × CommandWord) :=
  [(0x01000000#32, 0xFFFFFFFF#32), (0x10000000#32, 0xFFFFFFFF#32), (0x11000000#32, 0xFFFFFFFF#32),
   (0x20000000#32, 0xFFFE0000#32), (0x21000000#32, 0xFFFFFF00#32), (0x22000000#32, 0xFFFFFF00#32),
   (0x23000000#32, 0xFFFFFF00#32)] ++
  [(0x30000000#32, 0xFFFFFFFF#32), (0x31000000#32, 0xFFFFFFFF#32), (0x32000000#32, 0xFFFEFFFF#32),
   (0x33000000#32, 0xFFFFFFFF#32), (0x34000000#32, 0xFFFEFFFF#32), (0x35000000#32, 0xFFFEFE00#32),
   (0x36000000#32, 0xFFFEFFFF#32), (0x37000000#32, 0xFFFEFFFF#32)] ++
  [(0x40000000#32, 0xFFFFFF00#32), (0x41000000#32, 0xFFFFFFFF#32), (0x42000000#32, 0xFFFFFFFF#32),
   (0x43000000#32, 0xFFFFFFFF#32), (0x44000000#32, 0xFFFFFFFF#32), (0x45000000#32, 0xFFFFFFFF#32),
   (0x46000000#32, 0xFFFFFFFF#32), (0x47000000#32, 0xFFFFFFFF#32), (0x48000000#32, 0xFFFFFFF0#32),
   (0x49000000#32, 0xFFFFFFFF#32)]

/-! ### Frames -/

/-- The reassembly engine's state is the same in `t` as in `s`: selector, both buffers, both memories. -/
def sameRadio (s t : State) : Prop := t.cur = s.cur ∧ t.rb0 = s.rb0 ∧ t.rb1 = s.rb1

/-- The serial buffer's state is the same in `t` as in `s`: counters, every cursor, every slot memory. -/
def sameSerial (s t : State) : Prop := t.pq = s.pq ∧ t.ps = s.ps ∧ t.slots = s.slots

/-- The configuration and what the host has still to present are the same. -/
def sameHost (s t : State) : Prop := t.cfg = s.cfg ∧ t.pending = s.pending

/-- In `t` buffer `b` holds payload `p` from offset `base` on, as R131 (`base` = 0) and R132 (`base` = the write cursor)
say: cursor, index and `got` written, `fl` not; every other byte of its memory and the other buffer as in `s`. -/
def StoredFrame (s t : State) (b : BufId) (base : Nat) (idx : BitVec 4) (p : List Byte) : Prop :=
  (t.rb b).wr.toNat = base + p.length ∧ (t.rb b).exp = idx ∧ (t.rb b).got = decide (idx.toNat = 0) ∧
  (t.rb b).fl = (s.rb b).fl ∧
  (∀ k, ∀ h : k < p.length, Memory.read (t.rb b).mem (base + k) = some p[k]) ∧
  (∀ a, a < base ∨ base + p.length ≤ a → Memory.read (t.rb b).mem a = Memory.read (s.rb b).mem a) ∧
  t.rb (otherBuf b) = s.rb (otherBuf b)

/-- In `t` slot `j` holds byte `v` at offset `off` and its write cursor is one above, as R160 says: its read cursor,
every other byte of its memory and every other slot as in `s`. -/
def StoredByte (s t : State) (j off : Nat) (v : Byte) : Prop :=
  (∃ sl sl', s.slots[j]? = some sl ∧ t.slots[j]? = some sl' ∧ sl'.wr.toNat = off + 1 ∧ sl'.rd = sl.rd ∧
    Memory.read sl'.mem off = some v ∧ ∀ a, a ≠ off → Memory.read sl'.mem a = Memory.read sl.mem a) ∧
  t.slots.length = s.slots.length ∧ ∀ i, i ≠ j → t.slots[i]? = s.slots[i]?

/-- Command `i` frames slot `j` with index `idx` (R163): it answers `N` in bits 12:8 and the header, stream flag 0, in
bits 7:0, puts the slot's read cursor to 0 and `SB.ps` to `ps`, and changes nothing else. -/
def SendsSlot (i : Instr) (s : State) (j idx : Nat) (ps : BitVec 5) : Prop :=
  ∃ sl d, s.slots[j]? = some sl ∧ 1 ≤ d.length ∧ d.length ≤ payloadMax ∧ d.length = sl.wr.toNat ∧
    Memory.readBytes sl.mem 0 d.length = some d ∧
    exec i s = .next { s with
      slots := s.slots.set j { sl with rd := 0#5 }
      ps := ps
      resp := some ⟨.ok, BitVec.ofNat 16 (256 * d.length + 8 * idx + (ck d).toNat)⟩ }

/-- Page `k` of a byte sequence cut into 31-byte pieces (R162). -/
def page (d : List Byte) (k : Nat) : List Byte := (d.drop (payloadMax * k)).take payloadMax

/-- `ceil(n / 31)`: how many pages `n` bytes make (R38, R162). -/
def pageCount (n : Nat) : Nat := (n + 30) / payloadMax

/-- The frames of a byte sequence, first page first, with indices `q-1, ..., 0` (R173). -/
def framesOf (d : List Byte) : List DataIn :=
  (List.range (pageCount d.length)).map fun k =>
    mk 0#1 (pageCount d.length - 1 - k) (page d k) :: page d k

/-- The outcome numbers of a page of `q` frames that arrives in order (R149): LAST_SINGLE alone, or NOT_LAST_FIRST,
NOT_LAST_MIDDLE as often as needed, LAST_MULTI. -/
def inOrderTags (q : Nat) : List Nat :=
  if q = 1 then [0] else 1 :: (List.replicate (q - 2) 2 ++ [3])

end Sys2Proof.Machine
end

