-- ==== Sys2Proof/Certificates/Slice0/Obligations.lean ====
section
/-! DEFINITION. The statements for the provers. Each docstring names the rule of the spec the statement formalises.

A statement about the engine's or the serial buffer's registers has the premise `s.Inv` (spec R37, R38): entry U7 has a
model "carry the invariants as a premise" and prove nothing from behaviour in other states. `InvariantHoldsAtReset`,
`StepKeepsInvariant` and `EveryRequestIsAnswered` say that the premise holds of every state a run reaches. Resets, which
are legal in every state, and the commands that touch no state have no such premise. -/

open Sys2Proof Sys2Proof.Machine

/-! ### The checksum unit -/

/-- R110 (the function) and R111 (the command). -/
def Obligations.CkMakeNegatesByteSum : Prop :=
  (∀ p : List Byte, (ck p).toNat = (8 - (p.map BitVec.toNat).sum % 8) % 8) ∧
  (∀ p : DataIn, decode ⟨0x10000000#32, p⟩ = .ok (.ckMake p)) ∧
  (∀ (s : State) (p : DataIn), p.length ≤ 31 →
    exec (.ckMake p) s =
      .next { s with resp := some ⟨.ok, BitVec.ofNat 16 ((8 - (p.map BitVec.toNat).sum % 8) % 8)⟩ }) ∧
  (∀ (s : State) (p : DataIn), 31 < p.length →
    exec (.ckMake p) s = .next { s with resp := some ⟨.badOperand, 0#16⟩ })

/-- R114. -/
def Obligations.CkVerifyComparesWithHeader : Prop :=
  (∀ f : DataIn, decode ⟨0x11000000#32, f⟩ = .ok (.ckVerify f)) ∧
  (∀ (s : State) (h : Byte) (p : List Byte), p.length ≤ 31 →
    exec (.ckVerify (h :: p)) s =
      .next { s with resp := some ⟨.ok, if (ck p).toNat = h.toNat % 8 then 1#16 else 0#16⟩ }) ∧
  (∀ s : State, exec (.ckVerify []) s = .next { s with resp := some ⟨.badOperand, 0#16⟩ }) ∧
  (∀ (s : State) (f : DataIn), 32 < f.length →
    exec (.ckVerify f) s = .next { s with resp := some ⟨.badOperand, 0#16⟩ })

/-- R112, laws 1 to 7. -/
def Obligations.ChecksumLaws : Prop :=
  (∀ p : List Byte, (ck p).toNat = (8 - (p.map fun v => (v &&& 7#8).toNat).sum % 8) % 8) ∧
  (∀ (p : List Byte) (w : Nat), 3 ≤ w → ck p = (-(BitVec.ofNat w (p.map BitVec.toNat).sum)).setWidth 3) ∧
  (∀ p : List Byte, ck p = BitVec.ofInt 3 (-(p.map BitVec.toInt).sum)) ∧
  (ck [] = 0#3) ∧
  (∀ p q : List Byte, p.Perm q → ck p = ck q) ∧
  (∀ p q : List Byte, (ck (p ++ q)).toNat = ((ck p).toNat + (ck q).toNat) % 8) ∧
  (∀ p : List Byte, ((p.map BitVec.toNat).sum + (ck p).toNat) % 8 = 0) ∧
  (∀ (p q : List Byte) (v : Byte), v.toNat % 8 = 0 → ck (p ++ v :: q) = ck (p ++ q)) ∧
  (∀ (p : List Byte) (k : Nat) (h : k < p.length) (v : Byte),
    ck (p.set k v) ≠ ck p ↔ ((v.toNat : Int) - (p[k].toNat : Int)) % 8 ≠ 0) ∧
  (∀ (p : List Byte) (k : Nat) (h : k < p.length), ck (p.set k (~~~p[k])) ≠ ck p) ∧
  (∀ (p : List Byte) (k : Nat) (h : k < p.length) (i : Nat), i < 8 →
    (ck (p.set k (p[k] ^^^ BitVec.twoPow 8 i)) ≠ ck p ↔ i < 3))

/-- R115: what BID_MAKE packs, CK_VERIFY accepts. -/
def Obligations.MadeHeaderVerifies : Prop :=
  ∀ (s : State) (st : BitVec 1) (ix : Nat) (p : List Byte), p.length ≤ 31 →
    exec (.ckVerify (mk st ix p :: p)) s = .next { s with resp := some ⟨.ok, 1#16⟩ }

/-! ### The Byte-ID codec -/

/-- R120 (the packer) and R121 (the command). -/
def Obligations.BidMakePacksFields : Prop :=
  (∀ (st : BitVec 1) (ix : Nat) (p : List Byte),
    (mk st ix p).toNat = ((st.toNat <<< 7) ||| ((ix &&& 0xF) <<< 3) ||| (ck p).toNat) ∧
    (mk st ix p).toNat = 128 * st.toNat + 8 * (ix % 16) + (ck p).toNat) ∧
  (∀ (st : BitVec 1) (ix : BitVec 16) (p : DataIn),
    decode ⟨0x20000000#32 ||| (st.setWidth 32 <<< 16) ||| ix.setWidth 32, p⟩ = .ok (.bidMake st ix p)) ∧
  (∀ (s : State) (st : BitVec 1) (ix : BitVec 16) (p : DataIn), p.length ≤ 31 →
    exec (.bidMake st ix p) s =
      .next { s with
        resp := some ⟨.ok, BitVec.ofNat 16 (128 * st.toNat + 8 * (ix.toNat % 16) + (ck p).toNat)⟩ }) ∧
  (∀ (s : State) (st : BitVec 1) (ix : BitVec 16) (p : DataIn), 31 < p.length →
    exec (.bidMake st ix p) s = .next { s with resp := some ⟨.badOperand, 0#16⟩ })

/-- R122, R123, R124. -/
def Obligations.BidAccessorsExtractFields : Prop :=
  (∀ (h : Byte) (d : DataIn), decode ⟨0x21000000#32 ||| h.setWidth 32, d⟩ = .ok (.bidStream h)) ∧
  (∀ (h : Byte) (d : DataIn), decode ⟨0x22000000#32 ||| h.setWidth 32, d⟩ = .ok (.bidIndex h)) ∧
  (∀ (h : Byte) (d : DataIn), decode ⟨0x23000000#32 ||| h.setWidth 32, d⟩ = .ok (.bidCk h)) ∧
  (∀ (s : State) (h : Byte),
    exec (.bidStream h) s = .next { s with resp := some ⟨.ok, if 0x80 ≤ h.toNat then 1#16 else 0#16⟩ }) ∧
  (∀ (s : State) (h : Byte),
    exec (.bidIndex h) s = .next { s with resp := some ⟨.ok, BitVec.ofNat 16 (h.toNat / 8 % 16)⟩ } ∧
    h.toNat / 8 % 16 = (h.toNat &&& 0x78) >>> 3) ∧
  (∀ (s : State) (h : Byte),
    exec (.bidCk h) s = .next { s with resp := some ⟨.ok, BitVec.ofNat 16 (h.toNat % 8)⟩ } ∧
    h.toNat % 8 = (h.toNat &&& 0x07))

/-- R125 and R126: packing and extracting are inverse, and the payload reaches the header only through its checksum. -/
def Obligations.HeaderRoundTrip : Prop :=
  (∀ (st : BitVec 1) (ix : Nat) (p : List Byte),
    hdrStream (mk st ix p) = st ∧ (hdrIndex (mk st ix p)).toNat = (ix &&& 0xF) ∧ hdrCk (mk st ix p) = ck p ∧
    (ix ≤ 15 → (hdrIndex (mk st ix p)).toNat = ix)) ∧
  (∀ h : Byte, h.toNat = ((hdrStream h).toNat <<< 7) ||| ((hdrIndex h).toNat <<< 3) ||| (hdrCk h).toNat) ∧
  (∀ (st : BitVec 1) (ix : Nat) (p q : List Byte), ck p = ck q → mk st ix p = mk st ix q) ∧
  (∀ (st : BitVec 1) (ix : Nat), ∃ p q : List Byte, p.length ≠ q.length ∧ mk st ix p = mk st ix q)

/-! ### The reassembly engine: the ten outcomes -/

/-- R134 and R135: outcomes 0 and 1. -/
def Obligations.EmptyBufferTakesFirstFrame : Prop :=
  ∀ (s : State) (h : Byte) (p : List Byte), s.Inv → 1 ≤ p.length → p.length ≤ 31 →
    (s.rb s.cur).got = false → (s.rb s.cur).wr.toNat = 0 →
    ∃ t, exec (.rbProcess (h :: p)) s = .next t ∧ StoredFrame s t s.cur 0 (hdrIndex h) p ∧
      t.cur = s.cur ∧ sameSerial s t ∧ sameHost s t ∧
      t.resp = some ⟨.ok, BitVec.ofNat 16 (16 * s.cur.bit.toNat + if (hdrIndex h).toNat = 0 then 0 else 1)⟩

/-- R136 and R137: outcomes 2 and 3. -/
def Obligations.GapOfOneAppends : Prop :=
  ∀ (s : State) (h : Byte) (p : List Byte), s.Inv → 1 ≤ p.length → p.length ≤ 31 →
    (s.rb s.cur).got = false → 0 < (s.rb s.cur).wr.toNat →
    (s.rb s.cur).exp.toNat = (hdrIndex h).toNat + 1 →
    ∃ t, exec (.rbProcess (h :: p)) s = .next t ∧
      StoredFrame s t s.cur (s.rb s.cur).wr.toNat (hdrIndex h) p ∧
      t.cur = s.cur ∧ sameSerial s t ∧ sameHost s t ∧
      t.resp = some ⟨.ok, BitVec.ofNat 16 (16 * s.cur.bit.toNat + if (hdrIndex h).toNat = 0 then 3 else 2)⟩

/-- R138: outcomes 4 and 5. -/
def Obligations.OtherGapResetsCurrentBuffer : Prop :=
  ∀ (s : State) (h : Byte) (p : List Byte), s.Inv → 1 ≤ p.length → p.length ≤ 31 →
    (s.rb s.cur).got = false → 0 < (s.rb s.cur).wr.toNat →
    (s.rb s.cur).exp.toNat ≠ (hdrIndex h).toNat + 1 →
    ∃ t, exec (.rbProcess (h :: p)) s = .next t ∧
      t.rb s.cur = { s.rb s.cur with wr := 0#9, exp := 0#4, got := false, fl := false } ∧
      t.rb (otherBuf s.cur) = s.rb (otherBuf s.cur) ∧
      t.cur = s.cur ∧ sameSerial s t ∧ sameHost s t ∧
      t.resp = some ⟨.ok, BitVec.ofNat 16 (16 * s.cur.bit.toNat + if (hdrIndex h).toNat = 0 then 5 else 4)⟩

/-- R139: outcomes 6 and 7, whether or not the complete buffer is flushing (conflict C2). -/
def Obligations.CompleteBufferSwitches : Prop :=
  ∀ (s : State) (h : Byte) (p : List Byte), s.Inv → 1 ≤ p.length → p.length ≤ 31 →
    (s.rb s.cur).got = true →
    (s.rb (otherBuf s.cur)).wr.toNat = 0 → (s.rb (otherBuf s.cur)).fl = false →
    ∃ t, exec (.rbProcess (h :: p)) s = .next t ∧ StoredFrame s t (otherBuf s.cur) 0 (hdrIndex h) p ∧
      t.rb s.cur = s.rb s.cur ∧ t.cur = otherBuf s.cur ∧ sameSerial s t ∧ sameHost s t ∧
      t.resp = some ⟨.ok, BitVec.ofNat 16
        (16 * (1 - s.cur.bit.toNat) + if (hdrIndex h).toNat = 0 then 6 else 7)⟩

/-- R140: outcomes 8 and 9. -/
def Obligations.BothBuffersBusyRejectsFrame : Prop :=
  ∀ (s : State) (h : Byte) (p : List Byte), s.Inv → 1 ≤ p.length → p.length ≤ 31 →
    (s.rb s.cur).got = true →
    0 < (s.rb (otherBuf s.cur)).wr.toNat ∨ (s.rb (otherBuf s.cur)).fl = true →
    exec (.rbProcess (h :: p)) s = .next { s with
      resp := some ⟨.ok, BitVec.ofNat 16
        (16 * s.cur.bit.toNat + if (hdrIndex h).toNat = 0 then 8 else 9)⟩ }

/-- R141 and the numbers of R201: every frame the engine judges gets one of ten tags and the selector after it; the
`_LAST` tags are those of index 0, a switch tag is the only one that moves the selector, a frame is stored exactly with
the pass tags, and the tag tells the class of the buffer that was current. -/
def Obligations.OutcomeTagSaysWhatHappened : Prop :=
  ∀ (s : State) (h : Byte) (p : List Byte), s.Inv → 1 ≤ p.length → p.length ≤ 31 →
    ∃ t tag, exec (.rbProcess (h :: p)) s = .next t ∧ tag ≤ 9 ∧
      t.resp = some ⟨.ok, BitVec.ofNat 16 (16 * t.cur.bit.toNat + tag)⟩ ∧
      ((hdrIndex h).toNat = 0 ↔ tag ∈ [0, 3, 5, 6, 8]) ∧
      (t.cur ≠ s.cur ↔ tag ∈ [6, 7]) ∧
      (tag ∈ [0, 1, 2, 3, 6, 7] ↔ (s.rb t.cur).wr.toNat < (t.rb t.cur).wr.toNat) ∧
      (tag ∈ [4, 5] ↔ (t.rb t.cur).wr.toNat < (s.rb t.cur).wr.toNat) ∧
      (tag ∈ [8, 9] → sameRadio s t) ∧
      (tag ∈ [0, 1] ↔ (s.rb s.cur).got = false ∧ (s.rb s.cur).wr.toNat = 0) ∧
      (tag ∈ [6, 7, 8, 9] ↔ (s.rb s.cur).got = true)

/-- R142. -/
def Obligations.RxFrameGatesThenProcesses : Prop :=
  (∀ f : DataIn, decode ⟨0x31000000#32, f⟩ = .ok (.rxFrame f)) ∧
  (∀ (s : State) (f : DataIn), s.Inv → f.length < 2 ∨ 32 < f.length →
    exec (.rxFrame f) s = .next { s with resp := some ⟨.badOperand, 0#16⟩ }) ∧
  (∀ (s : State) (h : Byte) (p : List Byte), s.Inv → 1 ≤ p.length → p.length ≤ 31 →
    ck p ≠ hdrCk h →
    exec (.rxFrame (h :: p)) s = .next { s with resp := some ⟨.badChecksum, 0#16⟩ }) ∧
  (∀ (s : State) (h : Byte) (p : List Byte), s.Inv → 1 ≤ p.length → p.length ≤ 31 →
    ck p = hdrCk h → 0x80 ≤ h.toNat →
    exec (.rxFrame (h :: p)) s =
      .next { s with resp := some ⟨.stream, BitVec.ofNat 16 (hdrIndex h).toNat⟩ }) ∧
  (∀ (s : State) (h : Byte) (p : List Byte), s.Inv → 1 ≤ p.length → p.length ≤ 31 →
    ck p = hdrCk h → h.toNat < 0x80 →
    ∃ t r, exec (.rxFrame (h :: p)) s = .next t ∧ exec (.rbProcess (h :: p)) s = .next t ∧
      t.resp = some ⟨.ok, r⟩)

/-! ### The reassembly engine: buffer management -/

/-- R143. -/
def Obligations.RbReadyTellsEmptyAndNotFlushing : Prop :=
  (∀ (b : BufId) (d : DataIn), decode ⟨0x32000000#32 ||| (b.bit.setWidth 32 <<< 16), d⟩ = .ok (.rbReady b)) ∧
  (∀ (s : State) (b : BufId), s.Inv →
    exec (.rbReady b) s = .next { s with
      resp := some ⟨.ok, if (s.rb b).wr.toNat = 0 ∧ (s.rb b).fl = false then 1#16 else 0#16⟩ })

/-- R144, with its corner case of two switches. -/
def Obligations.RbSwitchMovesOnlyTheSelector : Prop :=
  (∀ d : DataIn, decode ⟨0x33000000#32, d⟩ = .ok .rbSwitch) ∧
  (∀ s : State, s.Inv → (s.rb (otherBuf s.cur)).wr.toNat = 0 → (s.rb (otherBuf s.cur)).fl = false →
    exec .rbSwitch s = .next { s with
      cur := otherBuf s.cur
      resp := some ⟨.ok, BitVec.ofNat 16 (1 + 16 * (1 - s.cur.bit.toNat))⟩ }) ∧
  (∀ s : State, s.Inv → 0 < (s.rb (otherBuf s.cur)).wr.toNat ∨ (s.rb (otherBuf s.cur)).fl = true →
    exec .rbSwitch s = .next { s with resp := some ⟨.ok, BitVec.ofNat 16 (16 * s.cur.bit.toNat)⟩ }) ∧
  (∀ s t u : State, s.Inv → exec .rbSwitch s = .next t → exec .rbSwitch t = .next u →
    t.cur ≠ s.cur → u.cur ≠ t.cur → u.cur = s.cur)

/-- R145. -/
def Obligations.RbFlushBeginMarksCompleteBuffer : Prop :=
  (∀ (b : BufId) (d : DataIn), decode ⟨0x34000000#32 ||| (b.bit.setWidth 32 <<< 16), d⟩ = .ok (.rbFlushBegin b)) ∧
  (∀ (s : State) (b : BufId), s.Inv → (s.rb b).got = true → (s.rb b).fl = false →
    ∃ t, exec (.rbFlushBegin b) s = .next t ∧ t.rb b = { s.rb b with fl := true } ∧
      t.rb (otherBuf b) = s.rb (otherBuf b) ∧ t.cur = s.cur ∧ sameSerial s t ∧ sameHost s t ∧
      t.resp = some ⟨.ok, BitVec.ofNat 16 (s.rb b).wr.toNat⟩) ∧
  (∀ (s : State) (b : BufId), s.Inv → (s.rb b).got = false ∨ (s.rb b).fl = true →
    exec (.rbFlushBegin b) s = .next { s with resp := some ⟨.badState, 0#16⟩ })

/-- R146; legal in every state. -/
def Obligations.RbResetClearsOneBuffer : Prop :=
  (∀ (b : BufId) (d : DataIn), decode ⟨0x36000000#32 ||| (b.bit.setWidth 32 <<< 16), d⟩ = .ok (.rbReset b)) ∧
  (∀ (s : State) (b : BufId),
    ∃ t, exec (.rbReset b) s = .next t ∧
      t.rb b = { s.rb b with wr := 0#9, exp := 0#4, got := false, fl := false } ∧
      t.rb (otherBuf b) = s.rb (otherBuf b) ∧ t.cur = s.cur ∧ sameSerial s t ∧ sameHost s t ∧
      t.resp = some ⟨.ok, 0#16⟩)

/-- R147. -/
def Obligations.RbRdReadsBelowTheCursor : Prop :=
  (∀ (b : BufId) (a : BitVec 9) (d : DataIn),
    decode ⟨0x35000000#32 ||| (b.bit.setWidth 32 <<< 16) ||| a.setWidth 32, d⟩ = .ok (.rbRd b a)) ∧
  (∀ (s : State) (b : BufId) (a : BitVec 9), s.Inv → a.toNat < (s.rb b).wr.toNat →
    ∃ v, Memory.read (s.rb b).mem a.toNat = some v ∧
      exec (.rbRd b a) s = .next { s with resp := some ⟨.ok, BitVec.ofNat 16 v.toNat⟩ }) ∧
  (∀ (s : State) (b : BufId) (a : BitVec 9), s.Inv → (s.rb b).wr.toNat ≤ a.toNat →
    exec (.rbRd b a) s = .next { s with resp := some ⟨.badOperand, 0#16⟩ })

/-- R148. -/
def Obligations.RbStatShowsEveryField : Prop :=
  (∀ (b : BufId) (d : DataIn), decode ⟨0x37000000#32 ||| (b.bit.setWidth 32 <<< 16), d⟩ = .ok (.rbStat b)) ∧
  (∀ (s : State) (b : BufId), s.Inv →
    exec (.rbStat b) s = .next { s with
      resp := some ⟨.ok, BitVec.ofNat 16
        (((decide (s.cur = b)).toNat <<< 15) ||| ((s.rb b).fl.toNat <<< 14) ||| ((s.rb b).got.toNat <<< 13) |||
          ((s.rb b).exp.toNat <<< 9) ||| (s.rb b).wr.toNat)⟩ })

/-! ### The reassembly engine: laws -/

/-- R149: a page in order, first frame to last, leaves its payloads in arrival order in the current buffer. -/
def Obligations.InOrderFramesMakeThePage : Prop :=
  ∀ (s : State) (fs : List DataIn), s.Inv → (s.rb s.cur).isIn .empty → 1 ≤ fs.length → fs.length ≤ 16 →
    (∀ k, ∀ h : k < fs.length, 2 ≤ fs[k].length ∧ fs[k].length ≤ 32 ∧
      (hdrIndex (frameHeader fs[k])).toNat = fs.length - 1 - k) →
    ∃ t, runTrace (fs.map .rbProcess) s =
        some ((inOrderTags fs.length).map (fun g => ⟨.ok, BitVec.ofNat 16 (16 * s.cur.bit.toNat + g)⟩), t) ∧
      (t.rb s.cur).wr.toNat = (fs.flatMap framePayload).length ∧
      Memory.readBytes (t.rb s.cur).mem 0 (fs.flatMap framePayload).length = some (fs.flatMap framePayload) ∧
      (t.rb s.cur).got = true ∧ (t.rb s.cur).exp = 0#4 ∧
      t.rb (otherBuf s.cur) = s.rb (otherBuf s.cur) ∧ t.cur = s.cur ∧ sameSerial s t ∧ sameHost s t

/-- R151: unless `RB_SWITCH` is used, a buffer that is filling is the current one; it holds at reset and every other
command keeps it. -/
def Obligations.OnlyTheCurrentBufferFills : Prop :=
  (∀ (c : Config) (b : BufId), ((State.resetWith c).rb b).isIn .empty) ∧
  (∀ (s t : State) (i : Instr), s.Inv → i ≠ .rbSwitch →
    (∀ b, (s.rb b).isIn .filling → b = s.cur) → exec i s = .next t →
    ∀ b, (t.rb b).isIn .filling → b = t.cur)

/-- R37, second part: a buffer is in exactly one of four conditions, and one command moves it only along the cycle or
its shortcuts. -/
def Obligations.BufferMovesThroughItsConditions : Prop :=
  (∀ (s : State) (b : BufId), s.Inv → ∃ c, (s.rb b).isIn c ∧ ∀ c', (s.rb b).isIn c' → c' = c) ∧
  (∀ (s t : State) (i : Instr) (b : BufId) (c c' : Condition), s.Inv → exec i s = .next t →
    (s.rb b).isIn c → (t.rb b).isIn c' → Condition.mayMove c c' = true)

/-- R222, R26: frames never change a complete or flushing buffer, however many arrive. -/
def Obligations.FramesNeverTouchACompleteBuffer : Prop :=
  ∀ (s t : State) (is : List Instr) (b : BufId), s.Inv → (s.rb b).got = true →
    (∀ i ∈ is, Instr.isFrame i = true) → execList is s = .next t → t.rb b = s.rb b

/-- R94 (`DRAIN`) with R223: flush, read every offset, reset delivers the page in order and frees the buffer. -/
def Obligations.DrainDeliversThePage : Prop :=
  ∀ (s : State) (b : BufId), s.Inv → (s.rb b).isIn .complete →
    ∃ d t, Memory.readBytes (s.rb b).mem 0 (s.rb b).wr.toNat = some d ∧
      runTrace (.rbFlushBegin b ::
          ((List.range (s.rb b).wr.toNat).map (fun a => .rbRd b (BitVec.ofNat 9 a)) ++ [.rbReset b])) s =
        some (⟨.ok, BitVec.ofNat 16 (s.rb b).wr.toNat⟩ ::
          (d.map (fun v => ⟨.ok, BitVec.ofNat 16 v.toNat⟩) ++ [⟨.ok, 0#16⟩]), t) ∧
      (t.rb b).isIn .empty ∧ t.rb (otherBuf b) = s.rb (otherBuf b) ∧ t.cur = s.cur ∧ sameSerial s t

/-! ### The serial buffer -/

/-- R160, its three storing branches and the overflow. -/
def Obligations.SbPutStoresTheByteOrOverflows : Prop :=
  (∀ (v : Byte) (d : DataIn), decode ⟨0x40000000#32 ||| v.setWidth 32, d⟩ = .ok (.sbPut v)) ∧
  (∀ (s : State) (v : Byte), s.Inv → s.pq.toNat = 0 →
    ∃ t, exec (.sbPut v) s = .next t ∧ StoredByte s t 0 0 v ∧ t.pq.toNat = 1 ∧ t.ps = s.ps ∧
      sameRadio s t ∧ sameHost s t ∧ t.resp = some ⟨.ok, 0#16⟩) ∧
  (∀ (s : State) (v : Byte) (sl : Slot), s.Inv → 0 < s.pq.toNat → s.slots[s.pq.toNat - 1]? = some sl →
    sl.wr.toNat < 31 →
    ∃ t, exec (.sbPut v) s = .next t ∧ StoredByte s t (s.pq.toNat - 1) sl.wr.toNat v ∧ t.pq = s.pq ∧
      t.ps = s.ps ∧ sameRadio s t ∧ sameHost s t ∧ t.resp = some ⟨.ok, 0#16⟩) ∧
  (∀ (s : State) (v : Byte) (sl : Slot), s.Inv → 0 < s.pq.toNat → s.slots[s.pq.toNat - 1]? = some sl →
    sl.wr.toNat = 31 → s.pq.toNat < s.cfg.serialSlots →
    ∃ t, exec (.sbPut v) s = .next t ∧ StoredByte s t s.pq.toNat 0 v ∧ t.pq.toNat = s.pq.toNat + 1 ∧
      t.ps = s.ps ∧ sameRadio s t ∧ sameHost s t ∧ t.resp = some ⟨.ok, 0#16⟩) ∧
  (∀ (s : State) (v : Byte) (sl : Slot), s.Inv → s.pq.toNat = s.cfg.serialSlots →
    s.slots[s.pq.toNat - 1]? = some sl → sl.wr.toNat = 31 →
    exec (.sbPut v) s = .next { s with
      pq := 0#5
      ps := 0#5
      slots := s.slots.map (fun x => { x with wr := 0#5, rd := 0#5 })
      resp := some ⟨.overflow, 0#16⟩ })

/-- R161: the byte that finds every slot full empties the buffer and is dropped; the next byte starts again. -/
def Obligations.SbPutOverflowEmptiesTheBuffer : Prop :=
  ∀ (s : State) (v v' : Byte) (sl : Slot), s.Inv → s.pq.toNat = s.cfg.serialSlots →
    s.slots[s.pq.toNat - 1]? = some sl → sl.wr.toNat = 31 →
    ∃ t u, exec (.sbPut v) s = .next t ∧
      t = { s with
        pq := 0#5
        ps := 0#5
        slots := s.slots.map (fun x => { x with wr := 0#5, rd := 0#5 })
        resp := some ⟨.overflow, 0#16⟩ } ∧
      exec (.sbPut v') t = .next u ∧ StoredByte t u 0 0 v' ∧ u.pq.toNat = 1 ∧ u.resp = some ⟨.ok, 0#16⟩

/-- R164 with R163. -/
def Obligations.SbSendFirstFramesSlotZero : Prop :=
  (∀ d : DataIn, decode ⟨0x41000000#32, d⟩ = .ok .sbSendFirst) ∧
  (∀ s : State, s.Inv → 0 < s.pq.toNat → s.ps.toNat = 0 → SendsSlot .sbSendFirst s 0 (s.pq.toNat - 1) 1#5) ∧
  (∀ s : State, s.Inv → s.pq.toNat = 0 ∨ 0 < s.ps.toNat →
    exec .sbSendFirst s = .next { s with resp := some ⟨.badState, 0#16⟩ })

/-- R165 with R163. -/
def Obligations.SbSendNextFramesTheNextSlot : Prop :=
  (∀ d : DataIn, decode ⟨0x42000000#32, d⟩ = .ok .sbSendNext) ∧
  (∀ s : State, s.Inv → 1 ≤ s.ps.toNat → s.ps.toNat < s.pq.toNat →
    SendsSlot .sbSendNext s s.ps.toNat (s.pq.toNat - 1 - s.ps.toNat) (BitVec.ofNat 5 (s.ps.toNat + 1))) ∧
  (∀ s : State, s.Inv → s.ps.toNat = 0 ∨ s.ps.toNat = s.pq.toNat →
    exec .sbSendNext s = .next { s with resp := some ⟨.badState, 0#16⟩ })

/-- R166 with R163. -/
def Obligations.SbResendFramesTheTransmitSlot : Prop :=
  (∀ d : DataIn, decode ⟨0x43000000#32, d⟩ = .ok .sbResend) ∧
  (∀ s : State, s.Inv → 1 ≤ s.ps.toNat →
    SendsSlot .sbResend s (s.ps.toNat - 1) (s.pq.toNat - s.ps.toNat) s.ps) ∧
  (∀ s : State, s.Inv → s.ps.toNat = 0 →
    exec .sbResend s = .next { s with resp := some ⟨.badState, 0#16⟩ })

/-- R167; legal in every state. -/
def Obligations.SbRestartClearsPagesSent : Prop :=
  (∀ d : DataIn, decode ⟨0x44000000#32, d⟩ = .ok .sbRestart) ∧
  (∀ s : State, exec .sbRestart s = .next { s with ps := 0#5, resp := some ⟨.ok, 0#16⟩ })

/-- R168. -/
def Obligations.SbRdDeliversTheNextByte : Prop :=
  (∀ d : DataIn, decode ⟨0x45000000#32, d⟩ = .ok .sbRd) ∧
  (∀ s : State, s.Inv → s.ps.toNat = 0 → exec .sbRd s = .next { s with resp := some ⟨.badState, 0#16⟩ }) ∧
  (∀ (s : State) (sl : Slot), s.Inv → 1 ≤ s.ps.toNat → s.slots[s.ps.toNat - 1]? = some sl → sl.rd = sl.wr →
    exec .sbRd s = .next { s with resp := some ⟨.empty, 0#16⟩ }) ∧
  (∀ (s : State) (sl : Slot), s.Inv → 1 ≤ s.ps.toNat → s.slots[s.ps.toNat - 1]? = some sl → sl.rd ≠ sl.wr →
    ∃ v, Memory.read sl.mem sl.rd.toNat = some v ∧
      exec .sbRd s = .next { s with
        slots := s.slots.set (s.ps.toNat - 1) { sl with rd := BitVec.ofNat 5 (sl.rd.toNat + 1) }
        resp := some ⟨.ok, BitVec.ofNat 16 v.toNat⟩ })

/-- R169. -/
def Obligations.SbPendingComparesCounters : Prop :=
  (∀ d : DataIn, decode ⟨0x46000000#32, d⟩ = .ok .sbPending) ∧
  (∀ s : State, s.Inv → exec .sbPending s = .next { s with
    resp := some ⟨.ok, if s.ps.toNat < s.pq.toNat then 1#16 else 0#16⟩ })

/-- R170. -/
def Obligations.SbStatShowsCounters : Prop :=
  (∀ d : DataIn, decode ⟨0x47000000#32, d⟩ = .ok .sbStat) ∧
  (∀ s : State, s.Inv → exec .sbStat s = .next { s with
    resp := some ⟨.ok, BitVec.ofNat 16 ((s.ps.toNat <<< 8) ||| s.pq.toNat)⟩ })

/-- R171. -/
def Obligations.SbSlotShowsCursors : Prop :=
  (∀ (n : BitVec 4) (d : DataIn), decode ⟨0x48000000#32 ||| n.setWidth 32, d⟩ = .ok (.sbSlot n)) ∧
  (∀ (s : State) (n : BitVec 4), s.Inv → n.toNat < s.cfg.serialSlots →
    ∃ sl, s.slots[n.toNat]? = some sl ∧ exec (.sbSlot n) s = .next { s with
      resp := some ⟨.ok, BitVec.ofNat 16 ((sl.rd.toNat <<< 8) ||| sl.wr.toNat)⟩ }) ∧
  (∀ (s : State) (n : BitVec 4), s.Inv → s.cfg.serialSlots ≤ n.toNat →
    exec (.sbSlot n) s = .next { s with resp := some ⟨.badOperand, 0#16⟩ })

/-- R172; legal in every state. -/
def Obligations.SbResetEmptiesTheBuffer : Prop :=
  (∀ d : DataIn, decode ⟨0x49000000#32, d⟩ = .ok .sbReset) ∧
  (∀ s : State, exec .sbReset s = .next { s with
    pq := 0#5
    ps := 0#5
    slots := s.slots.map (fun x => { x with wr := 0#5, rd := 0#5 })
    resp := some ⟨.ok, 0#16⟩ })

/-- R162: ingest cuts the input into 31-byte pages in order. -/
def Obligations.IngestCutsTheInputIntoPages : Prop :=
  ∀ (s : State) (d : List Byte), s.Inv → s.pq.toNat = 0 → d.length ≤ 31 * s.cfg.serialSlots →
    ∃ t, runTrace (d.map .sbPut) s = some (List.replicate d.length ⟨.ok, 0#16⟩, t) ∧
      t.pq.toNat = pageCount d.length ∧ t.ps = s.ps ∧ sameRadio s t ∧ sameHost s t ∧
      ∀ k, k < s.cfg.serialSlots → ∃ sl, t.slots[k]? = some sl ∧ sl.wr.toNat = (page d k).length ∧
        Memory.readBytes sl.mem 0 (page d k).length = some (page d k)

/-- R168's corner case: after any of the three send commands, which frames slot `j`, `N` reads deliver exactly the
payload its header was computed over, and the next read says `EMPTY`. -/
def Obligations.ReadsAfterASendDeliverTheSlot : Prop :=
  ∀ (s : State) (i : Instr) (j : Nat), s.Inv →
    (i = .sbSendFirst ∧ 0 < s.pq.toNat ∧ s.ps.toNat = 0 ∧ j = 0) ∨
    (i = .sbSendNext ∧ 1 ≤ s.ps.toNat ∧ s.ps.toNat < s.pq.toNat ∧ j = s.ps.toNat) ∨
    (i = .sbResend ∧ 1 ≤ s.ps.toNat ∧ j + 1 = s.ps.toNat) →
    ∃ sl d t, s.slots[j]? = some sl ∧ 1 ≤ d.length ∧ Memory.readBytes sl.mem 0 sl.wr.toNat = some d ∧
      runTrace (i :: (List.replicate d.length .sbRd ++ [.sbRd])) s =
        some (⟨.ok, BitVec.ofNat 16 (256 * d.length + 8 * (s.pq.toNat - 1 - j) + (ck d).toNat)⟩ ::
          (d.map (fun v => ⟨.ok, BitVec.ofNat 16 v.toNat⟩) ++ [⟨.empty, 0#16⟩]), t) ∧
      t.pq = s.pq ∧ t.ps.toNat = j + 1 ∧ sameRadio s t ∧ sameHost s t

/-- R173: the whole transfer, from bytes in at the serial side to the same bytes in the page buffer. After the send
commands slot `k` holds page `k` of the input, so the frames handed to `RX_FRAME` are those whose headers the send
commands answered, each before the bytes of its slot (R163), which `ReadsAfterASendDeliverTheSlot` says the reads
deliver. -/
def Obligations.TransferDeliversTheBytes : Prop :=
  ∀ (s : State) (d : List Byte), s.Inv → s.pq.toNat = 0 → 1 ≤ d.length → d.length ≤ 31 * s.cfg.serialSlots →
    s.cur = .bufA → s.rb0.isIn .empty → s.rb1.isIn .empty →
    ∃ t u, runTrace (d.map .sbPut ++ (.sbSendFirst ::
          List.replicate (pageCount d.length) .sbSendNext)) s =
        some (List.replicate d.length ⟨.ok, 0#16⟩ ++
          ((List.range (pageCount d.length)).map (fun k => ⟨.ok, BitVec.ofNat 16
            (256 * (page d k).length + 8 * (pageCount d.length - 1 - k) + (ck (page d k)).toNat)⟩) ++
          [⟨.badState, 0#16⟩]), t) ∧
      (∀ k, k < pageCount d.length → ∃ sl, t.slots[k]? = some sl ∧ sl.wr.toNat = (page d k).length ∧
        Memory.readBytes sl.mem 0 (page d k).length = some (page d k) ∧
        (framesOf d)[k]? = some (mk 0#1 (pageCount d.length - 1 - k) (page d k) :: page d k)) ∧
      runTrace ((framesOf d).map .rxFrame) t =
        some ((inOrderTags (pageCount d.length)).map (fun g => ⟨.ok, BitVec.ofNat 16 g⟩), u) ∧
      u.rb0.wr.toNat = d.length ∧ Memory.readBytes u.rb0.mem 0 d.length = some d ∧ u.rb0.got = true

/-! ### System, reset -/

/-- R190: legal in every state, an invariant-breaking one included (R221), and equal to the three resets with the
selector. -/
def Obligations.SysResetClearsEveryRegister : Prop :=
  (∀ d : DataIn, decode ⟨0x01000000#32, d⟩ = .ok .sysReset) ∧
  (∀ s : State, exec .sysReset s = .next { s with
    cur := .bufA
    rb0 := { s.rb0 with wr := 0#9, exp := 0#4, got := false, fl := false }
    rb1 := { s.rb1 with wr := 0#9, exp := 0#4, got := false, fl := false }
    pq := 0#5
    ps := 0#5
    slots := s.slots.map (fun x => { x with wr := 0#5, rd := 0#5 })
    resp := some ⟨.ok, 0#16⟩ }) ∧
  (∀ s : State, ∃ t u, execList [.rbReset .bufA, .rbReset .bufB, .sbReset] s = .next t ∧
    exec .sysReset s = .next u ∧ u = { t with cur := .bufA }) ∧
  (∀ (s : State) (d : DataIn) (rest : List PortEvent), s.pending = .command ⟨0x01000000#32, d⟩ :: rest →
    step s = exec .sysReset { s with pending := rest })

/-- R39 and R220: the registers after a hardware reset, from any state and in the reset state, and after `SYS_RESET`,
which writes no memory; they satisfy R37 and R38. -/
def Obligations.BothResetsReachTheResetRegisters : Prop :=
  (∀ (s t : State), (∃ rest, s.pending = .resetInput :: rest ∧ step s = .next t) ∨ exec .sysReset s = .next t ∨
      t = State.reset →
    t.cur = .bufA ∧ (∀ b, (t.rb b).wr = 0#9 ∧ (t.rb b).exp = 0#4 ∧ (t.rb b).got = false ∧ (t.rb b).fl = false) ∧
    t.pq = 0#5 ∧ t.ps = 0#5 ∧ (∀ sl ∈ t.slots, sl.wr = 0#5 ∧ sl.rd = 0#5) ∧ t.regsOk) ∧
  (∀ (s : State) (rest : List PortEvent), s.pending = .resetInput :: rest →
    ∃ t, step s = .next t ∧ t.cfg = s.cfg ∧ t.slots.length = s.cfg.serialSlots) ∧
  (∀ s : State, ∃ t, exec .sysReset s = .next t ∧ t.rb0.mem = s.rb0.mem ∧ t.rb1.mem = s.rb1.mem ∧
    t.slots.map Slot.mem = s.slots.map Slot.mem) ∧
  State.reset.slots.length = 16

/-! ### Encoding -/

/-- R84, R85, R88, R92: encoding a command the port can present and decoding it gives the command back. -/
def Obligations.DecodeOfEncodeIsTheCommand : Prop :=
  ∀ i : Instr, i.wf = true → (encode i).wf = true ∧ decode (encode i) = .ok i

/-- R84, R85, R86: a decoded command encodes to the word it was decoded from, and to its `DIN` where the format
reads one. -/
def Obligations.EncodeOfDecodeIsTheWord : Prop :=
  ∀ (r : Request) (i : Instr), decode r = .ok i →
    (encode i).word = r.word ∧
    (encode i).din =
      if opcOf r.word ∈ [0x10#8, 0x11#8, 0x20#8, 0x30#8, 0x31#8] then r.din else []

/-- R89 and R85's membership test: the decoder accepts exactly the words of the opcode table, no word belongs to two
rows, and any other word is answered `ILLEGAL_CMD` with nothing changed. -/
def Obligations.WordsOutsideTheTableAreIllegal : Prop :=
  (∀ r : Request, (∃ i, decode r = .ok i) ↔ ∃ row ∈ specTable, r.word &&& row.2 = row.1) ∧
  specTable.Pairwise (fun x y => ∀ w : CommandWord, ¬ (w &&& x.2 = x.1 ∧ w &&& y.2 = y.1)) ∧
  (∀ (s : State) (r : Request) (rest : List PortEvent), s.Inv → s.pending = .command r :: rest →
    (∀ row ∈ specTable, r.word &&& row.2 ≠ row.1) →
    step s = .next { s with pending := rest, resp := some ⟨.illegalCmd, 0#16⟩ })

/-- Words of 95_test_vectors.md section 6 decode to the commands they stand for. -/
def Obligations.SampleWordsDecode : Prop :=
  decode ⟨0x40000041#32, []⟩ = .ok (.sbPut 0x41#8) ∧
  decode ⟨0x350101F0#32, []⟩ = .ok (.rbRd .bufB 0x1F0#9) ∧
  decode ⟨0x2001000F#32, [0xFF#8]⟩ = .ok (.bidMake 1#1 15#16 [0xFF#8]) ∧
  decode ⟨0x36010000#32, []⟩ = .ok (.rbReset .bufB) ∧
  decode ⟨0x48000002#32, []⟩ = .ok (.sbSlot 2#4) ∧
  decode ⟨0x37010000#32, []⟩ = .ok (.rbStat .bufB) ∧
  decode ⟨0x01000001#32, []⟩ = .error (.mustBeZero 0x01#8) ∧
  decode ⟨0x00000000#32, []⟩ = .error (.unknownOpcode 0x00#8)

/-- R86: `DIN` outside a command's range is `BAD_OPERAND`, and the formats that do not read `DIN` ignore it. -/
def Obligations.DinIsCheckedOrIgnored : Prop :=
  (∀ f : DataIn, decode ⟨0x30000000#32, f⟩ = .ok (.rbProcess f)) ∧
  (∀ (s : State) (st : BitVec 1) (ix : BitVec 16) (d : DataIn), 31 < d.length →
    exec (.ckMake d) s = .next { s with resp := some ⟨.badOperand, 0#16⟩ } ∧
    exec (.bidMake st ix d) s = .next { s with resp := some ⟨.badOperand, 0#16⟩ }) ∧
  (∀ (s : State) (d : DataIn), d.length < 1 ∨ 32 < d.length →
    exec (.ckVerify d) s = .next { s with resp := some ⟨.badOperand, 0#16⟩ }) ∧
  (∀ (s : State) (d : DataIn), d.length < 2 ∨ 32 < d.length →
    exec (.rbProcess d) s = .next { s with resp := some ⟨.badOperand, 0#16⟩ } ∧
    exec (.rxFrame d) s = .next { s with resp := some ⟨.badOperand, 0#16⟩ }) ∧
  (∀ (w : CommandWord) (d d' : DataIn), opcOf w ∉ [0x10#8, 0x11#8, 0x20#8, 0x30#8, 0x31#8] →
    decode ⟨w, d⟩ = decode ⟨w, d'⟩)

/-! ### The machine -/

/-- R90, R8: a step runs the command that the first request presented decodes to, on the state with that request taken
off; a table word presented by `withFetchWord` is that request. That a step with nothing presented changes nothing is
the model's choice (log entry 3). -/
def Obligations.StepRunsTheDecodedCommand : Prop :=
  (∀ (s : State) (r : Request) (i : Instr) (rest : List PortEvent), s.regsOk → s.pending = .command r :: rest →
    decode r = .ok i → step s = exec i { s with pending := rest }) ∧
  (∀ (s : State) (w : Nat) (i : Instr), s.regsOk → decodeTableWord 32 w = some i →
    step (s.withFetchWord 32 w) = exec i s) ∧
  (∀ s : State, s.pending = [] → step s = .next s)

/-- R39's "The reset state satisfies every invariant", for every configuration R7 allows. -/
def Obligations.InvariantHoldsAtReset : Prop :=
  State.reset.Inv ∧ ∀ c : Config, c.ok → (State.resetWith c).Inv

/-- R37, R38 preserved by every step, with the memories' canonical form and every byte below a cursor present (R69). -/
def Obligations.StepKeepsInvariant : Prop :=
  ∀ s t : State, s.Inv → step s = .next t → t.Inv

/-- R9: every request, whatever its word and `DIN`, is answered by a next state, with a completion status, or with a
refusing status, `RES` = 0 and no state change at all; never by a trap. -/
def Obligations.EveryRequestIsAnswered : Prop :=
  ∀ (s : State) (r : Request) (rest : List PortEvent), s.Inv → s.pending = .command r :: rest →
    ∃ t q, step s = .next t ∧ t.resp = some q ∧
      (q.status ∈ [.ok, .badChecksum, .stream, .overflow, .empty] ∨
        (q.status ∈ [.illegalCmd, .badOperand, .badState] ∧ q.res = 0#16 ∧
          t = { s with pending := rest, resp := some q }))

/-- R200 with R204 and R209: the numbers of the statuses, which command gives which status, and what each one says
about the state. -/
def Obligations.StatusSaysWhatHappened : Prop :=
  ([Status.ok, .illegalCmd, .badOperand, .badState, .badChecksum, .stream, .overflow, .empty].map
    (fun x => x.code.toNat) = [0, 1, 2, 3, 4, 5, 6, 7]) ∧
  (∀ (s : State) (r : Request) (e : DecodeError) (rest : List PortEvent), s.Inv →
    s.pending = .command r :: rest → decode r = .error e →
    step s = .next { s with pending := rest, resp := some ⟨.illegalCmd, 0#16⟩ }) ∧
  (∀ (s t : State) (i : Instr) (q : Response), s.Inv → exec i s = .next t → t.resp = some q →
    (q.status = .ok ∨ q.status ∈ i.alsoAnswers) ∧
    (q.status ∈ [.badOperand, .badState, .badChecksum, .stream, .empty] → t = { s with resp := some q }) ∧
    (q.status = .overflow → t = { s with
      pq := 0#5
      ps := 0#5
      slots := s.slots.map (fun x => { x with wr := 0#5, rd := 0#5 })
      resp := some ⟨.overflow, 0#16⟩ }))

/-- R40, columns "W": what a command that the table does not mark as a writer leaves unchanged. -/
def Obligations.OnlyListedCommandsWrite : Prop :=
  ∀ (s t : State) (i : Instr), s.Inv → exec i s = .next t →
    sameHost s t ∧
    (i.isFrame = false → i ≠ .rbSwitch → i ≠ .sysReset → t.cur = s.cur) ∧
    (∀ b, i.isFrame = false → i ≠ .rbReset b → i ≠ .sysReset →
      (t.rb b).wr = (s.rb b).wr ∧ (t.rb b).exp = (s.rb b).exp ∧ (t.rb b).got = (s.rb b).got) ∧
    (∀ b, i.isFrame = false → i ≠ .rbFlushBegin b → i ≠ .rbReset b → i ≠ .sysReset → (t.rb b).fl = (s.rb b).fl) ∧
    (∀ b, i.isFrame = true → (s.rb b).fl = (t.rb b).fl ∨ (t.rb b).fl = false) ∧
    (∀ b, i.isFrame = false → (t.rb b).mem = (s.rb b).mem) ∧
    ((∀ v, i ≠ .sbPut v) → i ≠ .sbReset → i ≠ .sysReset →
      t.pq = s.pq ∧ t.slots.map Slot.wr = s.slots.map Slot.wr) ∧
    ((∀ v, i ≠ .sbPut v) → i ≠ .sbSendFirst → i ≠ .sbSendNext → i ≠ .sbRestart → i ≠ .sbReset →
      i ≠ .sysReset → t.ps = s.ps) ∧
    ((∀ v, i ≠ .sbPut v) → i ≠ .sbSendFirst → i ≠ .sbSendNext → i ≠ .sbResend → i ≠ .sbRd → i ≠ .sbReset →
      i ≠ .sysReset → t.slots.map Slot.rd = s.slots.map Slot.rd) ∧
    ((∀ v, i ≠ .sbPut v) → t.slots.map Slot.mem = s.slots.map Slot.mem)

/-- R40's last sentence, reads included: in any run the engine's state is what the run without the serial buffer's
commands gives, and the serial buffer's state what the run without the engine's commands gives. -/
def Obligations.UnitsDoNotInterfere : Prop :=
  ∀ (s t : State) (is : List Instr), s.Inv → execList is s = .next t →
    ∃ u v, execList (is.filter (fun i => !i.isSerial)) s = .next u ∧
      execList (is.filter (fun i => !i.isRadio)) s = .next v ∧ sameRadio u t ∧ sameSerial v t

/-- R67: the commands it lists change no state and give the same answer if repeated; a delivering `SB_RD` moves its
read cursor. -/
def Obligations.ReadsAreIdempotentButSbRd : Prop :=
  (∀ (s : State) (i : Instr), s.Inv → i.isIdempotent = true →
    ∃ q, exec i s = .next { s with resp := some q } ∧
      exec i { s with resp := some q } = .next { s with resp := some q }) ∧
  (∀ (s t : State) (r : ResultWord) (sl : Slot), s.Inv → exec .sbRd s = .next t → t.resp = some ⟨.ok, r⟩ →
    s.slots[s.ps.toNat - 1]? = some sl →
    ∃ sl', t.slots[s.ps.toNat - 1]? = some sl' ∧ sl'.rd.toNat = sl.rd.toNat + 1)

/-- R33, R34: neither the last response nor what is still presented is an operand of a command. -/
def Obligations.ResponseAndQueueAreNoOperands : Prop :=
  (∀ (s : State) (i : Instr) (q : Option Response), exec i { s with resp := q } = exec i s) ∧
  (∀ (s t : State) (i : Instr) (l : List PortEvent), exec i s = .next t →
    exec i { s with pending := l } = .next { t with pending := l })

/-- R8, R66, R70: steps over the presented requests run the commands one after the other, in order, each on the whole
result of the one before. -/
def Obligations.StepsRunCommandsInOrder : Prop :=
  ∀ (s t : State) (is : List Instr), s.Inv → s.pending = [] → execList is s = .next t →
    Host.Core.run Sys2Proof.core is.length { s with pending := is.map (fun i => .command (encode i)) } = .next t
end

