-- ==== Sys2Proof/Laws/Codec.lean ====
section
/-! SUPPORT. The small laws of the operand forms: the fields of a packed word, the numbers behind a checksum, a header
and a result layout (spec R81, R84, R110, R120). -/

namespace Sys2Proof

/-! ### The constants of R6 -/

@[simp] theorem frameMax_eq : frameMax = 32 := rfl
@[simp] theorem payloadMax_eq : payloadMax = 31 := rfl
@[simp] theorem pageFramesMax_eq : pageFramesMax = 16 := rfl
@[simp] theorem lenPortMax_eq : lenPortMax = 63 := rfl

/-! ### Fields of the command word -/

@[simp] theorem BufId.ofBit_bit (b : BufId) : BufId.ofBit b.bit = b := by cases b <;> rfl

theorem BufId.bit_ofBit (x : BitVec 1) : (BufId.ofBit x).bit = x := by
  revert x; decide

/-- The bits of a packed word, field by field (R84). -/
theorem packWord_getLsbD (opc : BitVec 8) (b : BitVec 1) (arg : BitVec 16) (i : Nat) :
    (packWord opc b arg).getLsbD i =
      if i < 16 then arg.getLsbD i else if i < 17 then b.getLsbD (i - 16) else
        if i < 24 then false else opc.getLsbD (i - 24) := by
  simp only [packWord, BitVec.getLsbD_append]
  by_cases h1 : i < 16
  · simp [h1]
  · by_cases h2 : i < 17
    · simp [h1, h2, show i - 16 < 1 by omega]
    · by_cases h3 : i < 24
      · simp [h1, h2, h3, show ¬ (i - 16 < 1) by omega, show i - 16 - 1 < 7 by omega]
      · simp [h1, h2, h3, show ¬ (i - 16 < 1) by omega, show ¬ (i - 16 - 1 < 7) by omega,
          show i - 16 - 1 - 7 = i - 24 by omega]

@[simp] theorem opcOf_packWord (opc : BitVec 8) (b : BitVec 1) (arg : BitVec 16) :
    opcOf (packWord opc b arg) = opc := by
  ext i hi
  rw [opcOf, BitVec.getElem_extractLsb', packWord_getLsbD, if_neg (by omega), if_neg (by omega), if_neg (by omega),
    show 24 + i - 24 = i by omega, BitVec.getLsbD_eq_getElem hi]

@[simp] theorem bitB_packWord (opc : BitVec 8) (b : BitVec 1) (arg : BitVec 16) :
    bitB (packWord opc b arg) = b := by
  ext i hi
  rw [bitB, BitVec.getElem_extractLsb', packWord_getLsbD, if_neg (by omega), if_pos (by omega),
    show 16 + i - 16 = i by omega, BitVec.getLsbD_eq_getElem hi]

@[simp] theorem opIx_packWord (opc : BitVec 8) (b : BitVec 1) (arg : BitVec 16) :
    opIx (packWord opc b arg) = arg := by
  ext i hi
  rw [opIx, BitVec.getElem_extractLsb', packWord_getLsbD, if_pos (by omega), Nat.zero_add,
    BitVec.getLsbD_eq_getElem hi]

@[simp] theorem opV_packWord (opc : BitVec 8) (b : BitVec 1) (v : Byte) :
    opV (packWord opc b (v.setWidth 16)) = v := by
  ext i hi
  rw [opV, BitVec.getElem_extractLsb', packWord_getLsbD, if_pos (by omega), Nat.zero_add, BitVec.getLsbD_setWidth,
    BitVec.getLsbD_eq_getElem hi]
  simp [show i < 16 by omega]

@[simp] theorem opA_packWord (opc : BitVec 8) (b : BitVec 1) (a : BitVec 9) :
    opA (packWord opc b (a.setWidth 16)) = a := by
  ext i hi
  rw [opA, BitVec.getElem_extractLsb', packWord_getLsbD, if_pos (by omega), Nat.zero_add, BitVec.getLsbD_setWidth,
    BitVec.getLsbD_eq_getElem hi]
  simp [show i < 16 by omega]

@[simp] theorem opS_packWord (opc : BitVec 8) (b : BitVec 1) (n : BitVec 4) :
    opS (packWord opc b (n.setWidth 16)) = n := by
  ext i hi
  rw [opS, BitVec.getElem_extractLsb', packWord_getLsbD, if_pos (by omega), Nat.zero_add, BitVec.getLsbD_setWidth,
    BitVec.getLsbD_eq_getElem hi]
  simp [show i < 16 by omega]

@[simp] theorem opB_packWord (opc : BitVec 8) (b : BufId) (arg : BitVec 16) :
    opB (packWord opc b.bit arg) = b := by
  rw [opB, bitB_packWord, BufId.ofBit_bit]

/-! ### Must-be-zero bits (R85, R89): what a packed word of each format is under the format's mask -/

theorem packWord_mask_n (opc : BitVec 8) : packWord opc 0#1 0#16 &&& Format.mask .n = matchWord opc := by
  apply BitVec.eq_of_getLsbD_eq
  intro i hi
  rw [BitVec.getLsbD_and, packWord_getLsbD]
  interval_cases i <;> simp [Format.mask, matchWord]

theorem packWord_mask_v (opc : BitVec 8) : packWord opc 0#1 0#16 &&& Format.mask .v = matchWord opc :=
  packWord_mask_n opc

theorem packWord_mask_h (opc : BitVec 8) (v : Byte) :
    packWord opc 0#1 (v.setWidth 16) &&& Format.mask .h = matchWord opc := by
  apply BitVec.eq_of_getLsbD_eq
  intro i hi
  rw [BitVec.getLsbD_and, packWord_getLsbD]
  interval_cases i <;> simp [Format.mask, matchWord]

theorem packWord_mask_b (opc : BitVec 8) (b : BitVec 1) :
    packWord opc b 0#16 &&& Format.mask .b = matchWord opc := by
  apply BitVec.eq_of_getLsbD_eq
  intro i hi
  rw [BitVec.getLsbD_and, packWord_getLsbD]
  interval_cases i <;> simp [Format.mask, matchWord]

theorem packWord_mask_a (opc : BitVec 8) (b : BitVec 1) (a : BitVec 9) :
    packWord opc b (a.setWidth 16) &&& Format.mask .a = matchWord opc := by
  apply BitVec.eq_of_getLsbD_eq
  intro i hi
  rw [BitVec.getLsbD_and, packWord_getLsbD]
  interval_cases i <;> simp [Format.mask, matchWord]

theorem packWord_mask_s (opc : BitVec 8) (n : BitVec 4) :
    packWord opc 0#1 (n.setWidth 16) &&& Format.mask .s = matchWord opc := by
  apply BitVec.eq_of_getLsbD_eq
  intro i hi
  rw [BitVec.getLsbD_and, packWord_getLsbD]
  interval_cases i <;> simp [Format.mask, matchWord]

theorem packWord_mask_m (opc : BitVec 8) (b : BitVec 1) (arg : BitVec 16) :
    packWord opc b arg &&& Format.mask .m = matchWord opc := by
  apply BitVec.eq_of_getLsbD_eq
  intro i hi
  rw [BitVec.getLsbD_and, packWord_getLsbD]
  interval_cases i <;> simp [Format.mask, matchWord]

end Sys2Proof

namespace Sys2Proof.Machine

/-! ### The range of `LEN` -/

@[simp] theorem lenIn_iff {lo hi : Nat} {d : DataIn} : lenIn lo hi d = true ↔ lo ≤ d.length ∧ d.length ≤ hi := by
  simp [lenIn]

/-! ### The checksum -/

/-- The checksum as a number (R110, second form). -/
theorem ck_toNat (p : List Byte) : (ck p).toNat = (8 - byteSum p % 8) % 8 := by
  simp only [ck, BitVec.toNat_ofInt]
  omega

theorem ck_lt (p : List Byte) : (ck p).toNat < 8 := (ck p).isLt

@[simp] theorem byteSum_append (p q : List Byte) : byteSum (p ++ q) = byteSum p + byteSum q := by
  induction p with
  | nil => simp [byteSum]
  | cons v p ih => simp [byteSum, ih, Nat.add_assoc]

/-! ### The header -/

@[simp] theorem hdrStream_toNat (h : Byte) : (hdrStream h).toNat = h.toNat / 128 := by
  have := h.isLt
  simp only [hdrStream, BitVec.extractLsb'_toNat, Nat.shiftRight_eq_div_pow]
  omega

@[simp] theorem hdrIndex_toNat (h : Byte) : (hdrIndex h).toNat = h.toNat / 8 % 16 := by
  simp only [hdrIndex, BitVec.extractLsb'_toNat, Nat.shiftRight_eq_div_pow]

@[simp] theorem hdrCk_toNat (h : Byte) : (hdrCk h).toNat = h.toNat % 8 := by
  simp only [hdrCk, BitVec.extractLsb'_toNat, Nat.shiftRight_eq_div_pow]
  omega

/-- Appending bit vectors is arithmetic on their numbers. -/
theorem toNat_append_add {n m : Nat} (x : BitVec n) (y : BitVec m) : (x ++ y).toNat = x.toNat * 2 ^ m + y.toNat := by
  rw [BitVec.toNat_append, Nat.shiftLeft_eq, Nat.mul_comm, Nat.two_pow_add_eq_or_of_lt y.isLt]

/-- The header as a number (R120: the fields are disjoint, so `|` is `+`). -/
theorem mk_toNat (st : BitVec 1) (ix : Nat) (p : List Byte) :
    (mk st ix p).toNat = 128 * st.toNat + 8 * (ix % 16) + (ck p).toNat := by
  simp only [mk, toNat_append_add, BitVec.toNat_ofNat]
  omega

/-! ### Result layouts as numbers -/

theorem resOutcome_eq (cur : BufId) (tag : OutcomeTag) :
    resOutcome cur tag = BitVec.ofNat 16 (16 * cur.bit.toNat + tag.code.toNat) := by
  cases cur <;> cases tag <;> rfl

theorem resSwitch_eq (cur : BufId) (x : Bool) : resSwitch cur x = BitVec.ofNat 16 (16 * cur.bit.toNat + x.toNat) := by
  cases cur <;> cases x <;> rfl

theorem resPair_toNat (hi lo : BitVec 5) : (resPair hi lo).toNat = 256 * hi.toNat + lo.toNat := by
  simp only [resPair, toNat_append_add, BitVec.toNat_ofNat]
  omega

theorem resSend_toNat (n : BitVec 5) (hdr : Byte) : (resSend n hdr).toNat = 256 * n.toNat + hdr.toNat := by
  simp only [resSend, toNat_append_add, BitVec.toNat_ofNat]
  omega

theorem resStat_toNat (isCur : Bool) (r : RadioBuf) :
    (resStat isCur r).toNat =
      32768 * isCur.toNat + 16384 * r.fl.toNat + 8192 * r.got.toNat + 512 * r.exp.toNat + r.wr.toNat := by
  simp only [resStat, toNat_append_add, BitVec.toNat_ofBool]
  omega

end Sys2Proof.Machine
end

