-- ==== Sys2Proof/Laws/Memory.lean ====
section
/-! SUPPORT. The laws of the byte memories: a read after a write, the canonical form kept by every operation, and what
a sequence of writes and reads does (spec R13, R60, R69). -/

namespace Sys2Proof.Machine

@[simp] theorem Memory.read_nil (a : Nat) : Memory.read [] a = none := rfl

/-- Where a byte just written is read. -/
@[simp] theorem Memory.read_write_self (m : Memory) (a : Nat) (v : Byte) :
    Memory.read (Memory.write m a v) a = some v := by
  induction m with
  | nil => simp [Memory.write, Memory.read]
  | cons c m ih =>
    obtain ⟨k, w⟩ := c
    simp only [Memory.write]
    split
    · simp [Memory.read]
    · split
      · simp [Memory.read]
      · simp only [Memory.read]
        rw [if_neg (by omega), ih]

/-- A write leaves every other offset alone. -/
theorem Memory.read_write_other (m : Memory) {a x : Nat} (v : Byte) (h : x ≠ a) :
    Memory.read (Memory.write m a v) x = Memory.read m x := by
  induction m with
  | nil => simp [Memory.write, Memory.read, Ne.symm h]
  | cons c m ih =>
    obtain ⟨k, w⟩ := c
    simp only [Memory.write]
    split
    · simp [Memory.read, Ne.symm h]
    · split
      · subst_vars; simp [Memory.read, Ne.symm h]
      · simp only [Memory.read, ih]

/-- The offsets of a memory after a write. -/
theorem Memory.mem_write_fst {m : Memory} {a : Nat} {v : Byte} {c : Host.Cell} (h : c ∈ Memory.write m a v) :
    c.1 = a ∨ c ∈ m := by
  induction m with
  | nil => simp [Memory.write] at h; simp [h]
  | cons d m ih =>
    obtain ⟨k, w⟩ := d
    simp only [Memory.write] at h
    split at h
    · rcases List.mem_cons.1 h with h | h
      · left; rw [h]
      · exact .inr h
    · split at h
      · rcases List.mem_cons.1 h with h | h
        · left; rw [h]
        · exact .inr (List.mem_cons_of_mem _ h)
      · rcases List.mem_cons.1 h with h | h
        · right; rw [h]; exact List.mem_cons_self
        · rcases ih h with h | h
          · exact .inl h
          · exact .inr (List.mem_cons_of_mem _ h)

/-- A write keeps the canonical form. -/
theorem Memory.wf_write {m : Memory} (h : Memory.wf m) (a : Nat) (v : Byte) : Memory.wf (Memory.write m a v) := by
  induction m with
  | nil => simp [Memory.wf, Memory.write]
  | cons d m ih =>
    obtain ⟨k, w⟩ := d
    simp only [Memory.wf, List.map_cons, List.pairwise_cons, List.mem_map] at h ih ⊢
    obtain ⟨h1, h2⟩ := h
    simp only [Memory.write]
    split
    · rename_i hlt
      simp only [List.map_cons, List.pairwise_cons, List.mem_cons, List.mem_map]
      refine ⟨?_, ?_, h2⟩
      · rintro x (rfl | ⟨c, hc, rfl⟩)
        · exact hlt
        · exact Nat.lt_trans hlt (h1 _ ⟨c, hc, rfl⟩)
      · rintro x ⟨c, hc, rfl⟩; exact h1 _ ⟨c, hc, rfl⟩
    · split
      · subst_vars
        simp only [List.map_cons, List.pairwise_cons, List.mem_map]
        exact ⟨h1, h2⟩
      · simp only [List.map_cons, List.pairwise_cons, List.mem_map]
        refine ⟨?_, ih h2⟩
        rintro x ⟨c, hc, rfl⟩
        rcases Memory.mem_write_fst hc with h | h
        · omega
        · exact h1 _ ⟨c, h, rfl⟩

/-- A sequence of writes keeps the canonical form. -/
theorem Memory.wf_writeBytes {m : Memory} (h : Memory.wf m) (base : Nat) (p : List Byte) :
    Memory.wf (Memory.writeBytes m base p) := by
  induction p generalizing m base with
  | nil => exact h
  | cons v p ih => exact ih (Memory.wf_write h base v) (base + 1)

/-- A sequence of writes inside a size stays inside it. -/
theorem Memory.writeBytes_inside {m : Memory} {size base : Nat} {p : List Byte} (h : ∀ c ∈ m, c.1 < size)
    (hp : base + p.length ≤ size) : ∀ c ∈ Memory.writeBytes m base p, c.1 < size := by
  induction p generalizing m base with
  | nil => exact h
  | cons v p ih =>
    simp only [List.length_cons] at hp
    refine ih (fun c hc => ?_) (by omega)
    rcases Memory.mem_write_fst hc with h' | h'
    · omega
    · exact h c h'

/-- A sequence of writes leaves every offset outside it alone. -/
theorem Memory.read_writeBytes_outside (m : Memory) (base : Nat) (p : List Byte) (a : Nat)
    (h : a < base ∨ base + p.length ≤ a) : Memory.read (Memory.writeBytes m base p) a = Memory.read m a := by
  induction p generalizing m base with
  | nil => rfl
  | cons v p ih =>
    simp only [List.length_cons] at h
    rw [Memory.writeBytes, ih _ _ (by omega), Memory.read_write_other _ _ (by omega)]

/-- A sequence of writes puts its bytes at rising offsets. -/
theorem Memory.read_writeBytes_inside (m : Memory) (base : Nat) (p : List Byte) (k : Nat) (h : k < p.length) :
    Memory.read (Memory.writeBytes m base p) (base + k) = some p[k] := by
  induction p generalizing m base k with
  | nil => simp at h
  | cons v p ih =>
    rw [Memory.writeBytes]
    cases k with
    | zero =>
      rw [Memory.read_writeBytes_outside _ _ _ _ (by omega), Nat.add_zero, Memory.read_write_self]
      rfl
    | succ k =>
      have := ih (Memory.write m base v) (base + 1) k (by simpa using h)
      rw [show base + (k + 1) = base + 1 + k by omega, this]
      rfl

/-- A range is readable exactly when each of its bytes is. -/
theorem Memory.readBytes_eq_some {m : Memory} {base n : Nat} {p : List Byte} :
    Memory.readBytes m base n = some p ↔
      p.length = n ∧ ∀ k, ∀ h : k < p.length, Memory.read m (base + k) = some p[k] := by
  induction n generalizing base p with
  | zero =>
    simp only [Memory.readBytes, Option.some.injEq]
    constructor
    · rintro rfl; simp
    · rintro ⟨h, _⟩; exact (List.length_eq_zero_iff.1 h).symm
  | succ n ih =>
    simp only [Memory.readBytes]
    cases p with
    | nil =>
      simp only [List.length_nil]
      constructor
      · intro h; split at h <;> simp at h
      · rintro ⟨h, _⟩; omega
    | cons v p =>
      constructor
      · intro h
        split at h
        · rename_i w q hw hq
          simp only [Option.some.injEq, List.cons.injEq] at h
          obtain ⟨rfl, rfl⟩ := h
          obtain ⟨hl, hk⟩ := ih.1 hq
          refine ⟨by simp [hl], fun k hlt => ?_⟩
          cases k with
          | zero => simpa using hw
          | succ k =>
            have := hk k (by simpa using hlt)
            simpa [Nat.add_assoc, Nat.add_comm 1] using this
        · simp at h
      · rintro ⟨hl, hk⟩
        have h0 := hk 0 (by simp)
        have hq : Memory.readBytes m (base + 1) n = some p := by
          refine ih.2 ⟨by simpa using hl, fun k hlt => ?_⟩
          have := hk (k + 1) (by simpa using hlt)
          simpa [Nat.add_assoc, Nat.add_comm 1] using this
        simp only [Nat.add_zero, List.getElem_cons_zero] at h0
        rw [h0, hq]

/-- A range whose bytes are all present can be read, and has its length. -/
theorem Memory.readBytes_of_present {m : Memory} {base n : Nat}
    (h : ∀ k, k < n → (Memory.read m (base + k)).isSome = true) :
    ∃ p, Memory.readBytes m base n = some p ∧ p.length = n := by
  induction n generalizing base with
  | zero => exact ⟨[], rfl, rfl⟩
  | succ n ih =>
    obtain ⟨p, hp, hl⟩ := ih (base := base + 1) (fun k hk => by
      simpa [Nat.add_assoc, Nat.add_comm 1] using h (k + 1) (by omega))
    obtain ⟨v, hv⟩ := Option.isSome_iff_exists.1 (h 0 (by omega))
    exact ⟨v :: p, by simp only [Memory.readBytes, Nat.add_zero] at hv ⊢; rw [hv, hp], by simp [hl]⟩

/-- What is read after a write of the same range. -/
theorem Memory.readBytes_writeBytes (m : Memory) (base : Nat) (p : List Byte) :
    Memory.readBytes (Memory.writeBytes m base p) base p.length = some p :=
  Memory.readBytes_eq_some.2 ⟨rfl, fun k h => Memory.read_writeBytes_inside m base p k h⟩

end Sys2Proof.Machine
end

