-- ==== Sys2Proof/Laws/State.lean ====
section
/-! SUPPORT. One lemma per field of State per update, and the laws of the register accessors, so that no later proof
unfolds a record update. -/

namespace Sys2Proof.Machine

variable (s : State)

/-! ### setCur -/

@[simp] theorem State.setCur_cfg (b : BufId) : (s.setCur b).cfg = s.cfg := rfl
@[simp] theorem State.setCur_cur (b : BufId) : (s.setCur b).cur = b := rfl
@[simp] theorem State.setCur_rb0 (b : BufId) : (s.setCur b).rb0 = s.rb0 := rfl
@[simp] theorem State.setCur_rb1 (b : BufId) : (s.setCur b).rb1 = s.rb1 := rfl
@[simp] theorem State.setCur_pq (b : BufId) : (s.setCur b).pq = s.pq := rfl
@[simp] theorem State.setCur_ps (b : BufId) : (s.setCur b).ps = s.ps := rfl
@[simp] theorem State.setCur_slots (b : BufId) : (s.setCur b).slots = s.slots := rfl
@[simp] theorem State.setCur_pending (b : BufId) : (s.setCur b).pending = s.pending := rfl
@[simp] theorem State.setCur_resp (b : BufId) : (s.setCur b).resp = s.resp := rfl
@[simp] theorem State.setCur_rb (b : BufId) (c : BufId) : (s.setCur b).rb c = s.rb c := by cases c <;> rfl

/-! ### setPq -/

@[simp] theorem State.setPq_cfg (x : BitVec 5) : (s.setPq x).cfg = s.cfg := rfl
@[simp] theorem State.setPq_cur (x : BitVec 5) : (s.setPq x).cur = s.cur := rfl
@[simp] theorem State.setPq_rb0 (x : BitVec 5) : (s.setPq x).rb0 = s.rb0 := rfl
@[simp] theorem State.setPq_rb1 (x : BitVec 5) : (s.setPq x).rb1 = s.rb1 := rfl
@[simp] theorem State.setPq_pq (x : BitVec 5) : (s.setPq x).pq = x := rfl
@[simp] theorem State.setPq_ps (x : BitVec 5) : (s.setPq x).ps = s.ps := rfl
@[simp] theorem State.setPq_slots (x : BitVec 5) : (s.setPq x).slots = s.slots := rfl
@[simp] theorem State.setPq_pending (x : BitVec 5) : (s.setPq x).pending = s.pending := rfl
@[simp] theorem State.setPq_resp (x : BitVec 5) : (s.setPq x).resp = s.resp := rfl
@[simp] theorem State.setPq_rb (x : BitVec 5) (c : BufId) : (s.setPq x).rb c = s.rb c := by cases c <;> rfl

/-! ### setPs -/

@[simp] theorem State.setPs_cfg (x : BitVec 5) : (s.setPs x).cfg = s.cfg := rfl
@[simp] theorem State.setPs_cur (x : BitVec 5) : (s.setPs x).cur = s.cur := rfl
@[simp] theorem State.setPs_rb0 (x : BitVec 5) : (s.setPs x).rb0 = s.rb0 := rfl
@[simp] theorem State.setPs_rb1 (x : BitVec 5) : (s.setPs x).rb1 = s.rb1 := rfl
@[simp] theorem State.setPs_pq (x : BitVec 5) : (s.setPs x).pq = s.pq := rfl
@[simp] theorem State.setPs_ps (x : BitVec 5) : (s.setPs x).ps = x := rfl
@[simp] theorem State.setPs_slots (x : BitVec 5) : (s.setPs x).slots = s.slots := rfl
@[simp] theorem State.setPs_pending (x : BitVec 5) : (s.setPs x).pending = s.pending := rfl
@[simp] theorem State.setPs_resp (x : BitVec 5) : (s.setPs x).resp = s.resp := rfl
@[simp] theorem State.setPs_rb (x : BitVec 5) (c : BufId) : (s.setPs x).rb c = s.rb c := by cases c <;> rfl

/-! ### setSlot -/

@[simp] theorem State.setSlot_cfg (t : Nat) (sl : Slot) : (s.setSlot t sl).cfg = s.cfg := rfl
@[simp] theorem State.setSlot_cur (t : Nat) (sl : Slot) : (s.setSlot t sl).cur = s.cur := rfl
@[simp] theorem State.setSlot_rb0 (t : Nat) (sl : Slot) : (s.setSlot t sl).rb0 = s.rb0 := rfl
@[simp] theorem State.setSlot_rb1 (t : Nat) (sl : Slot) : (s.setSlot t sl).rb1 = s.rb1 := rfl
@[simp] theorem State.setSlot_pq (t : Nat) (sl : Slot) : (s.setSlot t sl).pq = s.pq := rfl
@[simp] theorem State.setSlot_ps (t : Nat) (sl : Slot) : (s.setSlot t sl).ps = s.ps := rfl
@[simp] theorem State.setSlot_slots (t : Nat) (sl : Slot) : (s.setSlot t sl).slots = s.slots.set t sl := rfl
@[simp] theorem State.setSlot_pending (t : Nat) (sl : Slot) : (s.setSlot t sl).pending = s.pending := rfl
@[simp] theorem State.setSlot_resp (t : Nat) (sl : Slot) : (s.setSlot t sl).resp = s.resp := rfl
@[simp] theorem State.setSlot_rb (t : Nat) (sl : Slot) (c : BufId) : (s.setSlot t sl).rb c = s.rb c := by
  cases c <;> rfl

/-! ### respond -/

@[simp] theorem State.respond_cfg (st : Status) (r : ResultWord) : (s.respond st r).cfg = s.cfg := rfl
@[simp] theorem State.respond_cur (st : Status) (r : ResultWord) : (s.respond st r).cur = s.cur := rfl
@[simp] theorem State.respond_rb0 (st : Status) (r : ResultWord) : (s.respond st r).rb0 = s.rb0 := rfl
@[simp] theorem State.respond_rb1 (st : Status) (r : ResultWord) : (s.respond st r).rb1 = s.rb1 := rfl
@[simp] theorem State.respond_pq (st : Status) (r : ResultWord) : (s.respond st r).pq = s.pq := rfl
@[simp] theorem State.respond_ps (st : Status) (r : ResultWord) : (s.respond st r).ps = s.ps := rfl
@[simp] theorem State.respond_slots (st : Status) (r : ResultWord) : (s.respond st r).slots = s.slots := rfl
@[simp] theorem State.respond_pending (st : Status) (r : ResultWord) : (s.respond st r).pending = s.pending := rfl
@[simp] theorem State.respond_resp (st : Status) (r : ResultWord) : (s.respond st r).resp = some ⟨st, r⟩ := rfl
@[simp] theorem State.respond_rb (st : Status) (r : ResultWord) (c : BufId) : (s.respond st r).rb c = s.rb c := by
  cases c <;> rfl

/-! ### clearSb -/

@[simp] theorem State.clearSb_cfg : s.clearSb.cfg = s.cfg := rfl
@[simp] theorem State.clearSb_cur : s.clearSb.cur = s.cur := rfl
@[simp] theorem State.clearSb_rb0 : s.clearSb.rb0 = s.rb0 := rfl
@[simp] theorem State.clearSb_rb1 : s.clearSb.rb1 = s.rb1 := rfl
@[simp] theorem State.clearSb_pq : s.clearSb.pq = 0#5 := rfl
@[simp] theorem State.clearSb_ps : s.clearSb.ps = 0#5 := rfl
@[simp] theorem State.clearSb_slots : s.clearSb.slots = s.slots.map Slot.cleared := rfl
@[simp] theorem State.clearSb_pending : s.clearSb.pending = s.pending := rfl
@[simp] theorem State.clearSb_resp : s.clearSb.resp = s.resp := rfl
@[simp] theorem State.clearSb_rb (c : BufId) : s.clearSb.rb c = s.rb c := by cases c <;> rfl

/-! ### setRb and clearRb -/

@[simp] theorem State.setRb_cfg (b : BufId) (r : RadioBuf) : (s.setRb b r).cfg = s.cfg := by cases b <;> rfl
@[simp] theorem State.setRb_cur (b : BufId) (r : RadioBuf) : (s.setRb b r).cur = s.cur := by cases b <;> rfl
@[simp] theorem State.setRb_pq (b : BufId) (r : RadioBuf) : (s.setRb b r).pq = s.pq := by cases b <;> rfl
@[simp] theorem State.setRb_ps (b : BufId) (r : RadioBuf) : (s.setRb b r).ps = s.ps := by cases b <;> rfl
@[simp] theorem State.setRb_slots (b : BufId) (r : RadioBuf) : (s.setRb b r).slots = s.slots := by cases b <;> rfl
@[simp] theorem State.setRb_pending (b : BufId) (r : RadioBuf) : (s.setRb b r).pending = s.pending := by cases b <;> rfl
@[simp] theorem State.setRb_resp (b : BufId) (r : RadioBuf) : (s.setRb b r).resp = s.resp := by cases b <;> rfl

@[simp] theorem State.clearRb_cfg (b : BufId) : (s.clearRb b).cfg = s.cfg := by cases b <;> rfl
@[simp] theorem State.clearRb_cur (b : BufId) : (s.clearRb b).cur = s.cur := by cases b <;> rfl
@[simp] theorem State.clearRb_pq (b : BufId) : (s.clearRb b).pq = s.pq := by cases b <;> rfl
@[simp] theorem State.clearRb_ps (b : BufId) : (s.clearRb b).ps = s.ps := by cases b <;> rfl
@[simp] theorem State.clearRb_slots (b : BufId) : (s.clearRb b).slots = s.slots := by cases b <;> rfl
@[simp] theorem State.clearRb_pending (b : BufId) : (s.clearRb b).pending = s.pending := by cases b <;> rfl
@[simp] theorem State.clearRb_resp (b : BufId) : (s.clearRb b).resp = s.resp := by cases b <;> rfl

@[simp] theorem State.rb_bufA : s.rb .bufA = s.rb0 := rfl
@[simp] theorem State.rb_bufB : s.rb .bufB = s.rb1 := rfl
@[simp] theorem State.setRb_rb_self (b : BufId) (r : RadioBuf) : (s.setRb b r).rb b = r := by cases b <;> rfl
@[simp] theorem State.setRb_rb_other (b : BufId) (r : RadioBuf) :
    (s.setRb b r).rb (otherBuf b) = s.rb (otherBuf b) := by cases b <;> rfl
@[simp] theorem State.setRb_other_rb (b : BufId) (r : RadioBuf) : (s.setRb (otherBuf b) r).rb b = s.rb b := by
  cases b <;> rfl
theorem State.setRb_rb (b c : BufId) (r : RadioBuf) : (s.setRb b r).rb c = if c = b then r else s.rb c := by
  cases b <;> cases c <;> rfl
@[simp] theorem State.clearRb_rb_self (b : BufId) : (s.clearRb b).rb b = (s.rb b).cleared := by cases b <;> rfl
@[simp] theorem State.clearRb_rb_other (b : BufId) : (s.clearRb b).rb (otherBuf b) = s.rb (otherBuf b) := by
  cases b <;> rfl
theorem State.clearRb_rb (b c : BufId) : (s.clearRb b).rb c = if c = b then (s.rb c).cleared else s.rb c := by
  cases b <;> cases c <;> rfl

@[simp] theorem RadioBuf.cleared_wr (r : RadioBuf) : r.cleared.wr = 0#9 := rfl
@[simp] theorem RadioBuf.cleared_exp (r : RadioBuf) : r.cleared.exp = 0#4 := rfl
@[simp] theorem RadioBuf.cleared_got (r : RadioBuf) : r.cleared.got = false := rfl
@[simp] theorem RadioBuf.cleared_fl (r : RadioBuf) : r.cleared.fl = false := rfl
@[simp] theorem RadioBuf.cleared_mem (r : RadioBuf) : r.cleared.mem = r.mem := rfl
@[simp] theorem Slot.cleared_wr (sl : Slot) : sl.cleared.wr = 0#5 := rfl
@[simp] theorem Slot.cleared_rd (sl : Slot) : sl.cleared.rd = 0#5 := rfl
@[simp] theorem Slot.cleared_mem (sl : Slot) : sl.cleared.mem = sl.mem := rfl

@[simp] theorem otherBuf_otherBuf (b : BufId) : otherBuf (otherBuf b) = b := by cases b <;> rfl
@[simp] theorem otherBuf_ne (b : BufId) : otherBuf b ≠ b := by cases b <;> decide
theorem eq_otherBuf_of_ne {b c : BufId} (h : c ≠ b) : c = otherBuf b := by
  cases b <;> cases c <;> first | rfl | exact absurd rfl h

/-- Two states with the same fields are the same state. -/
theorem State.ext_fields {s t : State} (h1 : s.cfg = t.cfg) (h2 : s.cur = t.cur) (h3 : s.rb0 = t.rb0)
    (h4 : s.rb1 = t.rb1) (h5 : s.pq = t.pq) (h6 : s.ps = t.ps) (h7 : s.slots = t.slots)
    (h8 : s.pending = t.pending) (h9 : s.resp = t.resp) : s = t := by
  cases s; cases t; simp_all

end Sys2Proof.Machine
end

