-- ==== Sys2Proof/Laws/Ops.lean ====
section
/-! SUPPORT. For each shared operation one lemma that says everything it can do, and what it does in a state that
satisfies the invariant. -/

namespace Sys2Proof.Machine

/-! ### Responses -/

@[simp] theorem answer_next {s t : State} {st : Status} {r : ResultWord} :
    answer s st r = .next t ↔ t = s.respond st r := by
  simp [answer, eq_comm]

@[simp] theorem refuse_eq (s : State) (st : Status) : refuse s st = answer s st 0#16 := rfl

@[simp] theorem answer_ne_fault {s : State} {st : Status} {r : ResultWord} {f : Fault} :
    answer s st r ≠ .fault f := by simp [answer]

@[simp] theorem answer_ne_refused {s : State} {st : Status} {r : ResultWord} {f : Refusal} :
    answer s st r ≠ .refused f := by simp [answer]

/-! ### Memory accesses -/

theorem load_ok {size a : Nat} {m : Memory} {v : Byte} :
    load size m a = .ok v ↔ a < size ∧ Memory.read m a = some v := by
  unfold load
  by_cases h : a < size
  · simp only [h, if_true, true_and]
    cases Memory.read m a <;> simp
  · simp [h]

theorem loadBytes_ok {size n : Nat} {m : Memory} {p : List Byte} :
    loadBytes size m n = .ok p ↔ n ≤ size ∧ Memory.readBytes m 0 n = some p := by
  unfold loadBytes
  by_cases h : n ≤ size
  · simp only [h, if_true, true_and]
    cases Memory.readBytes m 0 n <;> simp
  · simp [h]

theorem store_ok {size base : Nat} {m m' : Memory} {p : List Byte} :
    store size m base p = .ok m' ↔ base + p.length ≤ size ∧ m' = Memory.writeBytes m base p := by
  unfold store
  by_cases h : base + p.length ≤ size
  · simp [h, eq_comm]
  · simp [h]

theorem slotAt_ok {s : State} {t : Nat} {sl : Slot} : slotAt s t = .ok sl ↔ s.slots[t]? = some sl := by
  unfold slotAt
  cases s.slots[t]? <;> simp

/-! ### The engine's stores -/

/-- A buffer after a payload is stored at `base` (R131, R132). -/
def RadioBuf.stored (r : RadioBuf) (base : Nat) (idx : BitVec 4) (p : List Byte) : RadioBuf :=
  { r with mem := Memory.writeBytes r.mem base p, wr := BitVec.ofNat 9 (base + p.length), exp := idx,
           got := decide (idx = 0#4) }

theorem storePayload_ok {s t : State} {b : BufId} {base : Nat} {idx : BitVec 4} {p : List Byte} :
    storePayload s b base idx p = .ok t ↔
      base + p.length ≤ s.cfg.radioBufBytes ∧ t = s.setRb b ((s.rb b).stored base idx p) := by
  unfold storePayload store
  by_cases h : base + p.length ≤ s.cfg.radioBufBytes
  · simp only [h, if_true, Except.ok.injEq, true_and]
    exact ⟨fun e => e.symm, fun e => e.symm⟩
  · simp [h]

/-- What a store leaves in a buffer: every field, every byte (R131, R132). -/
theorem RadioBuf.stored_spec (r : RadioBuf) {base : Nat} (idx : BitVec 4) {p : List Byte}
    (h : base + p.length < 512) :
    (r.stored base idx p).wr.toNat = base + p.length ∧ (r.stored base idx p).exp = idx ∧
    (r.stored base idx p).got = decide (idx.toNat = 0) ∧ (r.stored base idx p).fl = r.fl ∧
    (∀ k, ∀ hk : k < p.length, Memory.read (r.stored base idx p).mem (base + k) = some p[k]) ∧
    (∀ a, a < base ∨ base + p.length ≤ a → Memory.read (r.stored base idx p).mem a = Memory.read r.mem a) := by
  refine ⟨?_, rfl, ?_, rfl, fun k hk => Memory.read_writeBytes_inside _ _ _ _ hk,
    fun a ha => Memory.read_writeBytes_outside _ _ _ _ ha⟩
  · simp only [RadioBuf.stored, BitVec.toNat_ofNat]
    omega
  · simp only [RadioBuf.stored]
    congr 1
    exact propext ⟨fun h => by rw [h]; rfl, fun h => BitVec.eq_of_toNat_eq h⟩

/-- A store from inside the stored bytes on keeps the memory's form (R69). -/
theorem RadioBuf.stored_memOk {r : RadioBuf} {size base : Nat} (idx : BitVec 4) {p : List Byte}
    (h : r.memOk size) (hb : base ≤ r.wr.toNat) (hs : base + p.length ≤ size) (hw : base + p.length < 512) :
    (r.stored base idx p).memOk size := by
  obtain ⟨h1, h2, h3⟩ := h
  obtain ⟨e1, -, -, -, e5, e6⟩ := r.stored_spec idx hw
  refine ⟨Memory.wf_writeBytes h1 _ _, Memory.writeBytes_inside h2 hs, fun a ha => ?_⟩
  rw [e1] at ha
  by_cases hlt : a < base
  · rw [e6 a (.inl hlt)]; exact h3 a (by omega)
  · have := e5 (a - base) (by omega)
    rw [show base + (a - base) = a by omega] at this
    rw [this]; rfl

theorem outcome_next {r : Except Fault State} {tag : OutcomeTag} {t : State} :
    outcome r tag = .next t ↔ ∃ u, r = .ok u ∧ t = u.respond .ok (resOutcome u.cur tag) := by
  cases r <;> simp [outcome]

/-- Everything the frame processor can do (R133 to R140). -/
theorem processFrame_next {f : DataIn} {s t : State} (h : processFrame f s = .next t) :
    ((s.rb s.cur).got = true ∧ (s.rb (otherBuf s.cur)).ready = true ∧
      (framePayload f).length ≤ s.cfg.radioBufBytes ∧
      t = ((s.setCur (otherBuf s.cur)).setRb (otherBuf s.cur)
          ((s.rb (otherBuf s.cur)).stored 0 (hdrIndex (frameHeader f)) (framePayload f))).respond .ok
        (resOutcome (otherBuf s.cur) (lastOr (hdrIndex (frameHeader f)) .switchLast .switchNotLast))) ∨
    ((s.rb s.cur).got = true ∧ (s.rb (otherBuf s.cur)).ready = false ∧
      t = s.respond .ok
        (resOutcome s.cur (lastOr (hdrIndex (frameHeader f)) .failSwitchLast .failSwitchNotLast))) ∨
    ((s.rb s.cur).got = false ∧ 0 < (s.rb s.cur).wr.toNat ∧
      (s.rb s.cur).exp.toNat = (hdrIndex (frameHeader f)).toNat + 1 ∧
      (s.rb s.cur).wr.toNat + (framePayload f).length ≤ s.cfg.radioBufBytes ∧
      t = (s.setRb s.cur ((s.rb s.cur).stored (s.rb s.cur).wr.toNat (hdrIndex (frameHeader f))
          (framePayload f))).respond .ok
        (resOutcome s.cur (lastOr (hdrIndex (frameHeader f)) .lastMulti .notLastMiddle))) ∨
    ((s.rb s.cur).got = false ∧ 0 < (s.rb s.cur).wr.toNat ∧
      (s.rb s.cur).exp.toNat ≠ (hdrIndex (frameHeader f)).toNat + 1 ∧
      t = (s.clearRb s.cur).respond .ok
        (resOutcome s.cur (lastOr (hdrIndex (frameHeader f)) .missedLast .missedNotLast))) ∨
    ((s.rb s.cur).got = false ∧ (s.rb s.cur).wr.toNat = 0 ∧ (framePayload f).length ≤ s.cfg.radioBufBytes ∧
      t = (s.setRb s.cur ((s.rb s.cur).stored 0 (hdrIndex (frameHeader f)) (framePayload f))).respond .ok
        (resOutcome s.cur (lastOr (hdrIndex (frameHeader f)) .lastSingle .notLastFirst))) := by
  simp only [processFrame, RadioBuf.classOf, RadioBuf.complete, RadioBuf.hasData, decide_eq_true_eq] at h
  by_cases hg : (s.rb s.cur).got = true
  · simp only [hg, if_true] at h
    by_cases hr : (s.rb (otherBuf s.cur)).ready = true
    · simp only [hr, if_true, outcome_next, storeFirst, storePayload_ok] at h
      obtain ⟨u, ⟨hu, rfl⟩, rfl⟩ := h
      exact .inl ⟨hg, hr, by simpa using hu, by simp⟩
    · rw [if_neg hr, outcome_next] at h
      obtain ⟨u, hu, rfl⟩ := h
      cases hu
      exact .inr (.inl ⟨hg, by simpa using hr, rfl⟩)
  · have hg' : (s.rb s.cur).got = false := by simpa using hg
    simp only [hg', if_false, Bool.false_eq_true] at h
    by_cases hw : 0 < (s.rb s.cur).wr.toNat
    · simp only [hw, if_true, gapIsOne, decide_eq_true_eq] at h
      split at h
      · simp only [outcome_next, append, storePayload_ok] at h
        obtain ⟨u, ⟨hu, rfl⟩, rfl⟩ := h
        exact .inr (.inr (.inl ⟨hg', hw, by omega, hu, by simp⟩))
      · simp only [outcome_next] at h
        obtain ⟨u, hu, rfl⟩ := h
        cases hu
        exact .inr (.inr (.inr (.inl ⟨hg', hw, by omega, by simp⟩)))
    · simp only [hw, if_false, outcome_next, storeFirst, storePayload_ok] at h
      obtain ⟨u, ⟨hu, rfl⟩, rfl⟩ := h
      exact .inr (.inr (.inr (.inr ⟨hg', by omega, by simpa using hu, by simp⟩)))

/-! ### The serial buffer's operations -/

/-- A slot after a byte is stored at `off` (R160). -/
def Slot.stored (sl : Slot) (off : Nat) (v : Byte) : Slot :=
  { sl with mem := Memory.write sl.mem off v, wr := BitVec.ofNat 5 (off + 1) }

theorem putByte_next {s t : State} {j off : Nat} {pq : BitVec 5} {v : Byte} :
    putByte s j off pq v = .next t ↔
      ∃ sl, s.slots[j]? = some sl ∧ off + 1 ≤ payloadMax ∧
        t = ((s.setSlot j (sl.stored off v)).setPq pq).respond .ok 0#16 := by
  unfold putByte
  cases h : slotAt s j with
  | error f =>
    simp only [reduceCtorEq, false_iff, not_exists, not_and]
    intro sl hsl
    rw [slotAt_ok.2 hsl] at h; cases h
  | ok sl =>
    have hsl := slotAt_ok.1 h
    simp only [hsl, Option.some.injEq, exists_eq_left']
    unfold store
    by_cases ho : off + [v].length ≤ payloadMax
    · rw [if_pos ho]
      exact ⟨fun e => ⟨ho, answer_next.1 e⟩, fun e => answer_next.2 e.2⟩
    · rw [if_neg ho]
      exact ⟨fun e => (by cases e), fun e => absurd e.1 ho⟩

theorem sendSlot_next {s t : State} {j idx : Nat} {ps : BitVec 5} :
    sendSlot s j idx ps = .next t ↔
      ∃ sl d, s.slots[j]? = some sl ∧ sl.wr.toNat ≤ payloadMax ∧
        Memory.readBytes sl.mem 0 sl.wr.toNat = some d ∧
        t = ((s.setSlot j { sl with rd := 0#5 }).setPs ps).respond .ok (resSend sl.wr (mk 0#1 idx d)) := by
  unfold sendSlot
  cases h : slotAt s j with
  | error f =>
    simp only [reduceCtorEq, false_iff, not_exists, not_and]
    intro sl d hsl
    rw [slotAt_ok.2 hsl] at h; cases h
  | ok sl =>
    have hsl := slotAt_ok.1 h
    simp only [hsl, Option.some.injEq]
    unfold frameHdr
    cases hd : loadBytes payloadMax sl.mem sl.wr.toNat with
    | error f =>
      simp only [reduceCtorEq, false_iff, not_exists, not_and]
      rintro sl' d rfl h1 h2
      rw [loadBytes_ok.2 ⟨h1, h2⟩] at hd; cases hd
    | ok d =>
      obtain ⟨h1, h2⟩ := loadBytes_ok.1 hd
      simp only [answer_next]
      constructor
      · rintro rfl; exact ⟨sl, d, rfl, h1, h2, rfl⟩
      · rintro ⟨sl', d', rfl, -, h2', rfl⟩
        rw [h2] at h2'; cases h2'; rfl

/-! ### What the invariant gives -/

theorem State.Inv.rb_regs {s : State} (h : s.Inv) (b : BufId) : (s.rb b).regsOk := by
  cases b
  · exact h.regs.1
  · exact h.regs.2.1

theorem State.Inv.rb_mem {s : State} (h : s.Inv) (b : BufId) : (s.rb b).memOk s.cfg.radioBufBytes := by
  cases b
  · exact h.mem.1
  · exact h.mem.2.1

/-- A slot below `SERIAL_SLOTS` exists. -/
theorem State.Inv.slot_exists {s : State} (h : s.Inv) {i : Nat} (hi : i < s.cfg.serialSlots) :
    ∃ sl, s.slots[i]? = some sl ∧ sl.memOk := by
  have hl : i < s.slots.length := by rw [h.shape.2]; exact hi
  exact ⟨s.slots[i], List.getElem?_eq_getElem hl, h.mem.2.2 _ (List.getElem_mem hl)⟩

/-- What SI2 to SI5 say of one slot. -/
theorem State.Inv.slot_regs {s : State} (h : s.Inv) {i : Nat} {sl : Slot} (hi : s.slots[i]? = some sl) :
    (i + 1 < s.pq.toNat → sl.wr.toNat = payloadMax) ∧
    (i + 1 = s.pq.toNat → 1 ≤ sl.wr.toNat ∧ sl.wr.toNat ≤ payloadMax) ∧
    (s.pq.toNat ≤ i → sl.wr.toNat = 0) ∧ sl.rd.toNat ≤ sl.wr.toNat ∧ i < s.cfg.serialSlots := by
  obtain ⟨hl, rfl⟩ := List.getElem?_eq_some_iff.1 hi
  obtain ⟨-, -, -, h2, h3, h4, h5⟩ := h.regs
  exact ⟨h2 i hl, h3 i hl, h4 i hl, h5 i hl, by rw [← h.shape.2]; exact hl⟩

end Sys2Proof.Machine
end

