-- ==== Sys2Proof/Laws/Invariant.lean ====
section
/-! SUPPORT. The invariant and the shared operations: which updates keep `State.Inv` (spec R37, R38), for any proof
about what a command keeps. -/

namespace Sys2Proof.Machine

theorem inv_of_fields {s t : State} (h : s.Inv) (h1 : t.cfg = s.cfg) (h3 : t.rb0 = s.rb0) (h4 : t.rb1 = s.rb1)
    (h5 : t.pq = s.pq) (h6 : t.ps = s.ps) (h7 : t.slots = s.slots) : t.Inv := by
  obtain ⟨a, b, c⟩ := h
  cases s; cases t; simp only at h1 h3 h4 h5 h6 h7; subst_vars
  exact ⟨a, b, c⟩

theorem inv_respond {s : State} (h : s.Inv) (st r) : (s.respond st r).Inv := inv_of_fields h rfl rfl rfl rfl rfl rfl

theorem inv_setCur {s : State} (h : s.Inv) (b) : (s.setCur b).Inv := inv_of_fields h rfl rfl rfl rfl rfl rfl

theorem inv_setRb {s : State} (h : s.Inv) (b : BufId) (r : RadioBuf) (h1 : r.regsOk) (h2 : r.memOk
    s.cfg.radioBufBytes) :
    (s.setRb b r).Inv := by
  obtain ⟨a, ⟨b1, b2, b3⟩, c1, c2, c3⟩ := h
  cases b
  · exact ⟨a, ⟨h1, b2, b3⟩, h2, c2, c3⟩
  · exact ⟨a, ⟨b1, h1, b3⟩, c1, h2, c3⟩

theorem cleared_regs (r : RadioBuf) : r.cleared.regsOk := by
  simp [RadioBuf.regsOk, RadioBuf.RI1, RadioBuf.RI2, RadioBuf.RI3, RadioBuf.RI4, RadioBuf.RI5, RadioBuf.cleared,
      RadioBuf.incomplete, RadioBuf.hasData]

theorem cleared_mem {r : RadioBuf} {n} (h : r.memOk n) : r.cleared.memOk n := ⟨h.1, h.2.1, by simp⟩

theorem inv_clearRb {s : State} (h : s.Inv) (b : BufId) : (s.clearRb b).Inv :=
  inv_setRb h b _ (cleared_regs _) (cleared_mem (h.rb_mem b))

theorem inv_clearSb {s : State} (h : s.Inv) : s.clearSb.Inv := by
  obtain ⟨a, ⟨b1, b2, b3⟩, c1, c2, c3⟩ := h
  refine ⟨⟨a.1, by simpa using a.2⟩, ⟨b1, b2, ?_⟩, c1, c2, ?_⟩
  · simp [State.SI1, State.SI2, State.SI3, State.SI4, State.SI5]
  · intro sl hsl
    simp at hsl
    obtain ⟨x, hx, rfl⟩ := hsl
    obtain ⟨d1, d2, d3⟩ := c3 x hx
    exact ⟨d1, d2, by simp⟩

theorem idx_lt (h : Byte) : (hdrIndex h).toNat < 16 := (hdrIndex h).isLt

theorem stored_regs {r : RadioBuf} (base : Nat) (idx : BitVec 4) (p : List Byte) (hp : 1 ≤ p.length) (hp' : p.length
    ≤ 31)
    (hfl : r.fl = false) (hb : base + 31 ≤ 31 * (16 - idx.toNat)) : (r.stored base idx p).regsOk := by
  have := idx.isLt
  obtain ⟨e1, e2, e3, e4, -, -⟩ := r.stored_spec (base := base) idx (p := p) (by omega)
  refine ⟨?_, ?_, ?_, ?_, ?_⟩
  · simp [RadioBuf.RI1, e4, hfl]
  · rw [RadioBuf.RI2, e1, e2, e3]; simp; omega
  · rw [RadioBuf.RI3, e1]; omega
  · rw [RadioBuf.RI4, e2, RadioBuf.incomplete, RadioBuf.hasData, RadioBuf.complete, e3, e1]; simp; omega
  · rw [RadioBuf.RI5, e1, e2]; simp only [payloadMax, pageFramesMax]; omega

theorem ready_iff (r : RadioBuf) : r.ready = true ↔ r.wr.toNat = 0 ∧ r.fl = false := by
  simp [RadioBuf.ready, RadioBuf.empty]

theorem processFrame_inv {f : DataIn} {s t : State} (hs : s.Inv) (h : processFrame f s = .next t) (hf : lenIn 2 32 f
    = true) :
    t.Inv := by
  have hp : 1 ≤ (framePayload f).length ∧ (framePayload f).length ≤ 31 := by
    simp [framePayload] at hf ⊢; omega
  have hx := idx_lt (frameHeader f)
  have hc := hs.shape.1.2.2
  simp only [pageFramesMax, payloadMax] at hc
  rcases processFrame_next h with ⟨h1, h2, h3, rfl⟩ | ⟨h1, h2, rfl⟩ | ⟨h1, h2, h3, h4, rfl⟩ | ⟨h1, h2, h3, rfl⟩ |
      ⟨h1, h2, h3, rfl⟩
  · refine inv_respond (inv_setRb (inv_setCur hs (otherBuf s.cur)) (otherBuf s.cur) _ (stored_regs 0 (hdrIndex
      (frameHeader f)) _ hp.1 hp.2 ((ready_iff _).1 h2).2 (by omega)) (RadioBuf.stored_memOk _ (hs.rb_mem _) (by
      omega) (by simpa using h3) (by omega))) _ _
  · exact inv_respond hs _ _
  · obtain ⟨r1, r2, r3, r4, r5⟩ := hs.rb_regs s.cur
    rw [RadioBuf.RI5] at r5
    simp only [pageFramesMax, payloadMax] at r5
    have hfl : (s.rb s.cur).fl = false := by
      cases h : (s.rb s.cur).fl with
      | false => rfl
      | true => rw [r1 h] at h1; cases h1
    refine inv_respond (inv_setRb hs _ _ (stored_regs _ _ _ hp.1 hp.2 hfl (by omega)) (RadioBuf.stored_memOk _
        (hs.rb_mem _) (by omega) (by omega) (by omega))) _ _
  · exact inv_respond (inv_clearRb hs _) _ _
  · obtain ⟨r1, r2, r3, r4, r5⟩ := hs.rb_regs s.cur
    refine inv_respond (inv_setRb hs _ _ (stored_regs _ _ _ hp.1 hp.2 (r3 h2).2.2 (by omega)) (RadioBuf.stored_memOk
        _ (hs.rb_mem _) (by omega) (by omega) (by omega))) _ _

theorem slot_stored_memOk {sl : Slot} {off : Nat} {v : Byte} (h : sl.memOk) (ho : off ≤ sl.wr.toNat) (h31 : off + 1 ≤
    31) :
    (sl.stored off v).memOk := by
  obtain ⟨h1, h2, h3⟩ := h
  refine ⟨Memory.wf_write h1 _ _, ?_, ?_⟩
  · intro c hc
    rcases Memory.mem_write_fst hc with h | h
    · simp only [payloadMax]; omega
    · exact h2 c h
  · intro a ha
    simp only [Slot.stored, BitVec.toNat_ofNat] at ha ⊢
    by_cases hh : a = off
    · subst hh; rw [Memory.read_write_self]; rfl
    · rw [Memory.read_write_other _ _ hh]; exact h3 a (by omega)

theorem slots_inv {s t : State} (hs : s.Inv) (h1 : t.cfg = s.cfg) (h3 : t.rb0 = s.rb0) (h4 : t.rb1 = s.rb1)
    (j : Nat) (sl' : Slot) (h7 : t.slots = s.slots.set j sl') (hj : j < s.cfg.serialSlots)
    (hm : sl'.memOk) (hSI1 : t.SI1)
    (hj' : (j + 1 < t.pq.toNat → sl'.wr.toNat = 31) ∧ (j + 1 = t.pq.toNat → 1 ≤ sl'.wr.toNat ∧ sl'.wr.toNat ≤ 31) ∧
        (t.pq.toNat ≤ j → sl'.wr.toNat = 0) ∧ sl'.rd.toNat ≤ sl'.wr.toNat)
    (ho : ∀ i sl, i ≠ j → s.slots[i]? = some sl → (i + 1 < t.pq.toNat → sl.wr.toNat = 31) ∧ (i + 1 = t.pq.toNat → 1 ≤
        sl.wr.toNat ∧ sl.wr.toNat ≤ 31) ∧ (t.pq.toNat ≤ i → sl.wr.toNat = 0)) : t.Inv := by
  have hlen : t.slots.length = s.slots.length := by rw [h7]; simp
  have key : ∀ i (h : i < t.slots.length), (i + 1 < t.pq.toNat → t.slots[i].wr.toNat = 31) ∧ (i + 1 = t.pq.toNat → 1
      ≤ t.slots[i].wr.toNat ∧ t.slots[i].wr.toNat ≤ 31) ∧ (t.pq.toNat ≤ i → t.slots[i].wr.toNat = 0) ∧
      t.slots[i].rd.toNat ≤ t.slots[i].wr.toNat := by
    intro i h
    by_cases hij : i = j
    · subst hij
      have : t.slots[i] = sl' := by simp [h7]
      rw [this]; exact hj'
    · have e : t.slots[i]? = s.slots[i]? := by rw [h7]; simp [Ne.symm hij]
      have e2 : s.slots[i]? = some t.slots[i] := by rw [← e]; exact List.getElem?_eq_getElem h
      obtain ⟨a, b, c⟩ := ho i _ hij e2
      exact ⟨a, b, c, (hs.slot_regs e2).2.2.2.1⟩
  have hr0 : t.rb0.regsOk := by rw [h3]; exact hs.regs.1
  have hr1 : t.rb1.regsOk := by rw [h4]; exact hs.regs.2.1
  refine ⟨⟨by rw [h1]; exact hs.shape.1, by rw [hlen, h1]; exact hs.shape.2⟩,
    ⟨hr0, hr1, hSI1, fun i h => (key i h).1, fun i h => (key i h).2.1, fun i h => (key i h).2.2.1,
      fun i h => (key i h).2.2.2⟩, by rw [h3, h1]; exact hs.mem.1, by rw [h4, h1]; exact hs.mem.2.1, ?_⟩
  intro sl hsl
  rw [h7] at hsl
  rcases List.mem_or_eq_of_mem_set hsl with h | h
  · exact hs.mem.2.2 _ h
  · rw [h]; exact hm

theorem sb_bounds {s : State} (hs : s.Inv) : s.ps.toNat ≤ s.pq.toNat ∧ s.pq.toNat ≤ s.cfg.serialSlots ∧
    s.cfg.serialSlots ≤ 16 ∧ 1 ≤ s.cfg.serialSlots :=
  ⟨hs.regs.2.2.1.1, hs.regs.2.2.1.2, hs.shape.1.2.1, hs.shape.1.1⟩

theorem sbPut_cases {s t : State} {v : Byte} (h : execSbPut v s = .next t) (hs : s.Inv) :
   (∃ j off sl pq, s.slots[j]? = some sl ∧ off + 1 ≤ 31 ∧ t = ((s.setSlot j (sl.stored off v)).setPq pq).respond .ok
       0#16 ∧
      ((s.pq.toNat = 0 ∧ j = 0 ∧ off = 0 ∧ pq = 1#5) ∨ (s.pq.toNat = j + 1 ∧ off = sl.wr.toNat ∧ pq = s.pq) ∨ (1 ≤
          s.pq.toNat ∧ j = s.pq.toNat ∧ off = 0 ∧ pq = s.pq + 1#5 ∧ s.pq.toNat < s.cfg.serialSlots ∧ ∀ sl0,
          s.slots[j-1]? = some sl0 → sl0.wr.toNat = 31))) ∨
   (t = s.clearSb.respond .overflow 0#16) := by
  simp only [execSbPut] at h
  split at h
  · obtain ⟨sl, h1, h2, rfl⟩ := putByte_next.1 h
    exact .inl ⟨0, 0, sl, _, h1, h2, rfl, .inl ⟨by assumption, rfl, rfl, rfl⟩⟩
  · split at h
    · cases h
    · rename_i sl hsl
      have hsl := slotAt_ok.1 hsl
      have hr := hs.slot_regs hsl
      split at h
      · obtain ⟨sl', h1, h2, rfl⟩ := putByte_next.1 h
        rw [hsl] at h1; cases h1
        exact .inl ⟨s.pq.toNat - 1, _, sl, _, hsl, h2, rfl, .inr (.inl ⟨by omega, rfl, rfl⟩)⟩
      · split at h
        · obtain ⟨sl', h1, h2, rfl⟩ := putByte_next.1 h
          rw [show s.pq.toNat - 1 + 1 = s.pq.toNat by omega] at h1 ⊢
          refine .inl ⟨s.pq.toNat, 0, sl', _, h1, h2, rfl, .inr (.inr ⟨by omega, rfl, rfl, rfl, by assumption, ?_⟩)⟩
          intro sl0 h0
          rw [hsl] at h0; cases h0
          have := (hr.2.1 (by omega)).2
          simp only [payloadMax] at *
          omega
        · simp at h; exact .inr h

theorem sbPut_inv {s t : State} {v : Byte} (hs : s.Inv) (h : execSbPut v s = .next t) : t.Inv := by
  obtain ⟨b1, b2, b3, b4⟩ := sb_bounds hs
  rcases sbPut_cases h hs with ⟨j, off, sl, pq, h1, h2, rfl, hc⟩ | rfl
  · have hr := hs.slot_regs h1
    have hmem := hs.mem.2.2 sl (List.mem_of_getElem? h1)
    have hw : (sl.stored off v).wr.toNat = off + 1 := by simp only [Slot.stored, BitVec.toNat_ofNat]; omega
    have hrd : (sl.stored off v).rd = sl.rd := rfl
    have hlt := sl.rd.isLt
    apply inv_respond
    have hpq1 : (s.pq + 1#5).toNat = (s.pq.toNat + 1) % 32 := by simp [BitVec.toNat_add]
    rcases hc with ⟨p1, rfl, rfl, rfl⟩ | ⟨p1, rfl, rfl⟩ | ⟨p0, rfl, rfl, rfl, p1, p2⟩
    · refine slots_inv hs (by simp) (by simp) (by simp) 0 (sl.stored 0 v) (by simp) (by omega) (slot_stored_memOk
        hmem (by omega) h2) (by simp [State.SI1]; omega) ?_ ?_
      · simp [hw, hrd]; omega
      · intro i sl2 hij hsl2
        have hr2 := hs.slot_regs hsl2
        simp; omega
    · refine slots_inv hs (by simp) (by simp) (by simp) j (sl.stored sl.wr.toNat v) (by simp) (by omega)
        (slot_stored_memOk hmem (by omega) h2) (by simp [State.SI1]; omega) ?_ ?_
      · simp [hw, hrd]; omega
      · intro i sl2 hij hsl2
        have hr2 := hs.slot_regs hsl2
        simp only [payloadMax] at hr2
        simp; omega
    · refine slots_inv hs (by simp) (by simp) (by simp) s.pq.toNat (sl.stored 0 v) (by simp) (by omega)
        (slot_stored_memOk hmem (by omega) h2) (by simp only [State.SI1, State.setPq_ps, State.setSlot_ps,
        State.setPq_pq, State.setPq_cfg, State.setSlot_cfg, hpq1]; omega) ?_ ?_
      · simp only [hw, hrd, State.setPq_pq, hpq1]; omega
      · intro i sl2 hij hsl2
        have hr2 := hs.slot_regs hsl2
        simp only [payloadMax] at hr2
        simp only [State.setPq_pq, hpq1]
        by_cases hi : i + 1 = s.pq.toNat
        · have := p2 sl2 (by rw [show s.pq.toNat - 1 = i by omega]; exact hsl2)
          omega
        · omega
  · exact inv_respond (inv_clearSb hs) _ _

theorem slot_rd_inv {s : State} (hs : s.Inv) {j : Nat} {sl : Slot} (h1 : s.slots[j]? = some sl) (rd ps : BitVec 5)
    (hrd : rd.toNat ≤ sl.wr.toNat) (hps : ps.toNat ≤ s.pq.toNat) :
    ((s.setSlot j { sl with rd := rd }).setPs ps).Inv := by
  have hr := hs.slot_regs h1
  obtain ⟨b1, b2, b3, b4⟩ := sb_bounds hs
  refine slots_inv hs (by simp) (by simp) (by simp) j _ rfl hr.2.2.2.2 (hs.mem.2.2 sl (List.mem_of_getElem? h1)) (by
      simp [State.SI1]; omega) ?_ ?_
  · simp; simp only [payloadMax] at hr; omega
  · intro i sl2 hij hsl2
    have hr2 := hs.slot_regs hsl2
    simp; simp only [payloadMax] at hr2; omega

theorem sendSlot_inv {s t : State} {j idx : Nat} {ps : BitVec 5} (hs : s.Inv) (h : sendSlot s j idx ps = .next t)
    (hps : ps.toNat ≤ s.pq.toNat) : t.Inv := by
  obtain ⟨sl, d, h1, h2, h3, rfl⟩ := sendSlot_next.1 h
  exact inv_respond (slot_rd_inv hs h1 _ _ (by simp) hps) _ _

end Sys2Proof.Machine
end

