-- ==== Sys2Proof/Laws/PerInstr.lean ====
section
/-! SUPPORT. The statements made per instruction. Family `OperandsOf`: the word of a command's encoding has the
opcode of a row of the opcode map, and that row's operand forms give the command back (spec R88, R92). -/

namespace Sys2Proof.Laws.OperandsOf

/-- The row that the encoding's opcode selects builds the command from the encoding. -/
def Statement (i : Instr) : Prop :=
  ∃ row, rowOf (opcOf (encode i).word) = some row ∧ row.build (encode i).word (encode i).din = i

theorem sysReset : Statement .sysReset :=
  ⟨_, by simp only [encode, opcOf_packWord]; rfl, rfl⟩

theorem ckMake (p : DataIn) : Statement (.ckMake p) :=
  ⟨_, by simp only [encode, opcOf_packWord]; rfl, rfl⟩

theorem ckVerify (f : DataIn) : Statement (.ckVerify f) :=
  ⟨_, by simp only [encode, opcOf_packWord]; rfl, rfl⟩

theorem bidMake (st : BitVec 1) (ix : BitVec 16) (p : DataIn) : Statement (.bidMake st ix p) :=
  ⟨_, by simp only [encode, opcOf_packWord]; rfl, by simp only [encode, bitB_packWord, opIx_packWord]⟩

theorem bidStream (h : Byte) : Statement (.bidStream h) :=
  ⟨_, by simp only [encode, opcOf_packWord]; rfl, by simp only [encode, opV_packWord]⟩

theorem bidIndex (h : Byte) : Statement (.bidIndex h) :=
  ⟨_, by simp only [encode, opcOf_packWord]; rfl, by simp only [encode, opV_packWord]⟩

theorem bidCk (h : Byte) : Statement (.bidCk h) :=
  ⟨_, by simp only [encode, opcOf_packWord]; rfl, by simp only [encode, opV_packWord]⟩

theorem rbProcess (f : DataIn) : Statement (.rbProcess f) :=
  ⟨_, by simp only [encode, opcOf_packWord]; rfl, rfl⟩

theorem rxFrame (f : DataIn) : Statement (.rxFrame f) :=
  ⟨_, by simp only [encode, opcOf_packWord]; rfl, rfl⟩

theorem rbReady (b : BufId) : Statement (.rbReady b) :=
  ⟨_, by simp only [encode, opcOf_packWord]; rfl, by simp only [encode, opB_packWord]⟩

theorem rbSwitch : Statement .rbSwitch :=
  ⟨_, by simp only [encode, opcOf_packWord]; rfl, rfl⟩

theorem rbFlushBegin (b : BufId) : Statement (.rbFlushBegin b) :=
  ⟨_, by simp only [encode, opcOf_packWord]; rfl, by simp only [encode, opB_packWord]⟩

theorem rbRd (b : BufId) (a : BitVec 9) : Statement (.rbRd b a) :=
  ⟨_, by simp only [encode, opcOf_packWord]; rfl, by simp only [encode, opB_packWord, opA_packWord]⟩

theorem rbReset (b : BufId) : Statement (.rbReset b) :=
  ⟨_, by simp only [encode, opcOf_packWord]; rfl, by simp only [encode, opB_packWord]⟩

theorem rbStat (b : BufId) : Statement (.rbStat b) :=
  ⟨_, by simp only [encode, opcOf_packWord]; rfl, by simp only [encode, opB_packWord]⟩

theorem sbPut (v : Byte) : Statement (.sbPut v) :=
  ⟨_, by simp only [encode, opcOf_packWord]; rfl, by simp only [encode, opV_packWord]⟩

theorem sbSendFirst : Statement .sbSendFirst :=
  ⟨_, by simp only [encode, opcOf_packWord]; rfl, rfl⟩

theorem sbSendNext : Statement .sbSendNext :=
  ⟨_, by simp only [encode, opcOf_packWord]; rfl, rfl⟩

theorem sbResend : Statement .sbResend :=
  ⟨_, by simp only [encode, opcOf_packWord]; rfl, rfl⟩

theorem sbRestart : Statement .sbRestart :=
  ⟨_, by simp only [encode, opcOf_packWord]; rfl, rfl⟩

theorem sbRd : Statement .sbRd :=
  ⟨_, by simp only [encode, opcOf_packWord]; rfl, rfl⟩

theorem sbPending : Statement .sbPending :=
  ⟨_, by simp only [encode, opcOf_packWord]; rfl, rfl⟩

theorem sbStat : Statement .sbStat :=
  ⟨_, by simp only [encode, opcOf_packWord]; rfl, rfl⟩

theorem sbSlot (n : BitVec 4) : Statement (.sbSlot n) :=
  ⟨_, by simp only [encode, opcOf_packWord]; rfl, by simp only [encode, opS_packWord]⟩

theorem sbReset : Statement .sbReset :=
  ⟨_, by simp only [encode, opcOf_packWord]; rfl, rfl⟩

end Sys2Proof.Laws.OperandsOf
end

