-- ==== Sys2Proof/Tests/Slice0.lean ====
section
/-! SUPPORT. The model's own tests: the well-formedness check, one word of every command written out field by field
from spec R84, R85 and R88, at most two small tests a command with results from spec/95_test_vectors.md, and a witness
for the hypotheses of every obligation that has some. -/

open Sys2Proof Sys2Proof.Machine

namespace Sys2Proof.Tests

/-! ### Small states -/

/-- A page buffer that holds `d`. -/
def buf (d : List Byte) (exp : BitVec 4) (got fl : Bool) : RadioBuf :=
  { wr := BitVec.ofNat 9 d.length, exp := exp, got := got, fl := fl, mem := Memory.writeBytes [] 0 d }

/-- A slot that holds `d`. -/
def slot (d : List Byte) (rd : BitVec 5) : Slot :=
  { wr := BitVec.ofNat 5 d.length, rd := rd, mem := Memory.writeBytes [] 0 d }

/-- Reset with `c` slots, of which the first hold `ds`, and `ps` pages sent. -/
def serial (c : Nat) (ds : List Slot) (ps : BitVec 5) : State :=
  { State.resetWith ⟨c, 496⟩ with
    slots := ds ++ List.replicate (c - ds.length) Slot.reset
    pq := BitVec.ofNat 5 ds.length
    ps := ps }

/-- 31 bytes. -/
def ones : List Byte := List.replicate 31 1#8

def filling : State := { State.reset with rb0 := buf [0xAA#8, 0xBB#8] 3#4 false false }
def fillingLast : State := { State.reset with rb0 := buf [0xAA#8] 1#4 false false }
def complete : State := { State.reset with rb0 := buf [0x11#8, 0x22#8] 0#4 true false }
def flushing : State := { State.reset with rb0 := buf [0x11#8, 0x22#8] 0#4 true true }
def bothComplete : State := { complete with rb1 := buf [0x33#8] 0#4 true false }
def bothFlushing : State := { flushing with rb1 := buf [0x33#8] 0#4 true true }
def queued : State := serial 16 [slot [0x41#8, 0x42#8] 0#5] 0#5
def sent : State := serial 16 [slot [0x41#8, 0x42#8] 0#5] 1#5
def delivered : State := serial 16 [slot [0x41#8, 0x42#8] 2#5] 1#5
def nearlyFull : State := serial 16 [slot (List.replicate 30 1#8) 0#5] 0#5
def closedSlot : State := serial 2 [slot ones 0#5] 0#5
def twoQueued : State := serial 2 [slot ones 0#5, slot [2#8] 0#5] 0#5
def twoSentOne : State := serial 2 [slot ones 0#5, slot [2#8] 0#5] 1#5
def allFull : State := serial 1 [slot ones 0#5] 1#5
def oneSlot : State := State.resetWith ⟨1, 496⟩
/-- The state of V5.15 before its `SYS_RESET`. -/
def busy : State :=
  { serial 16 [slot [0x41#8] 1#5] 1#5 with
    cur := .bufB, rb0 := buf [0x11#8] 0#4 true true, rb1 := buf [0x12#8] 2#4 false false }
/-- A state that breaks RI1. -/
def illFormed : State := { State.reset with rb0 := { RadioBuf.reset with fl := true } }

theorem inv_reset : State.reset.Inv := ⟨by decide +kernel, by decide +kernel, by decide +kernel⟩
theorem inv_filling : filling.Inv := ⟨by decide +kernel, by decide +kernel, by decide +kernel⟩
theorem inv_fillingLast : fillingLast.Inv := ⟨by decide +kernel, by decide +kernel, by decide +kernel⟩
theorem inv_complete : complete.Inv := ⟨by decide +kernel, by decide +kernel, by decide +kernel⟩
theorem inv_flushing : flushing.Inv := ⟨by decide +kernel, by decide +kernel, by decide +kernel⟩
theorem inv_bothComplete : bothComplete.Inv := ⟨by decide +kernel, by decide +kernel, by decide +kernel⟩
theorem inv_bothFlushing : bothFlushing.Inv := ⟨by decide +kernel, by decide +kernel, by decide +kernel⟩
theorem inv_queued : queued.Inv := ⟨by decide +kernel, by decide +kernel, by decide +kernel⟩
theorem inv_sent : sent.Inv := ⟨by decide +kernel, by decide +kernel, by decide +kernel⟩
theorem inv_delivered : delivered.Inv := ⟨by decide +kernel, by decide +kernel, by decide +kernel⟩
theorem inv_nearlyFull : nearlyFull.Inv := ⟨by decide +kernel, by decide +kernel, by decide +kernel⟩
theorem inv_closedSlot : closedSlot.Inv := ⟨by decide +kernel, by decide +kernel, by decide +kernel⟩
theorem inv_twoQueued : twoQueued.Inv := ⟨by decide +kernel, by decide +kernel, by decide +kernel⟩
theorem inv_twoSentOne : twoSentOne.Inv := ⟨by decide +kernel, by decide +kernel, by decide +kernel⟩
theorem inv_allFull : allFull.Inv := ⟨by decide +kernel, by decide +kernel, by decide +kernel⟩
theorem inv_oneSlot : oneSlot.Inv := ⟨by decide +kernel, by decide +kernel, by decide +kernel⟩
theorem inv_busy : busy.Inv := ⟨by decide +kernel, by decide +kernel, by decide +kernel⟩

/-- `s` with one command presented. -/
def presented (w : CommandWord) (d : DataIn) (s : State) : State := { s with pending := [.command ⟨w, d⟩] }

theorem inv_presented {s : State} (h : s.Inv) (w : CommandWord) (d : DataIn) : (presented w d s).Inv :=
  ⟨h.shape, h.regs, h.mem⟩

/-- The response of an outcome. -/
def respOf : Result → Option Response
  | .next s => s.resp
  | .fault _ => none
  | .refused _ => none

/-- What one command answers, and what `RB_STAT b` answers after it. -/
def thenStat (i : Instr) (b : BufId) (s : State) : Option (ResultWord × ResultWord) :=
  match exec i s with
  | .next t => (respOf (exec (.rbStat b) t)).bind fun q => t.resp.map fun r => (r.res, q.res)
  | .fault _ => none
  | .refused _ => none

/-- What one command answers, and what `SB_STAT` and `SB_SLOT n` answer after it. -/
def thenSerial (i : Instr) (n : BitVec 4) (s : State) : Option (Response × List ResultWord) :=
  match exec i s with
  | .next t =>
    match t.resp, respOf (exec .sbStat t), respOf (exec (.sbSlot n) t) with
    | some r, some p, some q => some (r, [p.res, q.res])
    | _, _, _ => none
  | .fault _ => none
  | .refused _ => none

/-! ### WellFormed: every check refuses an ill-formed term -/

theorem test_wf_ckMake : (Instr.ckMake (List.replicate 64 0#8)).wf = false := by decide
theorem test_wf_ckVerify : (Instr.ckVerify (List.replicate 64 0#8)).wf = false := by decide
theorem test_wf_bidMake : (Instr.bidMake 0#1 0#16 (List.replicate 64 0#8)).wf = false := by decide
theorem test_wf_rbProcess : (Instr.rbProcess (List.replicate 64 0#8)).wf = false := by decide
theorem test_wf_rxFrame : (Instr.rxFrame (List.replicate 64 0#8)).wf = false := by decide
theorem test_wf_request : (Request.wf ⟨0x46000000#32, List.replicate 64 0#8⟩) = false := by decide
theorem test_wf_accepts : (Instr.rxFrame (List.replicate 63 0#8)).wf = true := by decide

/-! ### Decode: a word of every command, written OPC ++ zero ++ B ++ ARG (R84), with the bits of its format (R85) -/

theorem test_decode_sysReset : decode ⟨0b00000001#8 ++ 0#24, []⟩ = .ok .sysReset := by decide
theorem test_decode_ckMake : decode ⟨0b00010000#8 ++ 0#24, [1#8]⟩ = .ok (.ckMake [1#8]) := by decide
theorem test_decode_ckVerify : decode ⟨0b00010001#8 ++ 0#24, [1#8]⟩ = .ok (.ckVerify [1#8]) := by decide
theorem test_decode_bidMake :
    decode ⟨0b00100000#8 ++ 0#7 ++ 1#1 ++ 0b1111111111110011#16, [1#8]⟩ = .ok (.bidMake 1#1 0xFFF3#16 [1#8]) := by
  decide
theorem test_decode_bidStream :
    decode ⟨0b00100001#8 ++ 0#16 ++ 0b10111010#8, []⟩ = .ok (.bidStream 0xBA#8) := by decide
theorem test_decode_bidIndex :
    decode ⟨0b00100010#8 ++ 0#16 ++ 0b10111010#8, []⟩ = .ok (.bidIndex 0xBA#8) := by decide
theorem test_decode_bidCk :
    decode ⟨0b00100011#8 ++ 0#16 ++ 0b10111010#8, []⟩ = .ok (.bidCk 0xBA#8) := by decide
theorem test_decode_rbProcess : decode ⟨0b00110000#8 ++ 0#24, [1#8]⟩ = .ok (.rbProcess [1#8]) := by decide
theorem test_decode_rxFrame : decode ⟨0b00110001#8 ++ 0#24, [1#8]⟩ = .ok (.rxFrame [1#8]) := by decide
theorem test_decode_rbReady : decode ⟨0b00110010#8 ++ 0#7 ++ 1#1 ++ 0#16, []⟩ = .ok (.rbReady .bufB) := by decide
theorem test_decode_rbSwitch : decode ⟨0b00110011#8 ++ 0#24, []⟩ = .ok .rbSwitch := by decide
theorem test_decode_rbFlushBegin :
    decode ⟨0b00110100#8 ++ 0#7 ++ 0#1 ++ 0#16, []⟩ = .ok (.rbFlushBegin .bufA) := by decide
theorem test_decode_rbRd :
    decode ⟨0b00110101#8 ++ 0#7 ++ 1#1 ++ 0#7 ++ 0b111110000#9, []⟩ = .ok (.rbRd .bufB 496#9) := by decide
theorem test_decode_rbReset : decode ⟨0b00110110#8 ++ 0#7 ++ 1#1 ++ 0#16, []⟩ = .ok (.rbReset .bufB) := by decide
theorem test_decode_rbStat : decode ⟨0b00110111#8 ++ 0#7 ++ 1#1 ++ 0#16, []⟩ = .ok (.rbStat .bufB) := by decide
theorem test_decode_sbPut : decode ⟨0b01000000#8 ++ 0#16 ++ 0b01000001#8, []⟩ = .ok (.sbPut 0x41#8) := by decide
theorem test_decode_sbSendFirst : decode ⟨0b01000001#8 ++ 0#24, []⟩ = .ok .sbSendFirst := by decide
theorem test_decode_sbSendNext : decode ⟨0b01000010#8 ++ 0#24, []⟩ = .ok .sbSendNext := by decide
theorem test_decode_sbResend : decode ⟨0b01000011#8 ++ 0#24, []⟩ = .ok .sbResend := by decide
theorem test_decode_sbRestart : decode ⟨0b01000100#8 ++ 0#24, []⟩ = .ok .sbRestart := by decide
theorem test_decode_sbRd : decode ⟨0b01000101#8 ++ 0#24, []⟩ = .ok .sbRd := by decide
theorem test_decode_sbPending : decode ⟨0b01000110#8 ++ 0#24, [1#8, 2#8]⟩ = .ok .sbPending := by decide
theorem test_decode_sbStat : decode ⟨0b01000111#8 ++ 0#24, []⟩ = .ok .sbStat := by decide
theorem test_decode_sbSlot : decode ⟨0b01001000#8 ++ 0#20 ++ 0b1111#4, []⟩ = .ok (.sbSlot 15#4) := by decide
theorem test_decode_sbReset : decode ⟨0b01001001#8 ++ 0#24, []⟩ = .ok .sbReset := by decide

/-- V5.1, V5.4: opcodes the map does not have. -/
theorem test_decode_unknown :
    [0x00000000#32, 0x02000000#32, 0x12000000#32, 0x24000000#32, 0x38000000#32, 0x4A000000#32, 0xFF000000#32].map
      (fun w => (decode ⟨w, []⟩).toOption) = List.replicate 7 none := by decide

/-- V5.3, V5.5 to V5.8, V5.10 to V5.12: a must-be-zero bit is 1. -/
theorem test_decode_mustBeZero :
    [0x01000001#32, 0x40000141#32, 0x40010041#32, 0x32020000#32, 0x3501FFFF#32, 0x35000200#32, 0x48000010#32,
      0x20FF0000#32, 0x2002000F#32, 0x31800000#32].map
      (fun w => (decode ⟨w, []⟩).toOption) = List.replicate 10 none := by decide

/-! ### One step from reset, and the gate of an ill-formed state -/

theorem test_step_sysReset :
    respOf (step (State.reset.withFetchWord 32 0x01000000)) = some ⟨.ok, 0#16⟩ := by decide
theorem test_step_illegal :
    respOf (step (State.reset.withFetchWord 32 0x01000001)) = some ⟨.illegalCmd, 0#16⟩ := by decide
theorem test_step_sbSlot :
    respOf (step (State.reset.withFetchWord 32 0x4800000F)) = some ⟨.ok, 0#16⟩ := by decide
/-- R221: an ill-formed state runs no command, but `SYS_RESET` brings it back. -/
theorem test_step_illFormed :
    (match step (presented 0x37000000#32 [] illFormed) with | .refused .illFormedState => true | _ => false) = true ∧
    respOf (step (presented 0x01000000#32 [] illFormed)) = some ⟨.ok, 0#16⟩ := by decide

/-! ### Checksum (V1.x) -/

/-- V1.6, V1.8, V1.11a, V1.11b. -/
theorem test_ckMake :
    [[0xFF#8], List.replicate 31 0xFF#8, (List.range 31).map (BitVec.ofNat 8), List.replicate 32 0#8].map
      (fun p => respOf (exec (.ckMake p) State.reset)) =
    [some ⟨.ok, 1#16⟩, some ⟨.ok, 7#16⟩, some ⟨.ok, 7#16⟩, some ⟨.badOperand, 0#16⟩] := by decide
/-- V1.12, V1.14, V1.15, V1.19, V1.21, V1.22. -/
theorem test_ckVerify :
    [[0x1A#8, 1#8, 2#8, 3#8], [0x1A#8, 9#8, 2#8, 3#8], [0x1A#8, 1#8, 2#8, 7#8], [0x9A#8, 1#8, 2#8, 3#8],
      [0x07#8], []].map (fun f => respOf (exec (.ckVerify f) State.reset)) =
    [some ⟨.ok, 1#16⟩, some ⟨.ok, 1#16⟩, some ⟨.ok, 0#16⟩, some ⟨.ok, 1#16⟩, some ⟨.ok, 0#16⟩,
      some ⟨.badOperand, 0#16⟩] := by decide

/-! ### Byte-ID (V2.x) -/

/-- V2.2, V2.4, V2.9. -/
theorem test_bidMake :
    [respOf (exec (.bidMake 1#1 15#16 [0xFF#8]) State.reset),
     respOf (exec (.bidMake 0#1 0xFFF3#16 [1#8, 2#8, 3#8]) State.reset),
     respOf (exec (.bidMake 0#1 16#16 [1#8]) State.reset)] =
    [some ⟨.ok, 0x00F9#16⟩, some ⟨.ok, 0x001A#16⟩, some ⟨.ok, 0x0007#16⟩] := by decide
/-- V2.14, V2.17. -/
theorem test_bidStream :
    [0xBA#8, 0x7F#8].map (fun h => respOf (exec (.bidStream h) State.reset)) =
    [some ⟨.ok, 1#16⟩, some ⟨.ok, 0#16⟩] := by decide
/-- V2.15, V2.18. -/
theorem test_bidIndex :
    [0xBA#8, 0xFF#8].map (fun h => respOf (exec (.bidIndex h) State.reset)) =
    [some ⟨.ok, 7#16⟩, some ⟨.ok, 15#16⟩] := by decide
/-- V2.16, V2.19. -/
theorem test_bidCk :
    [0xBA#8, 0x80#8].map (fun h => respOf (exec (.bidCk h) State.reset)) =
    [some ⟨.ok, 2#16⟩, some ⟨.ok, 0#16⟩] := by decide

/-! ### Reassembly engine (V3.x) -/

/-- V3.7 step 2, V3.12. -/
theorem test_rbProcess :
    thenStat (.rbProcess [0x16#8, 0x12#8]) .bufB complete = some (0x17#16, 0x8401#16) ∧
    thenStat (.rbProcess [0xBB#8, 0x05#8]) .bufA State.reset = some (0x01#16, 0x8E01#16) := by decide
/-- V3.1 step 1, V3.2, V3.6 steps 3 and 5. -/
theorem test_rxFrame :
    thenStat (.rxFrame [0x1A#8, 1#8, 2#8, 3#8]) .bufA State.reset = some (0x01#16, 0x8603#16) ∧
    thenStat (.rxFrame [0x0C#8, 0xCC#8]) .bufA filling = some (0x04#16, 0x8000#16) ∧
    thenStat (.rxFrame [0x05#8, 0x33#8]) .bufB flushing = some (0x16#16, 0xA001#16) ∧
    thenStat (.rxFrame [0x04#8, 0x44#8]) .bufA bothFlushing = some (0x08#16, 0xE002#16) := by decide
/-- V3.11: the gates. -/
theorem test_rxFrame_gates :
    [[0x1A#8, 1#8, 2#8, 4#8], [0xBA#8, 0x41#8, 0x42#8, 0x43#8], [0xBB#8, 0x41#8, 0x42#8, 0x43#8],
      [0x1A#8, 1#8, 2#8, 0x0B#8], [0x00#8]].map (fun f => respOf (exec (.rxFrame f) State.reset)) =
    [some ⟨.badChecksum, 0#16⟩, some ⟨.stream, 7#16⟩, some ⟨.badChecksum, 0#16⟩, some ⟨.ok, 1#16⟩,
      some ⟨.badOperand, 0#16⟩] := by decide
/-- V3.6 step 12, V5.7. -/
theorem test_rbReady :
    [respOf (exec (.rbReady .bufA) complete), respOf (exec (.rbReady .bufB) complete)] =
    [some ⟨.ok, 0#16⟩, some ⟨.ok, 1#16⟩] := by decide
/-- V3.8. -/
theorem test_rbSwitch :
    thenStat .rbSwitch .bufB State.reset = some (0x11#16, 0x8000#16) ∧
    thenStat .rbSwitch .bufA bothComplete = some (0x00#16, 0xA002#16) := by decide
/-- V3.6 steps 2 and 7, V3.9. -/
theorem test_rbFlushBegin :
    thenStat (.rbFlushBegin .bufA) .bufA complete = some (0x02#16, 0xE002#16) ∧
    [flushing, State.reset, filling].map (fun s => respOf (exec (.rbFlushBegin .bufA) s)) =
      List.replicate 3 (some ⟨.badState, 0#16⟩) := by decide
/-- V3.6 step 10. -/
theorem test_rbRd :
    [0#9, 1#9, 2#9].map (fun a => respOf (exec (.rbRd .bufA a) flushing)) =
    [some ⟨.ok, 0x11#16⟩, some ⟨.ok, 0x22#16⟩, some ⟨.badOperand, 0#16⟩] := by decide
/-- V3.6 step 11. -/
theorem test_rbReset :
    thenStat (.rbReset .bufA) .bufA flushing = some (0x00#16, 0x8000#16) ∧
    thenStat (.rbReset .bufA) .bufB bothFlushing = some (0x00#16, 0x6001#16) := by decide
/-- V5.15. -/
theorem test_rbStat :
    [respOf (exec (.rbStat .bufA) busy), respOf (exec (.rbStat .bufB) busy)] =
    [some ⟨.ok, 0x6001#16⟩, some ⟨.ok, 0x8401#16⟩] := by decide

/-! ### Serial buffer (V4.x) -/

/-- R160's example, V4.2 (the 31st byte and the byte after it). -/
theorem test_sbPut :
    thenSerial (.sbPut 0x41#8) 0#4 State.reset = some (⟨.ok, 0#16⟩, [0x0001#16, 0x0001#16]) ∧
    thenSerial (.sbPut 0x55#8) 0#4 nearlyFull = some (⟨.ok, 0#16⟩, [0x0001#16, 0x001F#16]) ∧
    thenSerial (.sbPut 0x55#8) 1#4 closedSlot = some (⟨.ok, 0#16⟩, [0x0002#16, 0x0001#16]) := by decide
/-- V4.4: overflow in mid-transfer, `SERIAL_SLOTS` = 1. -/
theorem test_sbPut_overflow :
    thenSerial (.sbPut 0xAA#8) 0#4 allFull = some (⟨.overflow, 0#16⟩, [0x0000#16, 0x0000#16]) := by decide
/-- V4.6; V4.1 steps 5 and 7 (two pages: index 1, 31 ones: `ck` 1). -/
theorem test_sbSendFirst :
    thenSerial .sbSendFirst 0#4 queued = some (⟨.ok, 0x0205#16⟩, [0x0101#16, 0x0002#16]) ∧
    respOf (exec .sbSendFirst twoQueued) = some ⟨.ok, 0x1F09#16⟩ ∧
    respOf (exec .sbSendFirst sent) = some ⟨.badState, 0#16⟩ := by decide
/-- V4.1 steps 4 and 11 (last slot, index 0, payload 02: `ck` 6). -/
theorem test_sbSendNext :
    thenSerial .sbSendNext 1#4 twoSentOne = some (⟨.ok, 0x0106#16⟩, [0x0202#16, 0x0001#16]) ∧
    respOf (exec .sbSendNext queued) = some ⟨.badState, 0#16⟩ := by decide
/-- V4.1 step 9: the same header, the read cursor back to 0. -/
theorem test_sbResend :
    thenSerial .sbResend 0#4 delivered = some (⟨.ok, 0x0205#16⟩, [0x0101#16, 0x0002#16]) ∧
    respOf (exec .sbResend queued) = some ⟨.badState, 0#16⟩ := by decide
/-- V4.1 step 15. -/
theorem test_sbRestart :
    thenSerial .sbRestart 0#4 delivered = some (⟨.ok, 0#16⟩, [0x0001#16, 0x0202#16]) := by decide
/-- R168's example, V4.1 step 4. -/
theorem test_sbRd :
    thenSerial .sbRd 0#4 sent = some (⟨.ok, 0x41#16⟩, [0x0101#16, 0x0102#16]) ∧
    respOf (exec .sbRd delivered) = some ⟨.empty, 0#16⟩ ∧
    respOf (exec .sbRd queued) = some ⟨.badState, 0#16⟩ := by decide
/-- V4.7. -/
theorem test_sbPending :
    [State.reset, queued, sent].map (fun s => respOf (exec .sbPending s)) =
    [some ⟨.ok, 0#16⟩, some ⟨.ok, 1#16⟩, some ⟨.ok, 0#16⟩] := by decide
/-- V5.15. -/
theorem test_sbStat : respOf (exec .sbStat busy) = some ⟨.ok, 0x0101#16⟩ := by decide
/-- V5.15, V4.4. -/
theorem test_sbSlot :
    [respOf (exec (.sbSlot 0#4) busy), respOf (exec (.sbSlot 1#4) oneSlot)] =
    [some ⟨.ok, 0x0101#16⟩, some ⟨.badOperand, 0#16⟩] := by decide
/-- V4.1 step 17. -/
theorem test_sbReset : thenSerial .sbReset 0#4 busy = some (⟨.ok, 0#16⟩, [0x0000#16, 0x0000#16]) := by decide

/-! ### System (V5.15) -/

theorem test_sysReset :
    thenStat .sysReset .bufA busy = some (0#16, 0x8000#16) ∧ thenStat .sysReset .bufB busy = some (0#16, 0#16) := by
  decide
theorem test_sysReset_serial :
    thenSerial .sysReset 0#4 busy = some (⟨.ok, 0#16⟩, [0x0000#16, 0x0000#16]) := by decide

/-! ### Witnesses: a concrete state and operands for the hypotheses of every obligation that has some, clause by clause
at the ends of their ranges -/

/-- One command gives this next state. -/
def runsTo (i : Instr) (s : State) : Bool :=
  match exec i s with
  | .next _ => true
  | .fault _ => false
  | .refused _ => false

/-- The next state of one command. -/
def after (i : Instr) (s : State) : State :=
  match exec i s with
  | .next t => t
  | .fault _ => s
  | .refused _ => s

theorem exec_after {i : Instr} {s : State} (h : runsTo i s = true) : exec i s = .next (after i s) := by
  unfold runsTo at h; unfold after; split at h <;> simp_all

theorem execList_after {i : Instr} {s : State} (h : runsTo i s = true) : execList [i] s = .next (after i s) := by
  simp [execList, exec_after h]

theorem witness_CkMakeNegatesByteSum : ones.length ≤ 31 ∧ 31 < (0#8 :: ones).length := by decide
theorem witness_CkVerifyComparesWithHeader : ones.length ≤ 31 ∧ 32 < (0#8 :: 0#8 :: ones).length := by decide
theorem witness_ChecksumLaws :
    [1#8, 2#8].Perm [2#8, 1#8] ∧ (248#8).toNat % 8 = 0 ∧ 30 < ones.length ∧ 3 ≤ 3 ∧ (2 < 8 ∧ 2 < 3) ∧
    (7 < 8 ∧ ¬ 7 < 3) := ⟨by decide, by decide, by decide, by decide, by decide, by decide⟩
theorem witness_MadeHeaderVerifies : ones.length ≤ 31 := by decide
theorem witness_BidMakePacksFields : ones.length ≤ 31 ∧ 31 < (0#8 :: ones).length := by decide
theorem witness_HeaderRoundTrip : 15 ≤ 15 ∧ ck [1#8] = ck [9#8, 0#8] := by decide

theorem witness_EmptyBufferTakesFirstFrame :
    State.reset.Inv ∧ 1 ≤ [1#8].length ∧ ones.length ≤ 31 ∧ (State.reset.rb State.reset.cur).got = false ∧
    (State.reset.rb State.reset.cur).wr.toNat = 0 := ⟨inv_reset, by decide⟩
theorem witness_GapOfOneAppends :
    filling.Inv ∧ (filling.rb filling.cur).got = false ∧ 0 < (filling.rb filling.cur).wr.toNat ∧
    (filling.rb filling.cur).exp.toNat = (hdrIndex 0x17#8).toNat + 1 ∧ 1 ≤ [1#8].length ∧ ones.length ≤ 31 :=
  ⟨inv_filling, by decide⟩
theorem witness_GapOfOneAppends_last :
    fillingLast.Inv ∧ (fillingLast.rb fillingLast.cur).got = false ∧ 0 < (fillingLast.rb fillingLast.cur).wr.toNat ∧
    (fillingLast.rb fillingLast.cur).exp.toNat = (hdrIndex 0x07#8).toNat + 1 := ⟨inv_fillingLast, by decide⟩
theorem witness_OtherGapResetsCurrentBuffer :
    filling.Inv ∧ (filling.rb filling.cur).got = false ∧ 0 < (filling.rb filling.cur).wr.toNat ∧
    (filling.rb filling.cur).exp.toNat ≠ (hdrIndex 0x1F#8).toNat + 1 ∧
    (filling.rb filling.cur).exp.toNat ≠ (hdrIndex 0x04#8).toNat + 1 ∧ 1 ≤ [1#8].length ∧ ones.length ≤ 31 :=
  ⟨inv_filling, by decide⟩
theorem witness_CompleteBufferSwitches :
    complete.Inv ∧ flushing.Inv ∧ (complete.rb complete.cur).got = true ∧ (flushing.rb flushing.cur).got = true ∧
    (complete.rb (otherBuf complete.cur)).wr.toNat = 0 ∧ (complete.rb (otherBuf complete.cur)).fl = false ∧
    (flushing.rb (otherBuf flushing.cur)).wr.toNat = 0 ∧ (flushing.rb (otherBuf flushing.cur)).fl = false :=
  ⟨inv_complete, inv_flushing, by decide⟩
theorem witness_BothBuffersBusyRejectsFrame :
    bothComplete.Inv ∧ bothFlushing.Inv ∧ (bothComplete.rb bothComplete.cur).got = true ∧
    0 < (bothComplete.rb (otherBuf bothComplete.cur)).wr.toNat ∧ (bothFlushing.rb bothFlushing.cur).got = true ∧
    (bothFlushing.rb (otherBuf bothFlushing.cur)).fl = true := ⟨inv_bothComplete, inv_bothFlushing, by decide⟩
theorem witness_OutcomeTagSaysWhatHappened :
    State.reset.Inv ∧ busy.Inv ∧ 1 ≤ [1#8].length ∧ ones.length ≤ 31 := ⟨inv_reset, inv_busy, by decide⟩
theorem witness_RxFrameGatesThenProcesses :
    State.reset.Inv ∧ [0#8].length < 2 ∧ 32 < (0#8 :: 0#8 :: ones).length ∧
    ck [1#8] ≠ hdrCk 0x86#8 ∧
    (ck [1#8] = hdrCk 0x87#8 ∧ 0x80 ≤ (0x87#8).toNat) ∧
    (ck [1#8] = hdrCk 0x7F#8 ∧ (0x7F#8).toNat < 0x80) ∧ 1 ≤ [1#8].length ∧ ones.length ≤ 31 :=
  ⟨inv_reset, by decide⟩

theorem witness_RbReadyTellsEmptyAndNotFlushing : State.reset.Inv ∧ busy.Inv := ⟨inv_reset, inv_busy⟩
theorem witness_RbSwitchMovesOnlyTheSelector :
    State.reset.Inv ∧ (State.reset.rb (otherBuf State.reset.cur)).wr.toNat = 0 ∧
    (State.reset.rb (otherBuf State.reset.cur)).fl = false ∧
    (after .rbSwitch State.reset).cur ≠ State.reset.cur ∧
    (after .rbSwitch (after .rbSwitch State.reset)).cur ≠ (after .rbSwitch State.reset).cur ∧
    runsTo .rbSwitch State.reset = true ∧ runsTo .rbSwitch (after .rbSwitch State.reset) = true :=
  ⟨inv_reset, by decide⟩
theorem witness_RbSwitchMovesOnlyTheSelector_busy :
    bothComplete.Inv ∧ 0 < (bothComplete.rb (otherBuf bothComplete.cur)).wr.toNat ∧
    bothFlushing.Inv ∧ (bothFlushing.rb (otherBuf bothFlushing.cur)).fl = true :=
  ⟨inv_bothComplete, by decide, inv_bothFlushing, by decide⟩
theorem witness_RbFlushBeginMarksCompleteBuffer :
    complete.Inv ∧ ((complete.rb .bufA).got = true ∧ (complete.rb .bufA).fl = false) ∧
    (complete.rb .bufB).got = false ∧ flushing.Inv ∧ (flushing.rb .bufA).fl = true :=
  ⟨inv_complete, by decide, by decide, inv_flushing, by decide⟩
theorem witness_RbRdReadsBelowTheCursor :
    complete.Inv ∧ (1#9).toNat < (complete.rb .bufA).wr.toNat ∧ (complete.rb .bufA).wr.toNat ≤ (2#9).toNat :=
  ⟨inv_complete, by decide⟩
theorem witness_RbStatShowsEveryField : busy.Inv := inv_busy

/-- Sixteen frames, indices 15 down to 0. -/
def sixteen : List DataIn := (List.range 16).map fun k => [BitVec.ofNat 8 (8 * (15 - k)), BitVec.ofNat 8 k]

theorem reset_isIn (b : BufId) : (State.reset.rb b).isIn .empty := by cases b <;> exact ⟨rfl, rfl, rfl, rfl⟩

theorem witness_InOrderFramesMakeThePage :
    State.reset.Inv ∧ (State.reset.rb State.reset.cur).isIn .empty ∧ 1 ≤ sixteen.length ∧ sixteen.length ≤ 16 ∧
    ∀ k, ∀ h : k < sixteen.length, 2 ≤ sixteen[k].length ∧ sixteen[k].length ≤ 32 ∧
      (hdrIndex (frameHeader sixteen[k])).toNat = sixteen.length - 1 - k :=
  ⟨inv_reset, reset_isIn _, by decide, by decide, by decide⟩
theorem witness_InOrderFramesMakeThePage_single :
    State.reset.Inv ∧ (State.reset.rb State.reset.cur).isIn .empty ∧ 1 ≤ [[0x00#8, 1#8]].length ∧
    ∀ k, ∀ h : k < [[0x00#8, 1#8]].length, 2 ≤ [[0x00#8, 1#8]][k].length ∧ [[0x00#8, 1#8]][k].length ≤ 32 ∧
      (hdrIndex (frameHeader [[0x00#8, 1#8]][k])).toNat = [[0x00#8, 1#8]].length - 1 - k :=
  ⟨inv_reset, reset_isIn _, by decide, by decide⟩
theorem filling_only_A (b : BufId) (h : (filling.rb b).isIn .filling) : b = filling.cur := by
  cases b
  · rfl
  · exact absurd h.1 (by decide)
theorem witness_OnlyTheCurrentBufferFills :
    filling.Inv ∧ Instr.rbReady .bufA ≠ .rbSwitch ∧ (∀ b, (filling.rb b).isIn .filling → b = filling.cur) ∧
    exec (.rbReady .bufA) filling = .next (after (.rbReady .bufA) filling) ∧
    ((after (.rbReady .bufA) filling).rb .bufA).isIn .filling :=
  ⟨inv_filling, by decide, filling_only_A, exec_after (by decide), ⟨by decide, by decide, by decide, by decide⟩⟩
theorem witness_BufferMovesThroughItsConditions :
    complete.Inv ∧ exec (.rbFlushBegin .bufA) complete = .next (after (.rbFlushBegin .bufA) complete) ∧
    (complete.rb .bufA).isIn .complete ∧ ((after (.rbFlushBegin .bufA) complete).rb .bufA).isIn .flushing :=
  ⟨inv_complete, exec_after (by decide), ⟨by decide, by decide, by decide, by decide⟩,
    ⟨by decide, by decide, by decide, by decide⟩⟩
theorem witness_FramesNeverTouchACompleteBuffer :
    bothComplete.Inv ∧ (bothComplete.rb .bufA).got = true ∧
    (∀ i ∈ [Instr.rxFrame [0x07#8, 1#8]], Instr.isFrame i = true) ∧
    execList [.rxFrame [0x07#8, 1#8]] bothComplete = .next (after (.rxFrame [0x07#8, 1#8]) bothComplete) :=
  ⟨inv_bothComplete, by decide, by decide, execList_after (by decide)⟩
theorem witness_DrainDeliversThePage : complete.Inv ∧ (complete.rb .bufA).isIn .complete :=
  ⟨inv_complete, ⟨by decide, by decide, by decide, by decide⟩⟩

theorem witness_SbPutStoresTheByteOrOverflows :
    (State.reset.Inv ∧ State.reset.pq.toNat = 0) ∧
    (nearlyFull.Inv ∧ 0 < nearlyFull.pq.toNat ∧
      nearlyFull.slots[nearlyFull.pq.toNat - 1]? = some (slot (List.replicate 30 1#8) 0#5) ∧
      (slot (List.replicate 30 1#8) 0#5).wr.toNat < 31) ∧
    (closedSlot.Inv ∧ 0 < closedSlot.pq.toNat ∧ closedSlot.slots[closedSlot.pq.toNat - 1]? = some (slot ones 0#5) ∧
      (slot ones 0#5).wr.toNat = 31 ∧ closedSlot.pq.toNat < closedSlot.cfg.serialSlots) ∧
    (allFull.Inv ∧ allFull.pq.toNat = allFull.cfg.serialSlots ∧
      allFull.slots[allFull.pq.toNat - 1]? = some (slot ones 0#5)) :=
  ⟨⟨inv_reset, by decide⟩, ⟨inv_nearlyFull, by decide⟩, ⟨inv_closedSlot, by decide⟩, ⟨inv_allFull, by decide⟩⟩
theorem witness_SbPutOverflowEmptiesTheBuffer :
    allFull.Inv ∧ allFull.pq.toNat = allFull.cfg.serialSlots ∧
    allFull.slots[allFull.pq.toNat - 1]? = some (slot ones 0#5) ∧ (slot ones 0#5).wr.toNat = 31 :=
  ⟨inv_allFull, by decide⟩
theorem witness_SbSendFirstFramesSlotZero :
    (queued.Inv ∧ 0 < queued.pq.toNat ∧ queued.ps.toNat = 0) ∧ (State.reset.Inv ∧ State.reset.pq.toNat = 0) ∧
    (sent.Inv ∧ 0 < sent.ps.toNat) :=
  ⟨⟨inv_queued, by decide⟩, ⟨inv_reset, by decide⟩, ⟨inv_sent, by decide⟩⟩
theorem witness_SbSendNextFramesTheNextSlot :
    (twoSentOne.Inv ∧ 1 ≤ twoSentOne.ps.toNat ∧ twoSentOne.ps.toNat < twoSentOne.pq.toNat) ∧
    (twoQueued.Inv ∧ twoQueued.ps.toNat = 0) ∧ (sent.Inv ∧ sent.ps.toNat = sent.pq.toNat) :=
  ⟨⟨inv_twoSentOne, by decide⟩, ⟨inv_twoQueued, by decide⟩, ⟨inv_sent, by decide⟩⟩
theorem witness_SbResendFramesTheTransmitSlot :
    (sent.Inv ∧ 1 ≤ sent.ps.toNat) ∧ (queued.Inv ∧ queued.ps.toNat = 0) :=
  ⟨⟨inv_sent, by decide⟩, ⟨inv_queued, by decide⟩⟩
theorem witness_SbRdDeliversTheNextByte :
    (queued.Inv ∧ queued.ps.toNat = 0) ∧
    (delivered.Inv ∧ 1 ≤ delivered.ps.toNat ∧
      delivered.slots[delivered.ps.toNat - 1]? = some (slot [0x41#8, 0x42#8] 2#5) ∧
      (slot [0x41#8, 0x42#8] 2#5).rd = (slot [0x41#8, 0x42#8] 2#5).wr) ∧
    (sent.Inv ∧ 1 ≤ sent.ps.toNat ∧ sent.slots[sent.ps.toNat - 1]? = some (slot [0x41#8, 0x42#8] 0#5) ∧
      (slot [0x41#8, 0x42#8] 0#5).rd ≠ (slot [0x41#8, 0x42#8] 0#5).wr) :=
  ⟨⟨inv_queued, by decide⟩, ⟨inv_delivered, by decide⟩, ⟨inv_sent, by decide⟩⟩
theorem witness_SbPendingComparesCounters : queued.Inv ∧ sent.Inv := ⟨inv_queued, inv_sent⟩
theorem witness_SbStatShowsCounters : twoSentOne.Inv := inv_twoSentOne
theorem witness_SbSlotShowsCursors :
    (State.reset.Inv ∧ (15#4).toNat < State.reset.cfg.serialSlots) ∧
    (oneSlot.Inv ∧ oneSlot.cfg.serialSlots ≤ (1#4).toNat) := ⟨⟨inv_reset, by decide⟩, ⟨inv_oneSlot, by decide⟩⟩
theorem witness_IngestCutsTheInputIntoPages :
    oneSlot.Inv ∧ oneSlot.pq.toNat = 0 ∧ ones.length ≤ 31 * oneSlot.cfg.serialSlots ∧
    ([] : List Byte).length ≤ 31 * oneSlot.cfg.serialSlots := ⟨inv_oneSlot, by decide⟩
theorem witness_ReadsAfterASendDeliverTheSlot :
    (queued.Inv ∧ 0 < queued.pq.toNat ∧ queued.ps.toNat = 0) ∧
    (twoSentOne.Inv ∧ 1 ≤ twoSentOne.ps.toNat ∧ twoSentOne.ps.toNat < twoSentOne.pq.toNat) ∧
    (sent.Inv ∧ 1 ≤ sent.ps.toNat ∧ 0 + 1 = sent.ps.toNat) :=
  ⟨⟨inv_queued, by decide⟩, ⟨inv_twoSentOne, by decide⟩, ⟨inv_sent, by decide⟩⟩
theorem witness_TransferDeliversTheBytes :
    oneSlot.Inv ∧ oneSlot.pq.toNat = 0 ∧ 1 ≤ [1#8].length ∧ 1 ≤ ones.length ∧
    ones.length ≤ 31 * oneSlot.cfg.serialSlots ∧ oneSlot.cur = .bufA ∧ oneSlot.rb0.isIn .empty ∧
    oneSlot.rb1.isIn .empty :=
  ⟨inv_oneSlot, by decide, by decide, by decide, by decide, rfl, ⟨rfl, rfl, rfl, rfl⟩, ⟨rfl, rfl, rfl, rfl⟩⟩

theorem witness_SysResetClearsEveryRegister :
    (presented 0x01000000#32 [] illFormed).pending = .command ⟨0x01000000#32, []⟩ :: [] := rfl
theorem witness_BothResetsReachTheResetRegisters :
    (∃ rest, ({ busy with pending := [.resetInput] } : State).pending = .resetInput :: rest ∧
      step { busy with pending := [.resetInput] } = .next (hardReset { busy with pending := [] })) ∧
    exec .sysReset busy = .next (after .sysReset busy) := ⟨⟨[], rfl, rfl⟩, exec_after (by decide)⟩
theorem witness_DecodeOfEncodeIsTheCommand : (Instr.rxFrame (List.replicate 63 0#8)).wf = true := by decide
theorem witness_EncodeOfDecodeIsTheWord : decode ⟨0x350101F0#32, [7#8]⟩ = .ok (.rbRd .bufB 496#9) := by decide
theorem witness_WordsOutsideTheTableAreIllegal :
    (presented 0x01000001#32 [] State.reset).Inv ∧
    (presented 0x01000001#32 [] State.reset).pending = .command ⟨0x01000001#32, []⟩ :: [] ∧
    ∀ row ∈ specTable, 0x01000001#32 &&& row.2 ≠ row.1 := ⟨inv_presented inv_reset _ _, rfl, by simp [specTable]⟩
theorem witness_DinIsCheckedOrIgnored :
    31 < (0#8 :: ones).length ∧ ([] : DataIn).length < 1 ∧ [0#8].length < 2 ∧ 32 < (0#8 :: 0#8 :: ones).length ∧
    opcOf 0x46000000#32 ∉ [0x10#8, 0x11#8, 0x20#8, 0x30#8, 0x31#8] := by decide
theorem witness_StepRunsTheDecodedCommand :
    (presented 0x41000000#32 [] queued).regsOk ∧
    (presented 0x41000000#32 [] queued).pending = .command ⟨0x41000000#32, []⟩ :: [] ∧
    decode ⟨0x41000000#32, []⟩ = .ok .sbSendFirst ∧ decodeTableWord 32 0x41000000 = some .sbSendFirst ∧
    State.reset.pending = [] := ⟨inv_queued.regs, rfl, by decide, by decide, rfl⟩
theorem witness_InvariantHoldsAtReset : Config.ok ⟨1, 496⟩ ∧ Config.ok ⟨16, 496⟩ := by decide
theorem step_presented {s : State} (h : s.Inv) {w : CommandWord} {d : DataIn} {i : Instr}
    (hd : decode ⟨w, d⟩ = .ok i) (hr : runsTo i { s with pending := [] } = true) :
    step (presented w d s) = .next (after i { s with pending := [] }) := by
  have hacc : accepts ⟨w, d⟩ { presented w d s with pending := [] } := .inr h.regs
  have e : exec i { presented w d s with pending := [] } = .next (after i { s with pending := [] }) := exec_after hr
  simp only [step, stepPort, presented, takeEvent, runRequest, hd] at *
  rw [if_pos hacc, e]
theorem witness_StepKeepsInvariant :
    (presented 0x41000000#32 [] queued).Inv ∧
    step (presented 0x41000000#32 [] queued) = .next (after .sbSendFirst { queued with pending := [] }) :=
  ⟨inv_presented inv_queued _ _, step_presented inv_queued (by decide) (by decide)⟩
theorem witness_EveryRequestIsAnswered :
    (presented 0xFFFFFFFF#32 (List.replicate 63 0#8) busy).Inv ∧
    (presented 0xFFFFFFFF#32 (List.replicate 63 0#8) busy).pending =
      .command ⟨0xFFFFFFFF#32, List.replicate 63 0#8⟩ :: [] := ⟨inv_presented inv_busy _ _, rfl⟩
theorem witness_StatusSaysWhatHappened :
    (presented 0x00000000#32 [] State.reset).Inv ∧
    (presented 0x00000000#32 [] State.reset).pending = .command ⟨0x00000000#32, []⟩ :: [] ∧
    decode ⟨0x00000000#32, []⟩ = .error (.unknownOpcode 0x00#8) ∧
    (allFull.Inv ∧ exec (.sbPut 0xAA#8) allFull = .next (after (.sbPut 0xAA#8) allFull) ∧
      (after (.sbPut 0xAA#8) allFull).resp = some ⟨.overflow, 0#16⟩) ∧
    (delivered.Inv ∧ exec .sbRd delivered = .next (after .sbRd delivered) ∧
      (after .sbRd delivered).resp = some ⟨.empty, 0#16⟩) :=
  ⟨inv_presented inv_reset _ _, rfl, by decide, ⟨inv_allFull, exec_after (by decide), by decide⟩,
    ⟨inv_delivered, exec_after (by decide), by decide⟩⟩
theorem witness_OnlyListedCommandsWrite :
    busy.Inv ∧ exec .sbStat busy = .next (after .sbStat busy) ∧ Instr.isFrame .sbStat = false ∧
    (∀ v, Instr.sbStat ≠ .sbPut v) ∧ exec (.rxFrame [0x07#8, 1#8]) busy = .next (after (.rxFrame [0x07#8, 1#8]) busy) ∧
    Instr.isFrame (.rxFrame [0x07#8, 1#8]) = true :=
  ⟨inv_busy, exec_after (by decide), rfl, by intro v; simp, exec_after (by decide), rfl⟩
theorem witness_UnitsDoNotInterfere :
    busy.Inv ∧ execList [.sbPut 1#8] busy = .next (after (.sbPut 1#8) busy) := ⟨inv_busy, execList_after (by decide)⟩
theorem witness_ReadsAreIdempotentButSbRd :
    (busy.Inv ∧ Instr.isIdempotent (.rbStat .bufA) = true) ∧
    (sent.Inv ∧ exec .sbRd sent = .next (after .sbRd sent) ∧ (after .sbRd sent).resp = some ⟨.ok, 0x41#16⟩ ∧
      sent.slots[sent.ps.toNat - 1]? = some (slot [0x41#8, 0x42#8] 0#5)) :=
  ⟨⟨inv_busy, rfl⟩, inv_sent, exec_after (by decide), by decide, by decide⟩
theorem witness_ResponseAndQueueAreNoOperands : exec .sbRd sent = .next (after .sbRd sent) := exec_after (by decide)
theorem witness_StepsRunCommandsInOrder :
    busy.Inv ∧ busy.pending = [] ∧ execList [.sbPut 1#8] busy = .next (after (.sbPut 1#8) busy) :=
  ⟨inv_busy, rfl, execList_after (by decide)⟩

end Sys2Proof.Tests
end

section
/-! SUPPORT. What a run of commands keeps, and why no frame changes a complete or flushing buffer (R26, R139, R140,
R222). A buffer that is complete and not `ready` is neither where the frame processor stores a frame nor what it
resets; both conditions speak of that buffer alone, so they hold as long as it is unchanged. -/

namespace Sys2Proof.Machine

/-! ### Runs -/

/-- A property that each command of a list keeps holds after the list when it holds before it. -/
theorem execList_keeps {P : State → Prop} {is : List Instr}
    (hstep : ∀ i ∈ is, ∀ s t, P s → exec i s = .next t → P t) {s t : State} (hs : P s)
    (h : execList is s = .next t) : P t := by
  induction is generalizing s with
  | nil => cases h; exact hs
  | cons i is ih =>
    rw [execList] at h
    split at h
    case h_1 u hu =>
      exact ih (fun j hj => hstep j (.tail i hj)) (hstep i (.head is) s u hs hu) h
    all_goals cases h

/-! ### Frames -/

/-- A frame command either runs the frame processor on a frame of 2 to 32 bytes or changes only the response: the
length check (R133) and the gates (R142). -/
theorem exec_frame_next {i : Instr} {s t : State} (hi : i.isFrame = true) (h : exec i s = .next t) :
    (∃ f, lenIn 2 frameMax f = true ∧ processFrame f s = .next t) ∨ ∃ st r, t = s.respond st r := by
  cases i with
  | rbProcess f =>
    simp only [exec, execRbProcess] at h
    split at h
    case isTrue hlen => exact .inl ⟨f, hlen, h⟩
    case isFalse => exact .inr ⟨_, _, answer_next.1 h⟩
  | rxFrame f =>
    simp only [exec, execRxFrame] at h
    split at h
    case isTrue hlen =>
      split at h
      · exact .inr ⟨_, _, answer_next.1 h⟩
      · split at h
        · exact .inr ⟨_, _, answer_next.1 h⟩
        · exact .inl ⟨f, hlen, h⟩
    case isFalse => exact .inr ⟨_, _, answer_next.1 h⟩
  | _ => cases hi

/-- Of the frame processor's outcomes SWITCH writes only a `ready` buffer, FAIL_SWITCH writes none, and the others
write only a current buffer that is not complete. -/
theorem processFrame_rb_of_got {f : DataIn} {s t : State} {b : BufId} (hgot : (s.rb b).got = true)
    (hready : (s.rb b).ready = false) (h : processFrame f s = .next t) : t.rb b = s.rb b := by
  have hnot_cur (hc : (s.rb s.cur).got = false) : b ≠ s.cur := by
    rintro rfl; simp [hgot] at hc
  rcases processFrame_next h with
    ⟨-, ho, -, rfl⟩ | ⟨-, -, rfl⟩ | ⟨hc, -, -, -, rfl⟩ | ⟨hc, -, -, rfl⟩ | ⟨hc, -, -, rfl⟩
  · have hb : b ≠ otherBuf s.cur := by
      rintro rfl; simp [hready] at ho
    simp [State.setRb_rb, hb]
  · simp
  · simp [State.setRb_rb, hnot_cur hc]
  · simp [State.clearRb_rb, hnot_cur hc]
  · simp [State.setRb_rb, hnot_cur hc]

theorem exec_frame_rb_of_got {i : Instr} {s t : State} {b : BufId} (hi : i.isFrame = true)
    (hgot : (s.rb b).got = true) (hready : (s.rb b).ready = false) (h : exec i s = .next t) : t.rb b = s.rb b := by
  rcases exec_frame_next hi h with ⟨f, -, hf⟩ | ⟨st, r, rfl⟩
  · exact processFrame_rb_of_got hgot hready hf
  · exact State.respond_rb s st r b

/-- RI3: a complete buffer holds bytes, so it is not `ready` for a new page. -/
theorem State.Inv.not_ready_of_got {s : State} (hs : s.Inv) {b : BufId} (hgot : (s.rb b).got = true) :
    (s.rb b).ready = false := by
  obtain ⟨-, -, hri3, -, -⟩ := hs.rb_regs b
  refine Bool.eq_false_iff.2 fun hready => ?_
  obtain ⟨-, hgot', -⟩ := hri3 ((ready_iff _).1 hready).1
  simp [hgot] at hgot'

/-- Settles O24: each frame of the run finds the buffer as it was in `s`, complete and not `ready`, and leaves it so. -/
theorem framesNeverTouchACompleteBuffer : Obligations.FramesNeverTouchACompleteBuffer := by
  unfold Obligations.FramesNeverTouchACompleteBuffer
  intro s t is b hs hgot hframes hrun
  have hready := hs.not_ready_of_got hgot
  refine execList_keeps (P := fun u => u.rb b = s.rb b) (fun i hi u v hu huv => ?_) rfl hrun
  calc v.rb b
    _ = u.rb b := exec_frame_rb_of_got (hframes i hi) (hu ▸ hgot) (hu ▸ hready) huv
    _ = s.rb b := hu

end Sys2Proof.Machine
end

section
/-! SUPPORT. The registers after the reset input, after `SYS_RESET` and in the reset state (R39, R190, R220). -/

namespace Sys2Proof.Machine

/-- A state whose selector, cursors, flags and counters have the reset values of R39; its memories are free. -/
structure State.RegsAtReset (s : State) : Prop where
  cur   : s.cur = .bufA
  rb    : ∀ b, (s.rb b).wr = 0#9 ∧ (s.rb b).exp = 0#4 ∧ (s.rb b).got = false ∧ (s.rb b).fl = false
  pq    : s.pq = 0#5
  ps    : s.ps = 0#5
  slots : ∀ sl ∈ s.slots, sl.wr = 0#5 ∧ sl.rd = 0#5

theorem RadioBuf.regsOk_of_zero {r : RadioBuf}
    (h : r.wr = 0#9 ∧ r.exp = 0#4 ∧ r.got = false ∧ r.fl = false) : r.regsOk := by
  cases r with
  | mk wr exp got fl mem =>
    simp only at h
    obtain ⟨rfl, rfl, rfl, rfl⟩ := h
    exact cleared_regs { wr := 0#9, exp := 0#4, got := false, fl := false, mem := mem }

/-- The reset values satisfy R37 and R38. -/
theorem State.RegsAtReset.regsOk {s : State} (h : s.RegsAtReset) : s.regsOk := by
  have hslot (i : Nat) (hi : i < s.slots.length) : s.slots[i].wr = 0#5 ∧ s.slots[i].rd = 0#5 :=
    h.slots _ (List.getElem_mem hi)
  refine ⟨RadioBuf.regsOk_of_zero (h.rb .bufA), RadioBuf.regsOk_of_zero (h.rb .bufB), ?_, ?_, ?_, ?_, ?_⟩
  · simp [State.SI1, h.pq, h.ps]
  · simp [State.SI2, h.pq]
  · simp [State.SI3, h.pq]
  · intro i hi _
    simp [(hslot i hi).1]
  · intro i hi
    simp [hslot i hi]

theorem regsAtReset_resetWith (c : Config) : (State.resetWith c).RegsAtReset where
  cur := rfl
  rb b := by cases b <;> exact ⟨rfl, rfl, rfl, rfl⟩
  pq := rfl
  ps := rfl
  slots sl hsl := by
    obtain rfl := List.eq_of_mem_replicate hsl
    exact ⟨rfl, rfl⟩

theorem regsAtReset_hardReset (s : State) : (hardReset s).RegsAtReset :=
  have h := regsAtReset_resetWith s.cfg
  ⟨h.cur, h.rb, h.pq, h.ps, h.slots⟩

theorem exec_sysReset (s : State) : exec .sysReset s =
    .next ((((s.setCur .bufA).clearRb .bufA).clearRb .bufB).clearSb.respond .ok 0#16) := rfl

theorem regsAtReset_of_exec_sysReset {s t : State} (h : exec .sysReset s = .next t) : t.RegsAtReset := by
  rw [exec_sysReset] at h
  cases h
  exact
    { cur := by simp
      rb := fun b => by cases b <;> exact ⟨rfl, rfl, rfl, rfl⟩
      pq := by simp
      ps := by simp
      slots := by simp +contextual }

/-- A pulse of the reset input is taken in every state (R220). -/
theorem step_resetInput {s : State} {rest : List PortEvent} (h : s.pending = .resetInput :: rest) :
    step s = .next (hardReset { s with pending := rest }) := by
  simp only [step, stepPort, h, takeEvent]

/-- Settles O41: the three states have their registers at the reset values, which satisfy R37 and R38. -/
theorem bothResetsReachTheResetRegisters : Obligations.BothResetsReachTheResetRegisters := by
  unfold Obligations.BothResetsReachTheResetRegisters
  refine ⟨fun s t h => ?_, fun s rest h => ?_, fun s => ?_, rfl⟩
  · have ht : t.RegsAtReset := by
      rcases h with ⟨rest, hp, hstep⟩ | hexec | rfl
      · rw [step_resetInput hp] at hstep
        cases hstep
        exact regsAtReset_hardReset _
      · exact regsAtReset_of_exec_sysReset hexec
      · exact regsAtReset_resetWith _
    exact ⟨ht.cur, ht.rb, ht.pq, ht.ps, ht.slots, ht.regsOk⟩
  · exact ⟨_, step_resetInput h, rfl, List.length_replicate⟩
  · refine ⟨_, exec_sysReset s, rfl, rfl, ?_⟩
    simp [Function.comp_def]

end Sys2Proof.Machine
end

section
/-! SUPPORT. The header codec is a bijection between headers and their three fields (R81, R120, R125, R126). -/

namespace Sys2Proof.Machine

theorem hdrStream_mk (st : BitVec 1) (ix : Nat) (p : List Byte) : hdrStream (mk st ix p) = st := by
  apply BitVec.eq_of_toNat_eq
  have := ck_lt p
  rw [hdrStream_toNat, mk_toNat]
  omega

theorem hdrIndex_mk_toNat (st : BitVec 1) (ix : Nat) (p : List Byte) :
    (hdrIndex (mk st ix p)).toNat = ix % 16 := by
  have := ck_lt p
  rw [hdrIndex_toNat, mk_toNat]
  omega

theorem hdrCk_mk (st : BitVec 1) (ix : Nat) (p : List Byte) : hdrCk (mk st ix p) = ck p := by
  apply BitVec.eq_of_toNat_eq
  have := ck_lt p
  rw [hdrCk_toNat, mk_toNat]
  omega

/-- The three fields of R81 are the whole header. -/
theorem hdrStream_append_hdrIndex_append_hdrCk (h : Byte) : hdrStream h ++ hdrIndex h ++ hdrCk h = h := by
  apply BitVec.eq_of_toNat_eq
  simp only [toNat_append_add, hdrStream_toNat, hdrIndex_toNat, hdrCk_toNat]
  omega

theorem header_toNat_eq_or (h : Byte) :
    h.toNat = ((hdrStream h).toNat <<< 7) ||| ((hdrIndex h).toNat <<< 3) ||| (hdrCk h).toNat := by
  calc h.toNat
    _ = (hdrStream h ++ hdrIndex h ++ hdrCk h).toNat := by rw [hdrStream_append_hdrIndex_append_hdrCk]
    _ = _ := by
      rw [BitVec.toNat_append, BitVec.toNat_append, Nat.shiftLeft_or_distrib, ← Nat.shiftLeft_add]

/-- The packer reads the payload only through its checksum (R126). -/
theorem mk_eq_of_ck_eq (st : BitVec 1) (ix : Nat) {p q : List Byte} (h : ck p = ck q) :
    mk st ix p = mk st ix q := by
  rw [mk, mk, h]

/-- Settles O7: the fields of a packed header are read off its number; a zero byte more leaves the checksum alone. -/
theorem headerRoundTrip : Obligations.HeaderRoundTrip := by
  unfold Obligations.HeaderRoundTrip
  refine ⟨fun st ix p => ⟨hdrStream_mk st ix p, ?_, hdrCk_mk st ix p, fun hix => ?_⟩, header_toNat_eq_or,
    fun st ix _ _ => mk_eq_of_ck_eq st ix, fun st ix => ⟨[], [0#8], by simp, mk_eq_of_ck_eq st ix (by decide)⟩⟩
  · rw [hdrIndex_mk_toNat]
    exact (Nat.and_two_pow_sub_one_eq_mod ix 4).symm
  · rw [hdrIndex_mk_toNat, Nat.mod_eq_of_lt (by omega)]

end Sys2Proof.Machine
end

section
/-! SUPPORT. The decoder as membership of the opcode map: a word decodes exactly when it matches a row under the mask of
the row's format, and it matches at most one, since every mask keeps the opcode and the opcodes differ (R85, R88,
R89). -/

namespace Sys2Proof

/-- R85's membership test: the word has the row's opcode, and 0 in every bit its format says must be zero. -/
def Row.Matches (row : Row) (w : CommandWord) : Prop := w &&& row.format.mask = matchWord row.opc

theorem opcOf_and (w m : CommandWord) : opcOf (w &&& m) = opcOf w &&& opcOf m := BitVec.extractLsb'_and

theorem opcOf_mask (f : Format) : opcOf f.mask = BitVec.allOnes 8 := by cases f <;> rfl

theorem opcOf_matchWord (opc : BitVec 8) : opcOf (matchWord opc) = opc := by
  rw [← packWord_mask_n, opcOf_and, opcOf_packWord, opcOf_mask, BitVec.and_allOnes]

theorem Row.Matches.opcOf_eq {row : Row} {w : CommandWord} (h : row.Matches w) : opcOf w = row.opc :=
  calc opcOf w
    _ = opcOf (w &&& row.format.mask) := by rw [opcOf_and, opcOf_mask, BitVec.and_allOnes]
    _ = row.opc := by rw [h, opcOf_matchWord]

theorem opcodeTable_opc_nodup : (opcodeTable.map Row.opc).Nodup := by decide

theorem rowOf_eq_some_iff {opc : BitVec 8} {row : Row} :
    rowOf opc = some row ↔ row ∈ opcodeTable ∧ row.opc = opc := by
  constructor
  · intro h
    exact ⟨List.mem_of_find?_eq_some h, by simpa using List.find?_some h⟩
  · rintro ⟨hmem, rfl⟩
    obtain ⟨row', hrow'⟩ : ∃ row', rowOf row.opc = some row' :=
      Option.isSome_iff_exists.1 (List.find?_isSome.2 ⟨row, hmem, by simp⟩)
    have hopc : row'.opc = row.opc := by simpa using List.find?_some hrow'
    rw [hrow', List.inj_on_of_nodup_map opcodeTable_opc_nodup (List.mem_of_find?_eq_some hrow') hmem hopc]

/-- What a decoded command is: the one that the row its word matches builds from the request. -/
theorem decode_eq_ok_iff {r : Request} {i : Instr} :
    decode r = .ok i ↔ ∃ row ∈ opcodeTable, row.Matches r.word ∧ row.build r.word r.din = i := by
  constructor
  · intro h
    unfold decode at h
    split at h
    case h_1 => cases h
    case h_2 row hrow =>
      split at h
      case isTrue hmatch => exact ⟨row, (rowOf_eq_some_iff.1 hrow).1, hmatch, Except.ok.inj h⟩
      case isFalse => cases h
  · rintro ⟨row, hmem, hmatch, rfl⟩
    have hrow : rowOf (opcOf r.word) = some row := rowOf_eq_some_iff.2 ⟨hmem, hmatch.opcOf_eq.symm⟩
    simp only [decode, hrow]
    exact if_pos hmatch

namespace Machine

/-- The table the spec prints is R85's `match` and `mask` of each row of the opcode map. -/
theorem specTable_eq : specTable = opcodeTable.map fun row => (matchWord row.opc, row.format.mask) := by decide

theorem exists_specTable_iff {w : CommandWord} :
    (∃ e ∈ specTable, w &&& e.2 = e.1) ↔ ∃ row ∈ opcodeTable, row.Matches w := by
  simp [specTable_eq, Row.Matches]

theorem exists_decode_eq_ok_iff {r : Request} :
    (∃ i, decode r = .ok i) ↔ ∃ e ∈ specTable, r.word &&& e.2 = e.1 := by
  rw [exists_specTable_iff]
  constructor
  · rintro ⟨i, hi⟩
    obtain ⟨row, hmem, hmatch, -⟩ := decode_eq_ok_iff.1 hi
    exact ⟨row, hmem, hmatch⟩
  · rintro ⟨row, hmem, hmatch⟩
    exact ⟨_, decode_eq_ok_iff.2 ⟨row, hmem, hmatch, rfl⟩⟩

theorem specTable_disjoint :
    specTable.Pairwise (fun x y => ∀ w : CommandWord, ¬ (w &&& x.2 = x.1 ∧ w &&& y.2 = y.1)) := by
  rw [specTable_eq, List.pairwise_map]
  refine (List.pairwise_map.1 opcodeTable_opc_nodup).imp ?_
  rintro x y hne w ⟨hx, hy⟩
  exact hne ((Row.Matches.opcOf_eq hx).symm.trans (Row.Matches.opcOf_eq hy))

/-- A state that satisfies R37 and R38 takes the command presented and runs it (R8, R90). -/
theorem step_command {s : State} (hs : s.regsOk) {r : Request} {rest : List PortEvent}
    (hp : s.pending = .command r :: rest) : step s = runRequest r { s with pending := rest } := by
  simp only [step, stepPort, hp, takeEvent]
  exact if_pos (.inr hs)

theorem runRequest_illegal {r : Request} (h : ¬ ∃ i, decode r = .ok i) (s : State) :
    runRequest r s = .next { s with resp := some ⟨.illegalCmd, 0#16⟩ } := by
  unfold runRequest
  split
  case h_1 => rfl
  case h_2 i hi => exact absurd ⟨i, hi⟩ h

/-- Settles O44: a word decodes when a row of the map matches it, the printed table is the map, and two rows that match
one word have its opcode. -/
theorem wordsOutsideTheTableAreIllegal : Obligations.WordsOutsideTheTableAreIllegal := by
  unfold Obligations.WordsOutsideTheTableAreIllegal
  refine ⟨fun r => exists_decode_eq_ok_iff, specTable_disjoint, fun s r rest hs hp hnone => ?_⟩
  have hdecode : ¬ ∃ i, decode r = .ok i := by
    rw [exists_decode_eq_ok_iff]
    rintro ⟨e, he, hmatch⟩
    exact hnone e he hmatch
  rw [step_command hs.regs hp, runRequest_illegal hdecode]

end Machine

end Sys2Proof
end

section
/-! SUPPORT. `DIN` and `LEN`: a length outside a command's range is refused, and the formats other than V and M do not
read `DIN` (R85, R86). -/

namespace Sys2Proof

/-- Each row of format N, H, B, A or S forms its operands from the word alone (R92). -/
theorem Row.build_ignores_din : ∀ row ∈ opcodeTable, row.format.usesDin = false →
    ∀ (w : CommandWord) (d d' : DataIn), row.build w d = row.build w d' := by
  simp [opcodeTable, systemRows, checksumRows, byteIdRows, reassemblyRows, serialRows, Format.usesDin]

/-- The five commands of formats V and M (R88). -/
theorem Row.opc_of_usesDin : ∀ row ∈ opcodeTable, row.format.usesDin = true →
    row.opc ∈ [0x10#8, 0x11#8, 0x20#8, 0x30#8, 0x31#8] := by decide

theorem decode_ignores_din {w : CommandWord} (h : opcOf w ∉ [0x10#8, 0x11#8, 0x20#8, 0x30#8, 0x31#8])
    (d d' : DataIn) : decode ⟨w, d⟩ = decode ⟨w, d'⟩ := by
  cases hrow : rowOf (opcOf w) with
  | none => simp only [decode, hrow]
  | some row =>
    obtain ⟨hmem, hopc⟩ := rowOf_eq_some_iff.1 hrow
    have hdin : row.format.usesDin = false :=
      Bool.eq_false_iff.2 fun huses => h (hopc ▸ Row.opc_of_usesDin row hmem huses)
    simp only [decode, hrow, Row.build_ignores_din row hmem hdin w d d']

namespace Machine

/-- The form of every command with a range for `LEN`: out of range, it answers `BAD_OPERAND` and changes nothing. -/
theorem badOperand_of_len {lo hi : Nat} {d : DataIn} (h : d.length < lo ∨ hi < d.length) (s : State) (x : Result) :
    (if lenIn lo hi d = true then x else refuse s .badOperand) =
      .next { s with resp := some ⟨.badOperand, 0#16⟩ } := by
  refine if_neg fun hlen => ?_
  have := lenIn_iff.1 hlen
  omega

/-- Settles O46: the length check of each command that reads `DIN`, and the rows of the map that build without it. -/
theorem dinIsCheckedOrIgnored : Obligations.DinIsCheckedOrIgnored := by
  unfold Obligations.DinIsCheckedOrIgnored
  refine ⟨fun f => ?_, fun s st ix d h => ?_, fun s d h => ?_, fun s d h => ?_,
    fun w d d' h => decode_ignores_din h d d'⟩
  · obtain ⟨hmem, -⟩ := (rowOf_eq_some_iff (opc := 0x30#8)).1 rfl
    have hmatch : 0x30000000#32 &&& Format.mask .v = matchWord 0x30#8 := by decide
    exact decode_eq_ok_iff.2 ⟨_, hmem, hmatch, rfl⟩
  · exact ⟨badOperand_of_len (.inr h) s _, badOperand_of_len (.inr h) s _⟩
  · exact badOperand_of_len h s _
  · exact ⟨badOperand_of_len h s _, badOperand_of_len h s _⟩

end Machine

end Sys2Proof
end

section
/-! SUPPORT. The checksum as a sum in the integers modulo 8: a byte contributes its low three bits, so that order and
grouping do not matter and a change of one byte shows exactly when it changes those bits (R110, R112). -/

namespace Sys2Proof.Machine

/-! ### The byte sum and the checksum as list sums -/

theorem byteSum_eq_sum (p : List Byte) : byteSum p = (p.map BitVec.toNat).sum := by
  induction p with
  | nil => rfl
  | cons v p ih => rw [byteSum, ih, List.map_cons, List.sum_cons]

theorem ck_toNat_eq_sum (p : List Byte) : (ck p).toNat = (8 - (p.map BitVec.toNat).sum % 8) % 8 := by
  rw [ck_toNat, byteSum_eq_sum]

theorem ck_eq_neg_ofNat (p : List Byte) : ck p = -BitVec.ofNat 3 (byteSum p) := by
  rw [ck, BitVec.ofInt_neg, BitVec.ofInt_natCast]

theorem ofNat_byteSum (p : List Byte) : BitVec.ofNat 3 (byteSum p) = (p.map (BitVec.setWidth 3)).sum := by
  induction p with
  | nil => rfl
  | cons v p ih => rw [byteSum, BitVec.ofNat_add, BitVec.ofNat_toNat, ih, List.map_cons, List.sum_cons]

/-- The checksum is the negated sum, modulo 8, of the low three bits of the bytes; order and grouping are then those of a
sum. -/
theorem ck_eq_neg_sum (p : List Byte) : ck p = -(p.map (BitVec.setWidth 3)).sum := by
  rw [ck_eq_neg_ofNat, ofNat_byteSum]

theorem ck_append (p q : List Byte) : ck (p ++ q) = ck p + ck q := by
  simp only [ck_eq_neg_sum, List.map_append, List.sum_append, neg_add]

theorem ck_cons (v : Byte) (p : List Byte) : ck (v :: p) = -v.setWidth 3 + ck p := by
  simp only [ck_eq_neg_sum, List.map_cons, List.sum_cons, neg_add]

theorem ck_perm {p q : List Byte} (h : p.Perm q) : ck p = ck q := by
  rw [ck_eq_neg_sum, ck_eq_neg_sum, (h.map _).sum_eq]

/-! ### Other readings of the bytes -/

theorem and_seven_toNat (v : Byte) : (v &&& 7#8).toNat = v.toNat % 8 := by
  rw [BitVec.toNat_and]
  exact Nat.and_two_pow_sub_one_eq_mod v.toNat 3

/-- R112, law 1: only the low three bits of each byte count. -/
theorem ck_toNat_eq_sum_low_bits (p : List Byte) :
    (ck p).toNat = (8 - (p.map fun v => (v &&& 7#8).toNat).sum % 8) % 8 := by
  simp only [ck_toNat_eq_sum, and_seven_toNat]
  rw [List.sum_nat_mod, List.map_map]
  rfl

/-- R112, law 1: an accumulator of three bits or more is wide enough. -/
theorem ck_eq_setWidth_neg (p : List Byte) {w : Nat} (h : 3 ≤ w) :
    ck p = (-BitVec.ofNat w (p.map BitVec.toNat).sum).setWidth 3 := by
  rw [BitVec.setWidth_neg_of_le h, BitVec.setWidth_ofNat_of_le h, ck_eq_neg_ofNat, byteSum_eq_sum]

/-- The signed and the unsigned reading of a byte differ by 256, a multiple of 8. -/
theorem ofInt_toInt_byte (v : Byte) : BitVec.ofInt 3 v.toInt = v.setWidth 3 :=
  BitVec.signExtend_eq_setWidth_of_le v (by decide)

/-- R112, law 1: reading the bytes as signed gives the same checksum. -/
theorem ck_eq_ofInt_neg_sum_toInt (p : List Byte) : ck p = BitVec.ofInt 3 (-(p.map BitVec.toInt).sum) := by
  induction p with
  | nil => rfl
  | cons v p ih =>
    rw [ck_cons, ih, List.map_cons, List.sum_cons, neg_add, BitVec.ofInt_add, BitVec.ofInt_neg (n := v.toInt),
      ofInt_toInt_byte]

/-! ### Which changes are seen -/

theorem setWidth_three_eq_iff {v u : Byte} :
    v.setWidth 3 = u.setWidth 3 ↔ ((v.toNat : Int) - (u.toNat : Int)) % 8 = 0 := by
  rw [← BitVec.toNat_inj, BitVec.toNat_setWidth, BitVec.toNat_setWidth]
  omega

/-- Replacing one byte changes the sum by the difference of the two bytes. -/
theorem ck_set {p : List Byte} {k : Nat} (h : k < p.length) (v : Byte) :
    ck (p.set k v) = ck p + (p[k].setWidth 3 - v.setWidth 3) := by
  rw [ck_eq_neg_sum, ck_eq_neg_sum, List.map_set, List.sum_set', dif_pos (by simpa using h), List.getElem_map]
  ring

/-- R112, law 7: a change of one byte is missed exactly when it keeps the low three bits of the byte. -/
theorem ck_set_eq_iff {p : List Byte} {k : Nat} (h : k < p.length) (v : Byte) :
    ck (p.set k v) = ck p ↔ v.setWidth 3 = p[k].setWidth 3 := by
  rw [ck_set h, add_eq_left, sub_eq_zero, eq_comm]

/-- R112, law 6: a byte that is a multiple of 8 is invisible. -/
theorem ck_append_cons_of_mod_eight (p q : List Byte) {v : Byte} (h : v.toNat % 8 = 0) :
    ck (p ++ v :: q) = ck (p ++ q) := by
  have hv : v.setWidth 3 = 0#3 := BitVec.eq_of_toNat_eq (by simpa using h)
  rw [ck_append, ck_append, ck_cons, hv]
  simp

theorem not_setWidth_three_ne (v : Byte) : (~~~v).setWidth 3 ≠ v.setWidth 3 := by
  rw [Ne, setWidth_three_eq_iff, BitVec.toNat_not]
  omega

/-- Flipping one bit changes the low three bits exactly when the bit is one of them. -/
theorem xor_twoPow_setWidth_three_ne_iff (v : Byte) {i : Nat} (hi : i < 8) :
    (v ^^^ BitVec.twoPow 8 i).setWidth 3 ≠ v.setWidth 3 ↔ i < 3 := by
  have hbit : ∀ i < 8, (BitVec.twoPow 8 i).setWidth 3 ≠ 0#3 ↔ i < 3 := by decide
  have hxor := BitVec.xor_right_inj (x := (BitVec.twoPow 8 i).setWidth 3) (y := 0#3) (v.setWidth 3)
  rw [BitVec.xor_zero] at hxor
  rw [← hbit i hi, BitVec.setWidth_xor, Ne, Ne, hxor]

/-- Settles O3: each law read off the checksum as a sum of low three bits. -/
theorem checksumLaws : Obligations.ChecksumLaws := by
  unfold Obligations.ChecksumLaws
  refine ⟨ck_toNat_eq_sum_low_bits, fun p _ => ck_eq_setWidth_neg p, ck_eq_ofInt_neg_sum_toInt, rfl, fun _ _ => ck_perm,
    fun p q => ?_, fun p => ?_, fun p q _ => ck_append_cons_of_mod_eight p q, fun p k h v => ?_, fun p k h => ?_,
    fun p k h i hi => ?_⟩
  · rw [ck_append, BitVec.toNat_add]
  · rw [ck_toNat_eq_sum]
    omega
  · rw [Ne, ck_set_eq_iff h, setWidth_three_eq_iff]
  · rw [Ne, ck_set_eq_iff h]
    exact not_setWidth_three_ne _
  · rw [Ne, ck_set_eq_iff h]
    exact xor_twoPow_setWidth_three_ne_iff _ hi

end Sys2Proof.Machine
end

section
/-! SUPPORT. The two commands of the checksum unit: what each answers for a `LEN` in its range (R111, R114), and what
`CK_VERIFY` answers for a header `BID_MAKE` packs (R115). -/

namespace Sys2Proof

theorem Row.matches_matchWord : ∀ row ∈ opcodeTable, row.Matches (matchWord row.opc) := by
  unfold Row.Matches
  decide

/-- A word with the opcode of a row and zeros elsewhere is that row's command (R85, R90). -/
theorem decode_matchWord {opc : BitVec 8} {row : Row} (h : rowOf opc = some row) (d : DataIn) :
    decode ⟨matchWord opc, d⟩ = .ok (row.build (matchWord opc) d) := by
  obtain ⟨hmem, rfl⟩ := rowOf_eq_some_iff.1 h
  exact decode_eq_ok_iff.2 ⟨row, hmem, Row.matches_matchWord row hmem, rfl⟩

namespace Machine

theorem exec_ckMake_of_len {p : DataIn} (h : p.length ≤ 31) (s : State) :
    exec (.ckMake p) s = .next { s with resp := some ⟨.ok, (ck p).setWidth 16⟩ } :=
  if_pos (lenIn_iff.2 ⟨p.length.zero_le, h⟩)

theorem exec_ckVerify_of_len {p : List Byte} (h : p.length ≤ 31) (hdr : Byte) (s : State) :
    exec (.ckVerify (hdr :: p)) s =
      .next { s with resp := some ⟨.ok, if ck p = hdrCk hdr then 1#16 else 0#16⟩ } := by
  have hlen : lenIn 1 frameMax (hdr :: p) = true := lenIn_iff.2 ⟨Nat.succ_pos _, Nat.succ_le_succ h⟩
  calc exec (.ckVerify (hdr :: p)) s
    _ = answer s .ok (resFlag (decide (ck p = hdrCk hdr))) := if_pos hlen
    _ = _ := by simp [answer, State.respond, resFlag]

theorem exec_ckVerify_of_bad_len {f : DataIn} (h : f.length < 1 ∨ 32 < f.length) (s : State) :
    exec (.ckVerify f) s = .next { s with resp := some ⟨.badOperand, 0#16⟩ } :=
  badOperand_of_len h s _

/-- Settles O1: the word is its row's opcode and zeros, and `RES` holds the checksum as a number. -/
theorem ckMakeNegatesByteSum : Obligations.CkMakeNegatesByteSum := by
  unfold Obligations.CkMakeNegatesByteSum
  refine ⟨ck_toNat_eq_sum, decode_matchWord (opc := 0x10#8) rfl, fun s p h => ?_,
    fun s p h => badOperand_of_len (.inr h) s _⟩
  rw [exec_ckMake_of_len h, ← ck_toNat_eq_sum, BitVec.ofNat_toNat]

/-- Settles O2: the header's checksum field is its number modulo 8. -/
theorem ckVerifyComparesWithHeader : Obligations.CkVerifyComparesWithHeader := by
  unfold Obligations.CkVerifyComparesWithHeader
  refine ⟨decode_matchWord (opc := 0x11#8) rfl, fun s h p hp => ?_, exec_ckVerify_of_bad_len (.inl Nat.one_pos),
    fun s f hf => exec_ckVerify_of_bad_len (.inr hf) s⟩
  simp only [exec_ckVerify_of_len hp, ← hdrCk_toNat, BitVec.toNat_inj]

/-- Settles O4: the checksum field of a packed header is the checksum of its payload. -/
theorem madeHeaderVerifies : Obligations.MadeHeaderVerifies := by
  unfold Obligations.MadeHeaderVerifies
  intro s st ix p hp
  rw [exec_ckVerify_of_len hp, hdrCk_mk, if_pos rfl]

end Machine

end Sys2Proof
end

section
/-! SUPPORT. The Byte-ID commands: the command word as R85's `match` with the operands or-ed in, what the decoder makes
of it, and the number each command answers (R120 to R124). -/

namespace Sys2Proof

/-! ### Words with operands -/

theorem matchWord_getLsbD (opc : BitVec 8) {i : Nat} (hi : i < 32) :
    (matchWord opc).getLsbD i = if i < 24 then false else opc.getLsbD (i - 24) := by
  by_cases h : i < 24
  · simp [matchWord, h]
  · simp [matchWord, h, hi]

/-- The fields of a command word are disjoint, so packing them is or-ing them into R85's `match` (R84). -/
theorem packWord_eq_or (opc : BitVec 8) (b : BitVec 1) (arg : BitVec 16) :
    packWord opc b arg = matchWord opc ||| (b.setWidth 32 <<< 16) ||| arg.setWidth 32 := by
  apply BitVec.eq_of_getLsbD_eq
  intro i hi
  rw [packWord_getLsbD, BitVec.getLsbD_or, BitVec.getLsbD_or, matchWord_getLsbD opc hi, BitVec.getLsbD_shiftLeft,
    BitVec.getLsbD_setWidth, BitVec.getLsbD_setWidth]
  by_cases harg : i < 16
  · simp [harg, hi, show i < 24 by omega]
  · have harg0 : arg.getLsbD i = false := BitVec.getLsbD_of_ge arg i (by omega)
    by_cases hb : i < 17
    · simp [harg, hb, hi, harg0, show i < 24 by omega, show i - 16 < 32 by omega]
    · have hb0 : b.getLsbD (i - 16) = false := BitVec.getLsbD_of_ge b _ (by omega)
      simp [harg, hb, harg0, hb0]

/-- A packed word whose must-be-zero bits are 0 is the command of its opcode's row (R90, R92). -/
theorem decode_packWord {opc : BitVec 8} {b : BitVec 1} {arg : BitVec 16} {row : Row} (hrow : rowOf opc = some row)
    (hmask : packWord opc b arg &&& row.format.mask = matchWord opc) (d : DataIn) :
    decode ⟨packWord opc b arg, d⟩ = .ok (row.build (packWord opc b arg) d) := by
  obtain ⟨hmem, rfl⟩ := rowOf_eq_some_iff.1 hrow
  exact decode_eq_ok_iff.2 ⟨row, hmem, hmask, rfl⟩

/-- A word of format H is its row's command on the byte in bits 7:0 (R85, R92). -/
theorem decode_formatH {opc : BitVec 8} {mkInstr : Byte → Instr}
    (hrow : rowOf opc = some ⟨opc, .h, fun w _ => mkInstr (opV w)⟩) (v : Byte) (d : DataIn) :
    decode ⟨matchWord opc ||| v.setWidth 32, d⟩ = .ok (mkInstr v) := by
  have hword : matchWord opc ||| v.setWidth 32 = packWord opc 0#1 (v.setWidth 16) := by
    simp [packWord_eq_or]
  rw [hword, decode_packWord hrow (packWord_mask_h opc v)]
  simp only [opV_packWord]

/-- A word of format M is its row's command on bit 16, bits 15:0 and `DIN` (R85, R92). -/
theorem decode_formatM {opc : BitVec 8} {mkInstr : BitVec 1 → BitVec 16 → DataIn → Instr}
    (hrow : rowOf opc = some ⟨opc, .m, fun w d => mkInstr (bitB w) (opIx w) d⟩) (b : BitVec 1) (arg : BitVec 16)
    (d : DataIn) :
    decode ⟨matchWord opc ||| (b.setWidth 32 <<< 16) ||| arg.setWidth 32, d⟩ = .ok (mkInstr b arg d) := by
  rw [← packWord_eq_or, decode_packWord hrow (packWord_mask_m opc b arg)]
  simp only [bitB_packWord, opIx_packWord]

namespace Machine

/-! ### The packer -/

/-- R120 as the spec writes it: a packed header has the fields that were packed, and a header is the or of its fields. -/
theorem mk_toNat_eq_or (st : BitVec 1) (ix : Nat) (p : List Byte) :
    (mk st ix p).toNat = (st.toNat <<< 7) ||| ((ix &&& 0xF) <<< 3) ||| (ck p).toNat := by
  have hix : (ix &&& 0xF) = ix % 16 := Nat.and_two_pow_sub_one_eq_mod ix 4
  rw [header_toNat_eq_or, hdrStream_mk, hdrIndex_mk_toNat, hdrCk_mk, hix]

theorem exec_bidMake_of_len {p : DataIn} (h : p.length ≤ 31) (st : BitVec 1) (ix : BitVec 16) (s : State) :
    exec (.bidMake st ix p) s = .next { s with resp := some ⟨.ok, (mk st ix.toNat p).setWidth 16⟩ } :=
  if_pos (lenIn_iff.2 ⟨p.length.zero_le, h⟩)

/-- Settles O5: the header as an or and as a number, the word of format M, and `RES` holding the header's number. -/
theorem bidMakePacksFields : Obligations.BidMakePacksFields := by
  unfold Obligations.BidMakePacksFields
  refine ⟨fun st ix p => ⟨mk_toNat_eq_or st ix p, mk_toNat st ix p⟩, decode_formatM (opc := 0x20#8) rfl,
    fun s st ix p h => ?_, fun s st ix p h => badOperand_of_len (.inr h) s _⟩
  rw [exec_bidMake_of_len h, ← mk_toNat, BitVec.ofNat_toNat]

/-! ### The accessors -/

theorem exec_bidStream (h : Byte) (s : State) :
    exec (.bidStream h) s = .next { s with resp := some ⟨.ok, (hdrStream h).setWidth 16⟩ } := rfl

theorem exec_bidIndex (h : Byte) (s : State) :
    exec (.bidIndex h) s = .next { s with resp := some ⟨.ok, (hdrIndex h).setWidth 16⟩ } := rfl

theorem exec_bidCk (h : Byte) (s : State) :
    exec (.bidCk h) s = .next { s with resp := some ⟨.ok, (hdrCk h).setWidth 16⟩ } := rfl

/-- The stream flag is the header's comparison with 0x80 (R122). -/
theorem hdrStream_eq_ite (h : Byte) : hdrStream h = if 0x80 ≤ h.toNat then 1#1 else 0#1 := by
  apply BitVec.eq_of_toNat_eq
  have := h.isLt
  rw [hdrStream_toNat]
  split
  · change h.toNat / 128 = 1
    omega
  · change h.toNat / 128 = 0
    omega

/-- The index by mask and shift (R123). -/
theorem div_eight_mod_sixteen_eq_mask_shift (n : Nat) : n / 8 % 16 = (n &&& 0x78) >>> 3 := by
  calc n / 8 % 16
    _ = (n >>> 3) &&& (0x78 >>> 3) := by
      rw [Nat.shiftRight_eq_div_pow]
      exact (Nat.and_two_pow_sub_one_eq_mod _ 4).symm
    _ = (n &&& 0x78) >>> 3 := Nat.shiftRight_and_distrib.symm

/-- Settles O6: the words of format H, and each field as a number of the header. -/
theorem bidAccessorsExtractFields : Obligations.BidAccessorsExtractFields := by
  unfold Obligations.BidAccessorsExtractFields
  refine ⟨decode_formatH (opc := 0x21#8) rfl, decode_formatH (opc := 0x22#8) rfl, decode_formatH (opc := 0x23#8) rfl,
    fun s h => ?_, fun s h => ⟨?_, div_eight_mod_sixteen_eq_mask_shift h.toNat⟩,
    fun s h => ⟨?_, (Nat.and_two_pow_sub_one_eq_mod h.toNat 3).symm⟩⟩
  · rw [exec_bidStream, hdrStream_eq_ite, apply_ite (BitVec.setWidth 16)]
    rfl
  · rw [exec_bidIndex, ← hdrIndex_toNat, BitVec.ofNat_toNat]
  · rw [exec_bidCk, ← hdrCk_toNat, BitVec.ofNat_toNat]

end Machine

end Sys2Proof
end

section
/-! SUPPORT. The words of formats B and A, and the engine's commands that name a buffer: `RB_READY`, `RB_SWITCH`,
`RB_FLUSH_BEGIN`, `RB_RESET`, `RB_RD` and `RB_STAT` (R143 to R148). -/

namespace Sys2Proof

/-- A word of format B is its row's command on the buffer in bit 16 (R85, R92). -/
theorem decode_formatB {opc : BitVec 8} {mkInstr : BufId → Instr}
    (hrow : rowOf opc = some ⟨opc, .b, fun w _ => mkInstr (opB w)⟩) (b : BufId) (d : DataIn) :
    decode ⟨matchWord opc ||| (b.bit.setWidth 32 <<< 16), d⟩ = .ok (mkInstr b) := by
  have hword : matchWord opc ||| (b.bit.setWidth 32 <<< 16) = packWord opc b.bit 0#16 := by
    simp [packWord_eq_or]
  rw [hword, decode_packWord hrow (packWord_mask_b opc b.bit)]
  simp only [opB_packWord]

/-- A word of format A is its row's command on the buffer in bit 16 and the offset in bits 8:0 (R85, R92). -/
theorem decode_formatA {opc : BitVec 8} {mkInstr : BufId → BitVec 9 → Instr}
    (hrow : rowOf opc = some ⟨opc, .a, fun w _ => mkInstr (opB w) (opA w)⟩) (b : BufId) (a : BitVec 9) (d : DataIn) :
    decode ⟨matchWord opc ||| (b.bit.setWidth 32 <<< 16) ||| a.setWidth 32, d⟩ = .ok (mkInstr b a) := by
  have hword : matchWord opc ||| (b.bit.setWidth 32 <<< 16) ||| a.setWidth 32 =
      packWord opc b.bit (a.setWidth 16) := by
    rw [packWord_eq_or, BitVec.setWidth_setWidth (by decide)]
  rw [hword, decode_packWord hrow (packWord_mask_a opc b.bit a)]
  simp only [opB_packWord, opA_packWord]

namespace Machine

theorem bit_otherBuf_toNat (b : BufId) : (otherBuf b).bit.toNat = 1 - b.bit.toNat := by cases b <;> rfl

theorem not_ready_iff (r : RadioBuf) : r.ready = false ↔ 0 < r.wr.toNat ∨ r.fl = true := by
  rw [Bool.eq_false_iff, Ne, ready_iff, Nat.pos_iff_ne_zero, not_and_or, Bool.not_eq_false]

/-- RI5 with R7: no buffer holds more bytes than a page of 16 frames, and `RADIO_BUF_BYTES` is at least that. -/
theorem State.Inv.wr_le {s : State} (hs : s.Inv) (b : BufId) :
    (s.rb b).wr.toNat ≤ 496 ∧ 496 ≤ s.cfg.radioBufBytes := by
  obtain ⟨-, -, -, -, hri5⟩ := hs.rb_regs b
  have hcfg := hs.shape.1.2.2
  simp only [RadioBuf.RI5, payloadMax_eq, pageFramesMax_eq] at hri5 hcfg
  omega

/-! ### `RB_READY` and `RB_SWITCH` -/

/-- Settles O15: `RES` is the flag `ready`, which is what R143 says. -/
theorem rbReadyTellsEmptyAndNotFlushing : Obligations.RbReadyTellsEmptyAndNotFlushing := by
  unfold Obligations.RbReadyTellsEmptyAndNotFlushing
  refine ⟨decode_formatB (opc := 0x32#8) rfl, fun s b _ => ?_⟩
  simp only [← ready_iff]
  rfl

theorem exec_rbSwitch_of_ready {s : State} (h : (s.rb (otherBuf s.cur)).ready = true) :
    exec .rbSwitch s = answer (s.setCur (otherBuf s.cur)) .ok (resSwitch (otherBuf s.cur) true) := if_pos h

theorem exec_rbSwitch_of_not_ready {s : State} (h : (s.rb (otherBuf s.cur)).ready = false) :
    exec .rbSwitch s = answer s .ok (resSwitch s.cur false) := if_neg (Bool.eq_false_iff.1 h)

/-- Settles O16: by whether the other buffer is `ready`; a selector of two values that moves twice is back. -/
theorem rbSwitchMovesOnlyTheSelector : Obligations.RbSwitchMovesOnlyTheSelector := by
  unfold Obligations.RbSwitchMovesOnlyTheSelector
  refine ⟨decode_matchWord (opc := 0x33#8) rfl, fun s _ hwr hfl => ?_, fun s _ hbusy => ?_,
    fun s t u _ _ _ ht hu => ?_⟩
  · rw [exec_rbSwitch_of_ready ((ready_iff _).2 ⟨hwr, hfl⟩), resSwitch_eq, bit_otherBuf_toNat, Nat.add_comm]
    rfl
  · rw [exec_rbSwitch_of_not_ready ((not_ready_iff _).2 hbusy), resSwitch_eq]
    rfl
  · rw [eq_otherBuf_of_ne hu, eq_otherBuf_of_ne ht, otherBuf_otherBuf]

/-! ### `RB_FLUSH_BEGIN` and `RB_RESET` -/

theorem exec_rbFlushBegin_of_complete {s : State} {b : BufId} (hgot : (s.rb b).got = true)
    (hfl : (s.rb b).fl = false) :
    exec (.rbFlushBegin b) s =
      answer (s.setRb b { s.rb b with fl := true }) .ok ((s.rb b).wr.setWidth 16) :=
  if_neg (by simp [hgot, hfl])

/-- Settles O17: the one register written is `fl` of the buffer named. -/
theorem rbFlushBeginMarksCompleteBuffer : Obligations.RbFlushBeginMarksCompleteBuffer := by
  unfold Obligations.RbFlushBeginMarksCompleteBuffer
  refine ⟨decode_formatB (opc := 0x34#8) rfl, fun s b _ hgot hfl => ?_, fun s b _ h => if_pos h⟩
  refine ⟨_, exec_rbFlushBegin_of_complete hgot hfl, ?_⟩
  simp [sameSerial, sameHost]

theorem exec_rbReset (b : BufId) (s : State) : exec (.rbReset b) s = answer (s.clearRb b) .ok 0#16 := rfl

/-- Settles O18: the buffer named is cleared, and its memory kept. -/
theorem rbResetClearsOneBuffer : Obligations.RbResetClearsOneBuffer := by
  unfold Obligations.RbResetClearsOneBuffer
  refine ⟨decode_formatB (opc := 0x36#8) rfl, fun s b => ⟨_, exec_rbReset b s, ?_⟩⟩
  simp [sameSerial, sameHost, RadioBuf.cleared]

/-! ### `RB_RD` and `RB_STAT` -/

/-- Below the write cursor a read delivers the byte the memory holds (R69, R147). -/
theorem exec_rbRd_of_lt {s : State} (hs : s.Inv) {b : BufId} {a : BitVec 9} (ha : a.toNat < (s.rb b).wr.toNat)
    {v : Byte} (hv : Memory.read (s.rb b).mem a.toNat = some v) :
    exec (.rbRd b a) s = .next { s with resp := some ⟨.ok, BitVec.ofNat 16 v.toNat⟩ } := by
  obtain ⟨hwr, hsize⟩ := hs.wr_le b
  have hload : load s.cfg.radioBufBytes (s.rb b).mem a.toNat = .ok v := load_ok.2 ⟨by omega, hv⟩
  have hexec : exec (.rbRd b a) s = answer s .ok (resZext v) := by
    simp only [exec, execRbRd, if_neg (Nat.not_le.2 ha), hload]
  rw [hexec, BitVec.ofNat_toNat]
  rfl

/-- Settles O19: the invariant has a byte at every offset below the write cursor. -/
theorem rbRdReadsBelowTheCursor : Obligations.RbRdReadsBelowTheCursor := by
  unfold Obligations.RbRdReadsBelowTheCursor
  refine ⟨decode_formatA (opc := 0x35#8) rfl, fun s b a hs ha => ?_, fun s b a _ ha => if_pos ha⟩
  obtain ⟨-, -, hpresent⟩ := hs.rb_mem b
  obtain ⟨v, hv⟩ := Option.isSome_iff_exists.1 (hpresent _ ha)
  exact ⟨v, hv, exec_rbRd_of_lt hs ha hv⟩

/-- The fields of `RB_STAT`'s result lie side by side (R148). -/
theorem resStat_toNat_eq_or (isCur : Bool) (r : RadioBuf) :
    (resStat isCur r).toNat = (isCur.toNat <<< 15) ||| (r.fl.toNat <<< 14) ||| (r.got.toNat <<< 13) |||
      (r.exp.toNat <<< 9) ||| r.wr.toNat := by
  simp only [resStat, BitVec.toNat_append, BitVec.toNat_ofBool, Nat.shiftLeft_or_distrib, ← Nat.shiftLeft_add]

/-- Settles O20: `RES` is its fields side by side. -/
theorem rbStatShowsEveryField : Obligations.RbStatShowsEveryField := by
  unfold Obligations.RbStatShowsEveryField
  refine ⟨decode_formatB (opc := 0x37#8) rfl, fun s b _ => ?_⟩
  rw [← resStat_toNat_eq_or, BitVec.ofNat_toNat, BitVec.setWidth_eq]
  rfl

end Machine

end Sys2Proof
end

section
/-! SUPPORT. The frame processor, outcome by outcome: what it does for each class of the current buffer (R133 to R141),
and the gates `RX_FRAME` puts before it (R142). -/

namespace Sys2Proof.Machine

@[simp] theorem frameHeader_cons (h : Byte) (p : List Byte) : frameHeader (h :: p) = h := rfl
@[simp] theorem framePayload_cons (h : Byte) (p : List Byte) : framePayload (h :: p) = p := rfl

/-! ### Classes and tags -/

theorem classOf_eq_complete {r : RadioBuf} (hgot : r.got = true) : r.classOf = .complete := if_pos hgot

theorem classOf_eq_incomplete {r : RadioBuf} (hgot : r.got = false) (hwr : 0 < r.wr.toNat) :
    r.classOf = .incomplete := by
  simp [RadioBuf.classOf, RadioBuf.complete, RadioBuf.hasData, hgot, hwr]

theorem classOf_eq_empty {r : RadioBuf} (hgot : r.got = false) (hwr : r.wr.toNat = 0) : r.classOf = .empty := by
  simp [RadioBuf.classOf, RadioBuf.complete, RadioBuf.hasData, hgot, hwr]

theorem gapIsOne_iff {exp idx : BitVec 4} : gapIsOne exp idx = true ↔ exp.toNat = idx.toNat + 1 := by
  rw [gapIsOne, decide_eq_true_iff]
  omega

/-- The result of a frame command as a number: `BUF` in bit 4, the tag of the index in bits 3:0 (R141, R201). -/
theorem resOutcome_lastOr (cur : BufId) (idx : BitVec 4) (last notLast : OutcomeTag) :
    resOutcome cur (lastOr idx last notLast) = BitVec.ofNat 16
      (16 * cur.bit.toNat + if idx.toNat = 0 then last.code.toNat else notLast.code.toNat) := by
  have hzero : idx = 0#4 ↔ idx.toNat = 0 := BitVec.toNat_inj.symm
  rw [resOutcome_eq, lastOr, apply_ite OutcomeTag.code, apply_ite BitVec.toNat]
  simp only [hzero]

/-! ### The five branches -/

/-- A store that fits ends the frame command with its outcome. -/
theorem outcome_storePayload {s : State} {base : Nat} {p : List Byte} (hfit : base + p.length ≤ s.cfg.radioBufBytes)
    (b : BufId) (idx : BitVec 4) (tag : OutcomeTag) :
    outcome (storePayload s b base idx p) tag =
      answer (s.setRb b ((s.rb b).stored base idx p)) .ok (resOutcome s.cur tag) := by
  rw [storePayload_ok.2 ⟨hfit, rfl⟩, outcome, State.setRb_cur]

section
variable {s : State} {h : Byte} {p : List Byte}

theorem exec_rbProcess_of_len (h1 : 1 ≤ p.length) (h31 : p.length ≤ 31) :
    exec (.rbProcess (h :: p)) s = processFrame (h :: p) s :=
  if_pos (lenIn_iff.2 ⟨Nat.succ_le_succ h1, Nat.succ_le_succ h31⟩)

/-- R134, R135. -/
theorem processFrame_of_empty (hgot : (s.rb s.cur).got = false) (hwr : (s.rb s.cur).wr.toNat = 0)
    (hfit : 0 + p.length ≤ s.cfg.radioBufBytes) :
    processFrame (h :: p) s = answer (s.setRb s.cur ((s.rb s.cur).stored 0 (hdrIndex h) p)) .ok
      (resOutcome s.cur (lastOr (hdrIndex h) .lastSingle .notLastFirst)) := by
  simp only [processFrame, classOf_eq_empty hgot hwr]
  exact outcome_storePayload hfit _ _ _

/-- R136, R137. -/
theorem processFrame_of_gap_one (hgot : (s.rb s.cur).got = false) (hwr : 0 < (s.rb s.cur).wr.toNat)
    (hgap : (s.rb s.cur).exp.toNat = (hdrIndex h).toNat + 1)
    (hfit : (s.rb s.cur).wr.toNat + p.length ≤ s.cfg.radioBufBytes) :
    processFrame (h :: p) s =
      answer (s.setRb s.cur ((s.rb s.cur).stored (s.rb s.cur).wr.toNat (hdrIndex h) p)) .ok
        (resOutcome s.cur (lastOr (hdrIndex h) .lastMulti .notLastMiddle)) := by
  simp only [processFrame, classOf_eq_incomplete hgot hwr]
  exact (if_pos (gapIsOne_iff.2 hgap)).trans (outcome_storePayload hfit _ _ _)

/-- R138. -/
theorem processFrame_of_other_gap (hgot : (s.rb s.cur).got = false) (hwr : 0 < (s.rb s.cur).wr.toNat)
    (hgap : (s.rb s.cur).exp.toNat ≠ (hdrIndex h).toNat + 1) :
    processFrame (h :: p) s =
      answer (s.clearRb s.cur) .ok (resOutcome s.cur (lastOr (hdrIndex h) .missedLast .missedNotLast)) := by
  simp only [processFrame, classOf_eq_incomplete hgot hwr]
  exact (if_neg (mt gapIsOne_iff.1 hgap)).trans (by rw [outcome, State.clearRb_cur]; rfl)

/-- R139. -/
theorem processFrame_of_switch (hgot : (s.rb s.cur).got = true) (hready : (s.rb (otherBuf s.cur)).ready = true)
    (hfit : 0 + p.length ≤ s.cfg.radioBufBytes) :
    processFrame (h :: p) s =
      answer ((s.setCur (otherBuf s.cur)).setRb (otherBuf s.cur)
        ((s.rb (otherBuf s.cur)).stored 0 (hdrIndex h) p)) .ok
        (resOutcome (otherBuf s.cur) (lastOr (hdrIndex h) .switchLast .switchNotLast)) := by
  simp only [processFrame, classOf_eq_complete hgot]
  rw [if_pos hready]
  exact (outcome_storePayload (s := s.setCur (otherBuf s.cur)) hfit _ _ _).trans (by simp only [State.setCur_rb]; rfl)

/-- R140. -/
theorem processFrame_of_busy (hgot : (s.rb s.cur).got = true) (hready : (s.rb (otherBuf s.cur)).ready = false) :
    processFrame (h :: p) s =
      answer s .ok (resOutcome s.cur (lastOr (hdrIndex h) .failSwitchLast .failSwitchNotLast)) := by
  simp only [processFrame, classOf_eq_complete hgot]
  exact if_neg (Bool.eq_false_iff.1 hready)

end

/-! ### The outcomes -/

/-- What a state holds whose buffer `b` is that of `s` after a store and whose other buffer is that of `s`. -/
theorem storedFrame_of_stored {s t : State} {b : BufId} {base : Nat} {idx : BitVec 4} {p : List Byte}
    (hlt : base + p.length < 512) (hb : t.rb b = (s.rb b).stored base idx p)
    (ho : t.rb (otherBuf b) = s.rb (otherBuf b)) : StoredFrame s t b base idx p := by
  obtain ⟨hwr, hexp, hgot, hfl, hin, hout⟩ := (s.rb b).stored_spec idx hlt
  unfold StoredFrame
  rw [hb]
  exact ⟨hwr, hexp, hgot, hfl, hin, hout, ho⟩

/-- Settles O8: the store from offset 0, which always fits. -/
theorem emptyBufferTakesFirstFrame : Obligations.EmptyBufferTakesFirstFrame := by
  unfold Obligations.EmptyBufferTakesFirstFrame
  intro s h p hs h1 h31 hgot hwr
  have hsize := (hs.wr_le s.cur).2
  refine ⟨_, (exec_rbProcess_of_len h1 h31).trans (processFrame_of_empty hgot hwr (by omega)),
    storedFrame_of_stored (by omega) (by simp) (by simp), ?_⟩
  simp [sameSerial, sameHost, resOutcome_lastOr, OutcomeTag.code]

/-- RI5: a buffer that expects another frame has room for it. -/
theorem State.Inv.room_of_exp_pos {s : State} (hs : s.Inv) {b : BufId} (hexp : 1 ≤ (s.rb b).exp.toNat) :
    (s.rb b).wr.toNat + 31 ≤ 496 := by
  obtain ⟨-, -, -, -, hri5⟩ := hs.rb_regs b
  simp only [RadioBuf.RI5, payloadMax_eq, pageFramesMax_eq] at hri5
  omega

/-- Settles O9: the store at the write cursor, for which the invariant leaves room. -/
theorem gapOfOneAppends : Obligations.GapOfOneAppends := by
  unfold Obligations.GapOfOneAppends
  intro s h p hs h1 h31 hgot hwr hgap
  have hsize := (hs.wr_le s.cur).2
  have hroom := hs.room_of_exp_pos (b := s.cur) (by omega)
  refine ⟨_, (exec_rbProcess_of_len h1 h31).trans (processFrame_of_gap_one hgot hwr hgap (by omega)),
    storedFrame_of_stored (by omega) (by simp) (by simp), ?_⟩
  simp [sameSerial, sameHost, resOutcome_lastOr, OutcomeTag.code]

/-- Settles O10: the reset of the current buffer. -/
theorem otherGapResetsCurrentBuffer : Obligations.OtherGapResetsCurrentBuffer := by
  unfold Obligations.OtherGapResetsCurrentBuffer
  intro s h p _ h1 h31 hgot hwr hgap
  refine ⟨_, (exec_rbProcess_of_len h1 h31).trans (processFrame_of_other_gap hgot hwr hgap), ?_⟩
  simp [sameSerial, sameHost, resOutcome_lastOr, OutcomeTag.code, RadioBuf.cleared]

/-- Settles O11: the store from offset 0 of the other buffer. -/
theorem completeBufferSwitches : Obligations.CompleteBufferSwitches := by
  unfold Obligations.CompleteBufferSwitches
  intro s h p hs h1 h31 hgot hwr hfl
  have hsize := (hs.wr_le s.cur).2
  refine ⟨_, (exec_rbProcess_of_len h1 h31).trans
    (processFrame_of_switch hgot ((ready_iff _).2 ⟨hwr, hfl⟩) (by omega)),
    storedFrame_of_stored (by omega) (by simp) (by simp), ?_⟩
  simp [sameSerial, sameHost, resOutcome_lastOr, OutcomeTag.code, bit_otherBuf_toNat]

/-- Settles O12: nothing is written but the response. -/
theorem bothBuffersBusyRejectsFrame : Obligations.BothBuffersBusyRejectsFrame := by
  unfold Obligations.BothBuffersBusyRejectsFrame
  intro s h p _ h1 h31 hgot hbusy
  rw [exec_rbProcess_of_len h1 h31, processFrame_of_busy hgot ((not_ready_iff _).2 hbusy), resOutcome_lastOr]
  rfl

/-- Settles O13: by the class of the current buffer and its gap, each outcome as O8 to O12 state it. -/
theorem outcomeTagSaysWhatHappened : Obligations.OutcomeTagSaysWhatHappened := by
  unfold Obligations.OutcomeTagSaysWhatHappened
  intro s h p hs h1 h31
  cases hgot : (s.rb s.cur).got with
  | false =>
    rcases Nat.eq_zero_or_pos (s.rb s.cur).wr.toNat with hwr | hwr
    · obtain ⟨t, hexec, ⟨htwr, -⟩, hcur, -, -, hresp⟩ := emptyBufferTakesFirstFrame s h p hs h1 h31 hgot hwr
      refine ⟨t, _, hexec, by split <;> decide, hcur.symm ▸ hresp, ?_⟩
      rw [hcur, htwr, hwr]
      split <;> simp [*, -hdrIndex_toNat] <;> omega
    · by_cases hgap : (s.rb s.cur).exp.toNat = (hdrIndex h).toNat + 1
      · obtain ⟨t, hexec, ⟨htwr, -⟩, hcur, -, -, hresp⟩ := gapOfOneAppends s h p hs h1 h31 hgot hwr hgap
        refine ⟨t, _, hexec, by split <;> decide, hcur.symm ▸ hresp, ?_⟩
        rw [hcur, htwr]
        split <;> simp [*, -hdrIndex_toNat] <;> omega
      · obtain ⟨t, hexec, hcleared, -, hcur, -, -, hresp⟩ := otherGapResetsCurrentBuffer s h p hs h1 h31 hgot hwr hgap
        refine ⟨t, _, hexec, by split <;> decide, hcur.symm ▸ hresp, ?_⟩
        rw [hcur, hcleared]
        split <;> simp [*, -hdrIndex_toNat] <;> omega
  | true =>
    cases hready : (s.rb (otherBuf s.cur)).ready with
    | true =>
      obtain ⟨hwr, hfl⟩ := (ready_iff _).1 hready
      obtain ⟨t, hexec, ⟨htwr, -⟩, -, hcur, -, -, hresp⟩ := completeBufferSwitches s h p hs h1 h31 hgot hwr hfl
      rw [← bit_otherBuf_toNat, ← hcur] at hresp
      refine ⟨t, _, hexec, by split <;> decide, hresp, ?_⟩
      rw [hcur, htwr, hwr]
      split <;> simp [*, -hdrIndex_toNat] <;> omega
    | false =>
      have hexec := bothBuffersBusyRejectsFrame s h p hs h1 h31 hgot ((not_ready_iff _).1 hready)
      refine ⟨s.respond .ok _, _, hexec, by split <;> decide, rfl, ?_⟩
      split <;> simp [*, sameRadio, -hdrIndex_toNat]

/-! ### The gates of `RX_FRAME` -/

theorem hdrStream_eq_one_iff (h : Byte) : hdrStream h = 1#1 ↔ 0x80 ≤ h.toNat := by
  rw [hdrStream_eq_ite, ite_eq_left_iff]
  simp

section
variable {h : Byte} {p : List Byte}

theorem exec_rxFrame_of_bad_ck (h1 : 1 ≤ p.length) (h31 : p.length ≤ 31) (hck : ck p ≠ hdrCk h) (s : State) :
    exec (.rxFrame (h :: p)) s = .next { s with resp := some ⟨.badChecksum, 0#16⟩ } :=
  (if_pos (lenIn_iff.2 ⟨Nat.succ_le_succ h1, Nat.succ_le_succ h31⟩)).trans (if_pos hck)

theorem exec_rxFrame_of_stream (h1 : 1 ≤ p.length) (h31 : p.length ≤ 31) (hck : ck p = hdrCk h)
    (hst : hdrStream h = 1#1) (s : State) :
    exec (.rxFrame (h :: p)) s = .next { s with resp := some ⟨.stream, (hdrIndex h).setWidth 16⟩ } :=
  calc exec (.rxFrame (h :: p)) s
    _ = _ := if_pos (lenIn_iff.2 ⟨Nat.succ_le_succ h1, Nat.succ_le_succ h31⟩)
    _ = _ := if_neg (not_not_intro hck)
    _ = _ := if_pos hst

/-- A frame that passes both gates, of any length and in any state, is the frame processor's (R142). -/
theorem exec_rxFrame_eq_rbProcess (hck : ck p = hdrCk h) (hst : hdrStream h ≠ 1#1) (s : State) :
    exec (.rxFrame (h :: p)) s = exec (.rbProcess (h :: p)) s :=
  if_congr Iff.rfl ((if_neg (not_not_intro hck)).trans (if_neg hst)) rfl

end

/-- Settles O14: gate after gate, and O13 for what a frame past them is answered. -/
theorem rxFrameGatesThenProcesses : Obligations.RxFrameGatesThenProcesses := by
  unfold Obligations.RxFrameGatesThenProcesses
  refine ⟨decode_matchWord (opc := 0x31#8) rfl, fun s f _ hlen => badOperand_of_len hlen s _,
    fun s h p _ h1 h31 hck => exec_rxFrame_of_bad_ck h1 h31 hck s, fun s h p _ h1 h31 hck hst => ?_,
    fun s h p hs h1 h31 hck hst => ?_⟩
  · rw [exec_rxFrame_of_stream h1 h31 hck ((hdrStream_eq_one_iff h).2 hst), BitVec.ofNat_toNat]
  · obtain ⟨t, _, hexec, -, hresp, -⟩ := outcomeTagSaysWhatHappened s h p hs h1 h31
    have hpass : hdrStream h ≠ 1#1 := by rw [Ne, hdrStream_eq_one_iff]; omega
    exact ⟨t, _, (exec_rxFrame_eq_rbProcess hck hpass s).trans hexec, hexec, hresp⟩

end Sys2Proof.Machine
end

section
/-! SUPPORT. What one command can do to one buffer of the engine, said once (R40, R133 to R146), and the conditions of
R37 as a function of the registers. -/

namespace Sys2Proof.Machine

/-! ### Commands that do not touch the engine -/

theorem sameRadio_respond (s : State) (st : Status) (r : ResultWord) : sameRadio s (s.respond st r) := ⟨rfl, rfl, rfl⟩

theorem sameRadio.rb {s t : State} (h : sameRadio s t) (b : BufId) : t.rb b = s.rb b := by
  obtain ⟨-, h0, h1⟩ := h
  cases b
  · exact h0
  · exact h1

theorem sameRadio_of_putByte {s t : State} {j off : Nat} {pq : BitVec 5} {v : Byte}
    (h : putByte s j off pq v = .next t) : sameRadio s t := by
  obtain ⟨_, -, -, rfl⟩ := putByte_next.1 h
  exact ⟨rfl, rfl, rfl⟩

theorem sameRadio_of_sendSlot {s t : State} {j idx : Nat} {ps : BitVec 5} (h : sendSlot s j idx ps = .next t) :
    sameRadio s t := by
  obtain ⟨_, _, -, -, -, rfl⟩ := sendSlot_next.1 h
  exact ⟨rfl, rfl, rfl⟩

/-- Every command outside unit 3 but `SYS_RESET` leaves the engine's state (R40). -/
theorem sameRadio_of_exec {i : Instr} {s t : State} (hradio : i.isRadio = false) (hreset : i ≠ .sysReset)
    (h : exec i s = .next t) : sameRadio s t := by
  have hans {st : Status} {r : ResultWord} (ha : answer s st r = .next t) : sameRadio s t :=
    answer_next.1 ha ▸ sameRadio_respond s st r
  cases i with
  | sysReset => exact absurd rfl hreset
  | ckMake p => rw [exec, execCkMake] at h; split at h <;> exact hans h
  | ckVerify f => rw [exec, execCkVerify] at h; split at h <;> exact hans h
  | bidMake st ix p => rw [exec, execBidMake] at h; split at h <;> exact hans h
  | bidStream | bidIndex | bidCk | sbPending | sbStat => exact hans h
  | sbRestart | sbReset => obtain rfl := answer_next.1 h; exact ⟨rfl, rfl, rfl⟩
  | sbPut v =>
    simp only [exec, execSbPut] at h
    split at h
    · exact sameRadio_of_putByte h
    · split at h
      · cases h
      · split at h
        · exact sameRadio_of_putByte h
        · split at h
          · exact sameRadio_of_putByte h
          · obtain rfl := answer_next.1 h
            exact ⟨rfl, rfl, rfl⟩
  | sbSendFirst =>
    rw [exec, execSbSendFirst] at h
    split at h
    · exact sameRadio_of_sendSlot h
    · exact hans h
  | sbSendNext =>
    rw [exec, execSbSendNext] at h
    split at h
    · exact sameRadio_of_sendSlot h
    · exact hans h
  | sbResend =>
    rw [exec, execSbResend] at h
    split at h
    · exact hans h
    · exact sameRadio_of_sendSlot h
  | sbRd =>
    simp only [exec, execSbRd] at h
    split at h
    · exact hans h
    · split at h
      · cases h
      · split at h
        · exact hans h
        · split at h
          · cases h
          · obtain rfl := answer_next.1 h
            exact ⟨rfl, rfl, rfl⟩
  | sbSlot n =>
    rw [exec, execSbSlot] at h
    split at h
    · exact hans h
    · split at h
      · cases h
      · exact hans h
  | rbProcess | rxFrame | rbReady | rbSwitch | rbFlushBegin | rbRd | rbReset | rbStat => cases hradio

/-! ### Moves of a buffer -/

/-- What command `i`, which takes `s` to `t`, can do to buffer `b`. A buffer is kept while the selector stays, moves
with `RB_SWITCH`, or leaves a complete buffer; a frame is stored only in the buffer that is current after it. -/
inductive BufMove (i : Instr) (s t : State) (b : BufId) : Prop
  | kept (hb : t.rb b = s.rb b) (hcur : t.cur = s.cur ∨ i = .rbSwitch ∨ (s.rb s.cur).got = true)
  | cleared (hb : t.rb b = (s.rb b).cleared)
  | flushBegun (hgot : (s.rb b).got = true) (hfl : (s.rb b).fl = false) (hb : t.rb b = { s.rb b with fl := true })
  | stored (hcur : b = t.cur) (hgot : (s.rb b).got = false) (base : Nat) (idx : BitVec 4) (p : List Byte)
      (hlen : 1 ≤ p.length) (hlt : base + p.length < 512) (hb : t.rb b = (s.rb b).stored base idx p)

theorem BufMove.of_sameRadio {i : Instr} {s t : State} (h : sameRadio s t) (b : BufId) : BufMove i s t b :=
  .kept (h.rb b) (.inl h.1)

/-- A frame stores in the buffer it makes current, resets the current one, or leaves both (R134 to R140). -/
theorem bufMove_of_processFrame {i : Instr} {f : DataIn} {s t : State} (hs : s.Inv) (hlen : lenIn 2 frameMax f = true)
    (h : processFrame f s = .next t) (b : BufId) : BufMove i s t b := by
  have hp : 1 ≤ (framePayload f).length ∧ (framePayload f).length ≤ 31 := by
    have := lenIn_iff.1 hlen
    simp only [framePayload, List.length_tail, frameMax_eq] at this ⊢
    omega
  rcases processFrame_next h with
    ⟨hgot, hready, -, rfl⟩ | ⟨-, -, rfl⟩ | ⟨hgot, -, hgap, -, rfl⟩ | ⟨-, -, -, rfl⟩ | ⟨hgot, -, -, rfl⟩
  · by_cases hb : b = otherBuf s.cur
    · obtain rfl := hb
      have hgot' : (s.rb (otherBuf s.cur)).got = false :=
        Bool.eq_false_iff.2 fun hg => by simp [hs.not_ready_of_got hg] at hready
      exact .stored (by simp) hgot' 0 (hdrIndex (frameHeader f)) (framePayload f) hp.1 (by omega) (by simp)
    · exact .kept (by simp [State.setRb_rb, hb]) (.inr (.inr hgot))
  · exact .of_sameRadio (sameRadio_respond _ _ _) b
  · by_cases hb : b = s.cur
    · obtain rfl := hb
      have hroom := hs.room_of_exp_pos (b := s.cur) (by omega)
      exact .stored (by simp) hgot (s.rb s.cur).wr.toNat (hdrIndex (frameHeader f)) (framePayload f) hp.1 (by omega)
        (by simp)
    · exact .kept (by simp [State.setRb_rb, hb]) (.inl (by simp))
  · by_cases hb : b = s.cur
    · obtain rfl := hb
      exact .cleared (by simp)
    · exact .kept (by simp [State.clearRb_rb, hb]) (.inl (by simp))
  · by_cases hb : b = s.cur
    · obtain rfl := hb
      exact .stored (by simp) hgot 0 (hdrIndex (frameHeader f)) (framePayload f) hp.1 (by omega) (by simp)
    · exact .kept (by simp [State.setRb_rb, hb]) (.inl (by simp))

/-- Everything a command can do to a buffer (R40). -/
theorem bufMove_of_exec {i : Instr} {s t : State} (hs : s.Inv) (h : exec i s = .next t) (b : BufId) :
    BufMove i s t b := by
  have hans {st : Status} {r : ResultWord} (ha : answer s st r = .next t) : BufMove i s t b :=
    .of_sameRadio (answer_next.1 ha ▸ sameRadio_respond s st r) b
  cases i with
  | sysReset =>
    rw [exec_sysReset] at h
    cases h
    exact .cleared (by cases b <;> rfl)
  | rbProcess f | rxFrame f =>
    rcases exec_frame_next rfl h with ⟨f, hlen, hf⟩ | ⟨st, r, rfl⟩
    · exact bufMove_of_processFrame hs hlen hf b
    · exact .of_sameRadio (sameRadio_respond s st r) b
  | rbReady c | rbStat c => exact hans h
  | rbRd c a =>
    rw [exec, execRbRd] at h
    split at h
    · exact hans h
    · split at h
      · cases h
      · exact hans h
  | rbSwitch =>
    refine .kept ?_ (.inr (.inl rfl))
    cases hready : (s.rb (otherBuf s.cur)).ready with
    | true => rw [exec_rbSwitch_of_ready hready] at h; obtain rfl := answer_next.1 h; simp
    | false => rw [exec_rbSwitch_of_not_ready hready] at h; obtain rfl := answer_next.1 h; simp
  | rbFlushBegin c =>
    rw [exec, execRbFlushBegin] at h
    split at h
    · exact hans h
    case isFalse hcomplete =>
      obtain rfl := answer_next.1 h
      by_cases hb : b = c
      · obtain rfl := hb
        exact .flushBegun (by simpa using mt Or.inl hcomplete) (by simpa using mt Or.inr hcomplete) (by simp)
      · exact .kept (by simp [State.setRb_rb, hb]) (.inl (by simp))
  | rbReset c =>
    rw [exec_rbReset] at h
    obtain rfl := answer_next.1 h
    by_cases hb : b = c
    · obtain rfl := hb
      exact .cleared (by simp)
    · exact .kept (by simp [State.clearRb_rb, hb]) (.inl (by simp))
  | _ => exact .of_sameRadio (sameRadio_of_exec rfl (by simp) h) b

/-! ### Conditions (R37) -/

/-- The condition a buffer's registers say it is in. -/
def RadioBuf.condition (r : RadioBuf) : Condition :=
  if r.wr.toNat = 0 then .empty else if r.got = false then .filling else if r.fl = false then .complete else .flushing

theorem RadioBuf.isIn.condition_eq {r : RadioBuf} {c : Condition} (h : r.isIn c) : r.condition = c := by
  cases c with
  | empty =>
    obtain ⟨hwr, -⟩ := h
    simp [RadioBuf.condition, hwr]
  | filling | complete | flushing =>
    obtain ⟨hwr, -, hgot, hfl⟩ := h
    simp [RadioBuf.condition, Nat.one_le_iff_ne_zero.1 hwr, hgot, hfl]

/-- R37: the registers' invariants put a buffer in its condition. -/
theorem RadioBuf.isIn_condition {r : RadioBuf} (hr : r.regsOk) : r.isIn r.condition := by
  obtain ⟨hri1, hri2, hri3, hri4, -⟩ := hr
  unfold RadioBuf.condition
  by_cases hwr : r.wr.toNat = 0
  · rw [if_pos hwr]
    exact ⟨hwr, hri3 hwr⟩
  · rw [if_neg hwr]
    cases hgot : r.got with
    | false =>
      have hfl : r.fl = false := Bool.eq_false_iff.2 fun hfl => by simp [hri1 hfl] at hgot
      have hexp := hri4 (by simp [RadioBuf.incomplete, RadioBuf.hasData, RadioBuf.complete, hgot]; omega)
      exact ⟨by omega, hexp.1, hgot, hfl⟩
    | true =>
      obtain ⟨hwr1, hexp⟩ := hri2 hgot
      cases hfl : r.fl with
      | false => exact ⟨hwr1, hexp, hgot, hfl⟩
      | true => exact ⟨hwr1, hexp, hgot, hfl⟩

theorem Condition.mayMove_refl (c : Condition) : c.mayMove c = true := by cases c <;> rfl

theorem Condition.mayMove_empty (c : Condition) : c.mayMove .empty = true := by cases c <;> rfl

theorem RadioBuf.condition_cleared (r : RadioBuf) : r.cleared.condition = .empty := rfl

theorem RadioBuf.condition_stored {r : RadioBuf} (hfl : r.fl = false) {base : Nat} (idx : BitVec 4) {p : List Byte}
    (hlen : 1 ≤ p.length) (hlt : base + p.length < 512) :
    (r.stored base idx p).condition = if idx.toNat = 0 then .complete else .filling := by
  obtain ⟨hwr, -, hgot, hfl', -, -⟩ := r.stored_spec idx hlt
  have hne : base + p.length ≠ 0 := by omega
  rw [RadioBuf.condition, hwr, hgot, hfl', hfl, if_neg hne]
  by_cases hidx : idx.toNat = 0 <;> simp only [hidx] <;> rfl

/-- A buffer that is not complete is empty or filling. -/
theorem RadioBuf.isIn.cases_of_not_got {r : RadioBuf} {c : Condition} (h : r.isIn c) (hgot : r.got = false) :
    r.fl = false ∧ (c = .empty ∨ c = .filling) := by
  cases c with
  | empty => obtain ⟨-, -, -, hfl⟩ := h; exact ⟨hfl, .inl rfl⟩
  | filling => obtain ⟨-, -, -, hfl⟩ := h; exact ⟨hfl, .inr rfl⟩
  | complete | flushing => obtain ⟨-, -, hgot', -⟩ := h; simp [hgot] at hgot'

/-- `RB_FLUSH_BEGIN` takes a buffer from COMPLETE to FLUSHING. -/
theorem RadioBuf.isIn.flushBegun {r : RadioBuf} {c : Condition} (h : r.isIn c) (hgot : r.got = true)
    (hfl : r.fl = false) : c = .complete ∧ ({ r with fl := true } : RadioBuf).condition = .flushing := by
  cases c with
  | complete =>
    obtain ⟨hwr, hexp, -, -⟩ := h
    exact ⟨rfl, RadioBuf.isIn.condition_eq (c := .flushing) ⟨hwr, hexp, hgot, rfl⟩⟩
  | empty | filling => obtain ⟨-, -, hgot', -⟩ := h; simp [hgot] at hgot'
  | flushing => obtain ⟨-, -, -, hfl'⟩ := h; simp [hfl] at hfl'

/-- A move of a buffer is one of R37's. -/
theorem BufMove.mayMove {i : Instr} {s t : State} {b : BufId} (h : BufMove i s t b) {c : Condition}
    (hc : (s.rb b).isIn c) : c.mayMove (t.rb b).condition = true := by
  cases h with
  | kept hb => rw [hb, hc.condition_eq]; exact c.mayMove_refl
  | cleared hb => rw [hb, RadioBuf.condition_cleared]; exact c.mayMove_empty
  | flushBegun hgot hfl hb =>
    obtain ⟨rfl, hflush⟩ := hc.flushBegun hgot hfl
    rw [hb, hflush]
    rfl
  | stored _ hgot base idx p hlen hlt hb =>
    obtain ⟨hfl, hc'⟩ := hc.cases_of_not_got hgot
    rw [hb, RadioBuf.condition_stored hfl idx hlen hlt]
    rcases hc' with rfl | rfl <;> split <;> rfl

/-- Settles O23: the condition is the function `RadioBuf.condition`, and each thing a command can do to a buffer moves
it as R37 says. -/
theorem bufferMovesThroughItsConditions : Obligations.BufferMovesThroughItsConditions := by
  unfold Obligations.BufferMovesThroughItsConditions
  refine ⟨fun s b hs => ⟨_, RadioBuf.isIn_condition (hs.rb_regs b), fun c' hc' => hc'.condition_eq.symm⟩,
    fun s t i b c c' hs h hc hc' => ?_⟩
  rw [← hc'.condition_eq]
  exact (bufMove_of_exec hs h b).mayMove hc

/-- Settles O22: a buffer fills by a store, which is in the buffer then current, and a filling buffer that is kept was
current, where the selector leaves only a complete buffer. -/
theorem onlyTheCurrentBufferFills : Obligations.OnlyTheCurrentBufferFills := by
  unfold Obligations.OnlyTheCurrentBufferFills
  refine ⟨fun c b => ?_, fun s t i hs hi hfill h b hb => ?_⟩
  · cases b <;> exact ⟨rfl, rfl, rfl, rfl⟩
  · obtain ⟨hwr, -, hgot, -⟩ := id hb
    cases bufMove_of_exec hs h b with
    | kept hkept hcur =>
      rw [hkept] at hb hgot
      obtain rfl := hfill b hb
      rcases hcur with hcur | hswitch | hgot'
      · exact hcur.symm
      · exact absurd hswitch hi
      · simp [hgot] at hgot'
    | cleared hcleared => simp [hcleared] at hwr
    | flushBegun hgot' _ hflush => simp [hflush, hgot'] at hgot
    | stored hcur => exact hcur

end Sys2Proof.Machine
end

section
/-! SUPPORT. Runs with their responses, and the two runs of a page through the engine: its frames in order (R149) and
its drain (R94, R223). -/

namespace Sys2Proof.Machine

/-! ### Runs with responses -/

theorem runTrace_cons {i : Instr} {is : List Instr} {s t u : State} {r : Response} {rs : List Response}
    (hi : exec i s = .next t) (hr : t.resp = some r) (his : runTrace is t = some (rs, u)) :
    runTrace (i :: is) s = some (r :: rs, u) := by
  simp only [runTrace, hi, hr, his]

theorem runTrace_singleton {i : Instr} {s t : State} {r : Response} (hi : exec i s = .next t)
    (hr : t.resp = some r) : runTrace [i] s = some ([r], t) := runTrace_cons hi hr rfl

/-- A run of one command more is that command, its response and the run of the others. -/
theorem exists_of_runTrace_cons {i : Instr} {is : List Instr} {s u : State} {rs : List Response}
    (h : runTrace (i :: is) s = some (rs, u)) :
    ∃ t r rs', exec i s = .next t ∧ t.resp = some r ∧ runTrace is t = some (rs', u) ∧ rs = r :: rs' := by
  rw [runTrace] at h
  split at h
  case h_1 t hi =>
    split at h
    case h_1 r rs' v hr his =>
      cases h
      exact ⟨t, r, rs', hi, hr, his, rfl⟩
    case h_2 => cases h
  all_goals cases h

theorem runTrace_append {is js : List Instr} {s t u : State} {rs qs : List Response}
    (his : runTrace is s = some (rs, t)) (hjs : runTrace js t = some (qs, u)) :
    runTrace (is ++ js) s = some (rs ++ qs, u) := by
  induction is generalizing s rs with
  | nil => cases his; exact hjs
  | cons i is ih =>
    obtain ⟨v, r, rs', hi, hr, hrest, rfl⟩ := exists_of_runTrace_cons his
    exact runTrace_cons hi hr (ih hrest)

/-- A property that each command of a list keeps holds after the run when it holds before it. -/
theorem runTrace_keeps {P : State → Prop} {is : List Instr}
    (hstep : ∀ i ∈ is, ∀ s t, P s → exec i s = .next t → P t) {s t : State} {rs : List Response} (hs : P s)
    (h : runTrace is s = some (rs, t)) : P t := by
  induction is generalizing s rs with
  | nil => cases h; exact hs
  | cons i is ih =>
    obtain ⟨u, _, _, hi, -, hrest, -⟩ := exists_of_runTrace_cons h
    exact ih (fun j hj => hstep j (.tail i hj)) (hstep i (.head is) s u hs hi) hrest

/-- Commands that only answer leave a run's state but for the response. -/
theorem runTrace_map_of_answers {α : Type} {f : α → Instr} {g : α → Response} {l : List α} {s : State}
    (h : ∀ a ∈ l, ∀ q, exec (f a) { s with resp := q } = .next { s with resp := some (g a) }) (q : Option Response) :
    ∃ q', runTrace (l.map f) { s with resp := q } = some (l.map g, { s with resp := q' }) := by
  induction l generalizing q with
  | nil => exact ⟨q, rfl⟩
  | cons a l ih =>
    obtain ⟨q', hl⟩ := ih (fun b hb => h b (.tail a hb)) (some (g a))
    exact ⟨q', runTrace_cons (h a (.head l) q) rfl hl⟩

/-! ### What a buffer holds -/

/-- The buffer holds the bytes `d`: its cursor is their number, and they lie from offset 0 on. -/
def RadioBuf.Holds (r : RadioBuf) (d : List Byte) : Prop :=
  r.wr.toNat = d.length ∧ Memory.readBytes r.mem 0 d.length = some d

theorem RadioBuf.holds_nil {r : RadioBuf} (hwr : r.wr.toNat = 0) : r.Holds [] := ⟨hwr, rfl⟩

/-- Bytes written after bytes held are read after them. -/
theorem Memory.readBytes_append {m m' : Memory} {d p : List Byte} (hd : Memory.readBytes m 0 d.length = some d)
    (hin : ∀ k, ∀ h : k < p.length, Memory.read m' (d.length + k) = some p[k])
    (hout : ∀ a, a < d.length → Memory.read m' a = Memory.read m a) :
    Memory.readBytes m' 0 (d ++ p).length = some (d ++ p) := by
  obtain ⟨-, hbytes⟩ := Memory.readBytes_eq_some.1 hd
  refine Memory.readBytes_eq_some.2 ⟨rfl, fun k hk => ?_⟩
  by_cases hlt : k < d.length
  · rw [List.getElem_append_left hlt, Nat.zero_add, hout k hlt, ← hbytes k hlt, Nat.zero_add]
  · rw [List.length_append] at hk
    rw [List.getElem_append_right (Nat.le_of_not_lt hlt), ← hin (k - d.length) (by omega)]
    congr 1
    omega

theorem StoredFrame.holds {s t : State} {b : BufId} {idx : BitVec 4} {d p : List Byte}
    (h : StoredFrame s t b (s.rb b).wr.toNat idx p) (hd : (s.rb b).Holds d) : (t.rb b).Holds (d ++ p) := by
  obtain ⟨hwr, hbytes⟩ := hd
  rw [hwr] at h
  obtain ⟨htwr, -, -, -, hin, hout, -⟩ := h
  exact ⟨by rw [htwr, List.length_append], Memory.readBytes_append hbytes hin fun a ha => hout a (.inl ha)⟩

/-! ### A page in order (R149) -/

/-- From `s` to `t` nothing but the current buffer and the response has changed. -/
structure OnlyCurrentBuffer (s t : State) : Prop where
  other  : t.rb (otherBuf s.cur) = s.rb (otherBuf s.cur)
  cur    : t.cur = s.cur
  serial : sameSerial s t
  host   : sameHost s t

theorem OnlyCurrentBuffer.trans {s t u : State} (h : OnlyCurrentBuffer s t) (h' : OnlyCurrentBuffer t u) :
    OnlyCurrentBuffer s u := by
  obtain ⟨hother, hcur, hserial, hhost⟩ := h
  obtain ⟨hother', hcur', hserial', hhost'⟩ := h'
  rw [hcur] at hother' hcur'
  refine ⟨hother'.trans hother, hcur', ?_, ?_⟩
  · simp_all [sameSerial]
  · simp_all [sameHost]

/-- Frames of 1 to 31 payload bytes whose indices count down to 0. -/
def InOrder (fs : List DataIn) : Prop :=
  ∀ k, ∀ h : k < fs.length, 2 ≤ fs[k].length ∧ fs[k].length ≤ 32 ∧
    (hdrIndex (frameHeader fs[k])).toNat = fs.length - 1 - k

/-- The first frame of an ordered list has the number of those after it as its index. -/
theorem InOrder.cons {f : DataIn} {fs : List DataIn} (h : InOrder (f :: fs)) :
    (∃ hdr p, f = hdr :: p ∧ 1 ≤ p.length ∧ p.length ≤ 31 ∧ (hdrIndex hdr).toNat = fs.length) ∧ InOrder fs := by
  constructor
  · have hf := h 0 (Nat.succ_pos _)
    cases f with
    | nil => simp at hf
    | cons hdr p => exact ⟨hdr, p, rfl, by simpa [Nat.lt_succ_iff, -hdrIndex_toNat] using hf⟩
  · intro k hk
    have hk' := h (k + 1) (Nat.succ_lt_succ hk)
    rw [List.getElem_cons_succ, List.length_cons] at hk'
    exact ⟨hk'.1, hk'.2.1, by omega⟩

/-- The response of a frame command with outcome number `g`. -/
def frameResponse (cur : BufId) (g : Nat) : Response := ⟨.ok, BitVec.ofNat 16 (16 * cur.bit.toNat + g)⟩

theorem exec_rbProcess_inv {s t : State} {h : Byte} {p : List Byte} (hs : s.Inv) (h1 : 1 ≤ p.length)
    (h31 : p.length ≤ 31) (hexec : exec (.rbProcess (h :: p)) s = .next t) : t.Inv := by
  rw [exec_rbProcess_of_len h1 h31] at hexec
  exact processFrame_inv hs hexec (lenIn_iff.2 ⟨Nat.succ_le_succ h1, Nat.succ_le_succ h31⟩)

/-- The current buffer of `t` holds `d`, has accepted the frame of index `n`, and is complete when that is the last. -/
structure Accepted (s t : State) (d : List Byte) (n : Nat) : Prop where
  holds : (t.rb s.cur).Holds d
  exp   : (t.rb s.cur).exp.toNat = n
  got   : (t.rb s.cur).got = decide (n = 0)
  only  : OnlyCurrentBuffer s t

theorem Accepted.of_storedFrame {s t : State} {idx : BitVec 4} {d p : List Byte} (hd : (s.rb s.cur).Holds d)
    (h : StoredFrame s t s.cur (s.rb s.cur).wr.toNat idx p) (hcur : t.cur = s.cur) (hserial : sameSerial s t)
    (hhost : sameHost s t) : Accepted s t (d ++ p) idx.toNat := by
  have hholds := h.holds hd
  obtain ⟨-, hexp, hgot, -, -, -, hother⟩ := h
  exact ⟨hholds, by rw [hexp], hgot, hother, hcur, hserial, hhost⟩

theorem Accepted.trans {s t u : State} {d e : List Byte} {n m : Nat} (h : Accepted s t d n) (h' : Accepted t u e m) :
    Accepted s u e m := by
  obtain ⟨hholds, hexp, hgot, honly⟩ := h'
  rw [h.only.cur] at hholds hexp hgot
  exact ⟨hholds, hexp, hgot, h.only.trans honly⟩

/-- The outcome numbers of the last `n` frames of a page that has begun. -/
def restTags : Nat → List Nat
  | 0 => []
  | n + 1 => (if n = 0 then 3 else 2) :: restTags n

theorem restTags_succ (n : Nat) : restTags (n + 1) = List.replicate n 2 ++ [3] := by
  induction n with
  | zero => rfl
  | succ n ih => rw [restTags, if_neg n.succ_ne_zero, ih, List.replicate_succ, List.cons_append]

/-- R149's outcomes are the first frame's and those of the others. -/
theorem inOrderTags_succ (n : Nat) : inOrderTags (n + 1) = (if n = 0 then 0 else 1) :: restTags n := by
  cases n with
  | zero => rfl
  | succ n => rw [restTags_succ]; simp [inOrderTags]

/-- The frames after those accepted: each is appended, the last completes the page (R136, R137). -/
theorem runTrace_rest_of_page {s t : State} {fs : List DataIn} {d : List Byte} (ht : t.Inv) (hfs : InOrder fs)
    (hd : 1 ≤ d.length) (hacc : Accepted s t d fs.length) :
    ∃ u, runTrace (fs.map .rbProcess) t = some ((restTags fs.length).map (frameResponse s.cur), u) ∧
      Accepted s u (d ++ fs.flatMap framePayload) 0 := by
  induction fs generalizing t d with
  | nil => exact ⟨t, rfl, by simpa using hacc⟩
  | cons f fs ih =>
    obtain ⟨⟨hdr, p, rfl, h1, h31, hidx⟩, hfs'⟩ := hfs.cons
    obtain ⟨hholds, hexp, hgot, honly⟩ := id hacc
    rw [← honly.cur] at hholds hexp hgot
    obtain ⟨u, hexec, hstored, hcur, hserial, hhost, hresp⟩ :=
      gapOfOneAppends t hdr p ht h1 h31 hgot (by rw [hholds.1]; exact hd) (by rw [hexp, hidx]; rfl)
    have hacc' := hacc.trans (.of_storedFrame hholds hstored hcur hserial hhost)
    rw [hidx] at hacc' hresp
    rw [honly.cur] at hresp
    obtain ⟨v, hrun, hv⟩ := ih (exec_rbProcess_inv ht h1 h31 hexec) hfs' (by rw [List.length_append]; omega) hacc'
    exact ⟨v, runTrace_cons hexec hresp hrun, by simpa using hv⟩

/-- Settles O21: the first frame fills the empty buffer, and the others are appended to it. -/
theorem inOrderFramesMakeThePage : Obligations.InOrderFramesMakeThePage := by
  unfold Obligations.InOrderFramesMakeThePage
  intro s fs hs hempty hne _ hfs
  obtain ⟨hwr, -, hgot, -⟩ := hempty
  cases fs with
  | nil => simp at hne
  | cons f fs =>
    obtain ⟨⟨hdr, p, rfl, h1, h31, hidx⟩, hfs'⟩ := InOrder.cons hfs
    obtain ⟨t, hexec, hstored, hcur, hserial, hhost, hresp⟩ := emptyBufferTakesFirstFrame s hdr p hs h1 h31 hgot hwr
    rw [← hwr] at hstored
    have hacc := Accepted.of_storedFrame (RadioBuf.holds_nil hwr) hstored hcur hserial hhost
    rw [hidx] at hacc hresp
    obtain ⟨u, hrun, ⟨⟨htwr, hbytes⟩, hexp, htgot, hother, hcur', hserial', hhost'⟩⟩ :=
      runTrace_rest_of_page (exec_rbProcess_inv hs h1 h31 hexec) hfs' h1 hacc
    refine ⟨u, ?_, htwr, hbytes, htgot, BitVec.eq_of_toNat_eq hexp, hother, hcur', hserial', hhost'⟩
    rw [List.length_cons, inOrderTags_succ]
    exact runTrace_cons hexec hresp hrun

/-! ### The drain -/

/-- Reading every offset below the write cursor delivers the bytes held, and changes no state (R147). -/
theorem runTrace_rbRd {s : State} (hs : s.Inv) {b : BufId} {d : List Byte} (hd : (s.rb b).Holds d) :
    ∃ q, runTrace ((List.range d.length).map (fun a => .rbRd b (BitVec.ofNat 9 a))) s =
      some (d.map (fun v => ⟨.ok, BitVec.ofNat 16 v.toNat⟩), { s with resp := q }) := by
  obtain ⟨hwr, hbytes⟩ := hd
  obtain ⟨-, hread⟩ := Memory.readBytes_eq_some.1 hbytes
  have hlt := (s.rb b).wr.isLt
  have hmap : d.map (fun v => (⟨.ok, BitVec.ofNat 16 v.toNat⟩ : Response)) =
      (List.range d.length).map fun a => ⟨.ok, BitVec.ofNat 16 (d.getD a 0#8).toNat⟩ := by
    refine List.ext_getElem (by simp) fun k hk _ => ?_
    simp [List.getElem?_eq_getElem (by simpa using hk : k < d.length)]
  rw [hmap]
  refine runTrace_map_of_answers (fun a ha q => ?_) s.resp
  have ha' : a < d.length := List.mem_range.1 ha
  have htoNat : (BitVec.ofNat 9 a).toNat = a := by rw [BitVec.toNat_ofNat]; omega
  have hinv : State.Inv { s with resp := q } := inv_of_fields hs rfl rfl rfl rfl rfl rfl
  have hrb : ({ s with resp := q } : State).rb b = s.rb b := by cases b <;> rfl
  refine exec_rbRd_of_lt hinv (b := b) (by rw [hrb, htoNat, hwr]; exact ha') ?_
  have hbyte := hread a ha'
  rw [Nat.zero_add] at hbyte
  rw [hrb, htoNat, hbyte, List.getD_eq_getElem d _ ha']

theorem State.Inv.exists_holds {s : State} (hs : s.Inv) (b : BufId) : ∃ d, (s.rb b).Holds d := by
  obtain ⟨-, -, hpresent⟩ := hs.rb_mem b
  obtain ⟨d, hd, hlen⟩ := Memory.readBytes_of_present (m := (s.rb b).mem) (base := 0) (n := (s.rb b).wr.toNat)
    fun k hk => hpresent _ (by omega)
  exact ⟨d, hlen.symm, by rw [hlen]; exact hd⟩

theorem flushBegun_inv {s : State} (hs : s.Inv) {b : BufId} (hgot : (s.rb b).got = true) :
    (s.setRb b { s.rb b with fl := true }).Inv := by
  obtain ⟨-, hri2, -, -, hri5⟩ := hs.rb_regs b
  obtain ⟨hwr, hexp⟩ := hri2 hgot
  refine inv_setRb hs b _ ⟨fun _ => hgot, hri2, fun h => ?_, fun h => ?_, hri5⟩ (hs.rb_mem b)
  · exact absurd h (by simp only; omega)
  · simp [RadioBuf.incomplete, RadioBuf.complete, hgot] at h

/-- Settles O25: the flush marks the buffer, the reads leave it, the reset empties it. -/
theorem drainDeliversThePage : Obligations.DrainDeliversThePage := by
  unfold Obligations.DrainDeliversThePage
  intro s b hs hcomplete
  obtain ⟨-, -, hgot, hfl⟩ := hcomplete
  obtain ⟨d, hwr, hbytes⟩ := hs.exists_holds b
  obtain ⟨-, hbegin, -⟩ := rbFlushBeginMarksCompleteBuffer
  obtain ⟨-, hclear⟩ := rbResetClearsOneBuffer
  obtain ⟨t, hflush, htb, hto, htcur, htserial, -, htresp⟩ := hbegin s b hs hgot hfl
  have htinv : t.Inv := by
    rw [exec_rbFlushBegin_of_complete hgot hfl] at hflush
    obtain rfl := answer_next.1 hflush
    exact inv_respond (flushBegun_inv hs hgot) _ _
  have hholds : (t.rb b).Holds d := by rw [htb]; exact ⟨hwr, hbytes⟩
  obtain ⟨q, hreads⟩ := runTrace_rbRd htinv hholds
  obtain ⟨u, hreset, hub, huo, hucur, huserial, -, huresp⟩ := hclear { t with resp := q } b
  refine ⟨d, u, hwr ▸ hbytes, ?_, ?_, ?_, ?_, ?_⟩
  · rw [hwr]
    exact runTrace_cons hflush (hwr ▸ htresp) (runTrace_append hreads (runTrace_singleton hreset huresp))
  · rw [hub]
    exact ⟨rfl, rfl, rfl, rfl⟩
  · calc u.rb (otherBuf b)
      _ = t.rb (otherBuf b) := by rw [huo]; cases b <;> rfl
      _ = s.rb (otherBuf b) := hto
  · exact hucur.trans htcur
  · simp_all [sameSerial]

end Sys2Proof.Machine
end

section
/-! SUPPORT. The serial buffer as the bytes it holds: `SB_PUT` appends a byte to them, the send commands frame them page
by page (R160, R162 to R165). -/

namespace Sys2Proof.Machine

/-! ### Pages -/

theorem page_length (d : List Byte) (k : Nat) : (page d k).length = min 31 (d.length - 31 * k) := by
  simp [page]

theorem page_nil (k : Nat) : page [] k = [] := by simp [page]

/-- A byte more is one more in the page that is not full yet (R162). -/
theorem page_append_singleton (d : List Byte) (v : Byte) (k : Nat) :
    page (d ++ [v]) k = if k = d.length / 31 then page d k ++ [v] else page d k := by
  have happend : page (d ++ [v]) k =
      page d k ++ ([v].drop (31 * k - d.length)).take (31 - (d.length - 31 * k)) := by
    simp only [page, payloadMax_eq, List.drop_append, List.take_append, List.length_drop]
  rw [happend]
  split
  · have hdrop : 31 * k - d.length = 0 := by omega
    rw [hdrop, List.drop_zero, List.take_of_length_le (by simp; omega)]
  · rw [List.append_right_eq_self, List.take_eq_nil_iff, List.drop_eq_nil_iff, List.length_singleton]
    omega

theorem pageCount_succ (n : Nat) : pageCount (n + 1) = n / 31 + 1 := by
  rw [pageCount, payloadMax_eq]
  omega

theorem flatMap_page_range (d : List Byte) (n : Nat) : (List.range n).flatMap (page d) = d.take (31 * n) := by
  induction n with
  | zero => simp
  | succ n ih => rw [List.range_succ, List.flatMap_append, ih, Nat.mul_succ, List.take_add]; simp [page]

/-- The pages of a byte sequence, one after the other, are the sequence (R162). -/
theorem flatMap_page (d : List Byte) : (List.range (pageCount d.length)).flatMap (page d) = d := by
  rw [flatMap_page_range, List.take_of_length_le]
  rw [pageCount, payloadMax_eq]
  omega

/-! ### What a slot and the serial buffer hold -/

/-- The slot holds the bytes `d`: its write cursor is their number, and they lie from offset 0 on. -/
def Slot.Holds (sl : Slot) (d : List Byte) : Prop :=
  sl.wr.toNat = d.length ∧ Memory.readBytes sl.mem 0 d.length = some d

theorem Slot.Holds.stored {sl : Slot} {d : List Byte} (h : sl.Holds d) (hlt : d.length < 31) (v : Byte) :
    (sl.stored d.length v).Holds (d ++ [v]) := by
  refine ⟨?_, Memory.readBytes_append h.2 (fun k hk => ?_) fun a ha => Memory.read_write_other _ _ (by omega)⟩
  · simp only [Slot.stored, BitVec.toNat_ofNat, List.length_append, List.length_singleton]
    omega
  · obtain rfl : k = 0 := by simpa using hk
    exact Memory.read_write_self _ _ _

/-- The serial buffer holds the bytes `d`: as many slots as `d` has pages are queued, slot `k` holding page `k`. -/
structure State.Queued (s : State) (d : List Byte) : Prop where
  pages : s.pq.toNat = pageCount d.length
  slot  : ∀ k < s.cfg.serialSlots, ∃ sl, s.slots[k]? = some sl ∧ sl.Holds (page d k)

theorem State.Inv.queued_nil {s : State} (hs : s.Inv) (hpq : s.pq.toNat = 0) : s.Queued [] := by
  refine ⟨hpq, fun k hk => ?_⟩
  obtain ⟨sl, hsl, -⟩ := hs.slot_exists hk
  obtain ⟨-, -, hwr, -⟩ := hs.slot_regs hsl
  rw [page_nil]
  exact ⟨sl, hsl, hwr (by omega), rfl⟩

/-- Replacing a slot keeps the queue when the slot holds its page again. -/
theorem State.Queued.of_set {s t : State} {d e : List Byte} {j : Nat} {sl : Slot} (hs : s.Queued d)
    (hpq : t.pq.toNat = pageCount e.length) (hcfg : t.cfg = s.cfg) (hslots : t.slots = s.slots.set j sl)
    (hj : sl.Holds (page e j)) (hother : ∀ k, k ≠ j → page e k = page d k) : t.Queued e := by
  refine ⟨hpq, fun k hk => ?_⟩
  rw [hcfg] at hk
  obtain ⟨sl', hsl', hholds⟩ := hs.slot k hk
  rw [hslots]
  by_cases hkj : k = j
  · obtain rfl := hkj
    exact ⟨sl, by rw [List.getElem?_set_self (List.getElem?_eq_some_iff.1 hsl').1], hj⟩
  · exact ⟨sl', by rw [List.getElem?_set_ne (Ne.symm hkj), hsl'], hother k hkj ▸ hholds⟩

/-! ### `SB_PUT` -/

section
variable {s : State} {sl : Slot}

theorem exec_sbPut_of_empty (hpq : s.pq.toNat = 0) (v : Byte) : exec (.sbPut v) s = putByte s 0 0 1#5 v := if_pos hpq

theorem exec_sbPut_of_room (hpq : 0 < s.pq.toNat) (hsl : s.slots[s.pq.toNat - 1]? = some sl)
    (hwr : sl.wr.toNat < 31) (v : Byte) :
    exec (.sbPut v) s = putByte s (s.pq.toNat - 1) sl.wr.toNat s.pq v := by
  simp only [exec, execSbPut, if_neg (Nat.ne_of_gt hpq), slotAt_ok.2 hsl]
  exact if_pos hwr

theorem exec_sbPut_of_full_slot (hpq : 0 < s.pq.toNat) (hsl : s.slots[s.pq.toNat - 1]? = some sl)
    (hwr : sl.wr.toNat = 31) (hslots : s.pq.toNat < s.cfg.serialSlots) (v : Byte) :
    exec (.sbPut v) s = putByte s s.pq.toNat 0 (s.pq + 1#5) v := by
  simp only [exec, execSbPut, if_neg (Nat.ne_of_gt hpq), slotAt_ok.2 hsl, payloadMax_eq, hwr, if_neg (Nat.lt_irrefl 31),
    if_pos hslots, Nat.sub_add_cancel hpq]

end

/-- With `n` bytes held, the next one goes to offset `n % 31` of slot `n / 31`, which is the last slot queued then. -/
theorem State.Queued.exec_sbPut {s : State} {d : List Byte} (hs : s.Queued d) (hmax : s.cfg.serialSlots ≤ 16)
    (hroom : d.length < 31 * s.cfg.serialSlots) (v : Byte) :
    ∃ pq, pq.toNat = d.length / 31 + 1 ∧
      exec (.sbPut v) s = putByte s (d.length / 31) (d.length % 31) pq v := by
  obtain ⟨hpages, hslot⟩ := hs
  rw [pageCount, payloadMax_eq] at hpages
  rcases Nat.eq_zero_or_pos s.pq.toNat with hpq | hpq
  · have hnil : d.length = 0 := by omega
    exact ⟨1#5, by simp [hnil], by simpa [hnil] using exec_sbPut_of_empty hpq v⟩
  · obtain ⟨sl, hsl, hwr, -⟩ := hslot (s.pq.toNat - 1) (by omega)
    rw [page_length] at hwr
    by_cases hfull : d.length % 31 = 0
    · refine ⟨s.pq + 1#5, by rw [BitVec.toNat_add]; simp; omega, ?_⟩
      rw [exec_sbPut_of_full_slot hpq hsl (by omega) (by omega), hfull, show s.pq.toNat = d.length / 31 by omega]
    · refine ⟨s.pq, by omega, ?_⟩
      rw [exec_sbPut_of_room hpq hsl (by omega), show sl.wr.toNat = d.length % 31 by omega,
        show s.pq.toNat - 1 = d.length / 31 by omega]

/-- `SB_PUT` appends its byte to those held (R160). -/
theorem State.Queued.put {s : State} {d : List Byte} (hs : s.Queued d) (hmax : s.cfg.serialSlots ≤ 16)
    (hroom : d.length < 31 * s.cfg.serialSlots) (v : Byte) :
    ∃ t, exec (.sbPut v) s = .next t ∧ t.Queued (d ++ [v]) ∧ t.resp = some ⟨.ok, 0#16⟩ ∧ t.cfg = s.cfg ∧
      t.ps = s.ps := by
  obtain ⟨pq, hpq, hexec⟩ := hs.exec_sbPut hmax hroom v
  obtain ⟨sl, hsl, hholds⟩ := hs.slot (d.length / 31) (by omega)
  have hlen : (page d (d.length / 31)).length = d.length % 31 := by rw [page_length]; omega
  refine ⟨_, hexec.trans (putByte_next.2 ⟨sl, hsl, by simp; omega, rfl⟩), ?_, rfl, rfl, rfl⟩
  refine hs.of_set ?_ rfl rfl ?_ fun k hk => ?_
  · rw [List.length_append, List.length_singleton, pageCount_succ]
    exact hpq
  · rw [page_append_singleton, if_pos rfl, ← hlen]
    exact hholds.stored (by omega) v
  · rw [page_append_singleton, if_neg hk]

/-- R162: bytes put into an empty buffer are held by it, page by page. -/
theorem runTrace_sbPut {s : State} (hs : s.Queued []) (hmax : s.cfg.serialSlots ≤ 16) {d : List Byte}
    (hroom : d.length ≤ 31 * s.cfg.serialSlots) :
    ∃ t, runTrace (d.map .sbPut) s = some (List.replicate d.length ⟨.ok, 0#16⟩, t) ∧ t.Queued d ∧ t.cfg = s.cfg ∧
      t.ps = s.ps := by
  induction d using List.reverseRecOn with
  | nil => exact ⟨s, rfl, hs, rfl, rfl⟩
  | append_singleton d v ih =>
    rw [List.length_append, List.length_singleton] at hroom
    obtain ⟨t, hrun, ht, hcfg, hps⟩ := ih (by omega)
    obtain ⟨u, hput, hu, hresp, hcfg', hps'⟩ := ht.put (hcfg ▸ hmax) (hcfg ▸ hroom) v
    refine ⟨u, ?_, hu, hcfg'.trans hcfg, hps'.trans hps⟩
    rw [List.map_append, List.length_append, List.replicate_add]
    exact runTrace_append hrun (runTrace_singleton hput hresp)

/-! ### The send commands -/

/-- `RES` of a send command as a number (R163). -/
theorem resSend_mk {n : BitVec 5} {d : List Byte} (hn : n.toNat = d.length) {idx : Nat} (hidx : idx < 16) :
    resSend n (mk 0#1 idx d) = BitVec.ofNat 16 (256 * d.length + 8 * idx + (ck d).toNat) := by
  apply BitVec.eq_of_toNat_eq
  have := ck_lt d
  have := n.isLt
  rw [resSend_toNat, mk_toNat, BitVec.toNat_ofNat, BitVec.toNat_ofNat]
  omega

/-- The response of the command that frames page `k` of `d`: `N` and the header (R163). -/
def sendResponse (d : List Byte) (k : Nat) : Response :=
  ⟨.ok, BitVec.ofNat 16 (256 * (page d k).length + 8 * (pageCount d.length - 1 - k) + (ck (page d k)).toNat)⟩

/-- Framing slot `k` answers the header of page `k` and keeps the bytes held. -/
theorem State.Queued.send {s : State} {d : List Byte} (hs : s.Queued d) (hmax : s.cfg.serialSlots ≤ 16)
    (hpages : pageCount d.length ≤ s.cfg.serialSlots) {k : Nat} (hk : k < pageCount d.length) (ps : BitVec 5) :
    ∃ t, sendSlot s k (pageCount d.length - 1 - k) ps = .next t ∧ t.Queued d ∧ t.resp = some (sendResponse d k) ∧
      t.cfg = s.cfg ∧ t.ps = ps := by
  obtain ⟨sl, hsl, hholds⟩ := hs.slot k (by omega)
  obtain ⟨hwr, hbytes⟩ := id hholds
  have hlen := page_length d k
  refine ⟨_, sendSlot_next.2 ⟨sl, page d k, hsl, by simp; omega, hwr ▸ hbytes, rfl⟩, ?_, ?_, rfl, rfl⟩
  · exact hs.of_set hs.pages rfl rfl hholds fun _ _ => rfl
  · rw [resSend_mk hwr (by omega)]
    rfl

theorem exec_sbSendFirst_of_queued {s : State} (hpq : 0 < s.pq.toNat) (hps : s.ps.toNat = 0) :
    exec .sbSendFirst s = sendSlot s 0 (s.pq.toNat - 1) 1#5 := if_pos ⟨hpq, hps⟩

theorem exec_sbSendNext_of_lt {s : State} (hps : 1 ≤ s.ps.toNat) (hlt : s.ps.toNat < s.pq.toNat) :
    exec .sbSendNext s = sendSlot s s.ps.toNat (s.pq.toNat - 1 - s.ps.toNat) (s.ps + 1#5) := if_pos ⟨hps, hlt⟩

theorem exec_sbSendNext_of_all_sent {s : State} (hps : s.ps.toNat = s.pq.toNat) :
    exec .sbSendNext s = .next { s with resp := some ⟨.badState, 0#16⟩ } := if_neg (by omega)

/-- `SB_SEND_NEXT` frames the pages not sent yet, one by one, and then refuses (R165). -/
theorem runTrace_sbSendNext {s : State} {d : List Byte} (hs : s.Queued d) (hmax : s.cfg.serialSlots ≤ 16)
    (hpages : pageCount d.length ≤ s.cfg.serialSlots) {n : Nat} (hps : 1 ≤ s.ps.toNat)
    (hn : s.ps.toNat + n = pageCount d.length) :
    ∃ t, runTrace (List.replicate (n + 1) .sbSendNext) s =
        some ((List.range' s.ps.toNat n).map (sendResponse d) ++ [⟨.badState, 0#16⟩], t) ∧ t.Queued d ∧
      t.cfg = s.cfg := by
  induction n generalizing s with
  | zero =>
    have hsent : s.ps.toNat = s.pq.toNat := by rw [hs.pages]; exact hn
    exact ⟨_, runTrace_singleton (exec_sbSendNext_of_all_sent hsent) rfl, ⟨hs.pages, hs.slot⟩, rfl⟩
  | succ n ih =>
    obtain ⟨t, hsend, ht, hresp, hcfg, htps⟩ := hs.send hmax hpages (k := s.ps.toNat) (by omega) (s.ps + 1#5)
    have hexec := exec_sbSendNext_of_lt hps (by rw [hs.pages]; omega)
    rw [hs.pages, hsend] at hexec
    have hps' : t.ps.toNat = s.ps.toNat + 1 := by rw [htps, BitVec.toNat_add]; simp; omega
    obtain ⟨u, hrun, hu, hcfg'⟩ := ih ht (hcfg ▸ hmax) (hcfg ▸ hpages) (by omega) (by omega)
    rw [hps'] at hrun
    exact ⟨u, runTrace_cons hexec hresp hrun, hu, hcfg'.trans hcfg⟩

/-- `SB_SEND_FIRST` and `SB_SEND_NEXT` until it refuses frame every page once, in order (R164, R165). -/
theorem runTrace_sends {s : State} {d : List Byte} (hs : s.Queued d) (hmax : s.cfg.serialSlots ≤ 16)
    (hpages : pageCount d.length ≤ s.cfg.serialSlots) (hd : 1 ≤ d.length) (hps : s.ps.toNat = 0) :
    ∃ t, runTrace (.sbSendFirst :: List.replicate (pageCount d.length) .sbSendNext) s =
        some ((List.range (pageCount d.length)).map (sendResponse d) ++ [⟨.badState, 0#16⟩], t) ∧ t.Queued d ∧
      t.cfg = s.cfg := by
  obtain ⟨n, hn⟩ : ∃ n, pageCount d.length = n + 1 := ⟨(d.length - 1) / 31, by rw [pageCount, payloadMax_eq]; omega⟩
  obtain ⟨t, hsend, ht, hresp, hcfg, htps⟩ := hs.send hmax hpages (k := 0) (by omega) 1#5
  have hexec := exec_sbSendFirst_of_queued (by rw [hs.pages]; omega) hps
  rw [hs.pages] at hexec
  rw [Nat.sub_zero, ← hexec] at hsend
  have hps' : t.ps.toNat = 1 := by rw [htps]; rfl
  obtain ⟨u, hrun, hu, hcfg'⟩ := runTrace_sbSendNext ht (hcfg ▸ hmax) (hcfg ▸ hpages) (n := n) (by omega) (by omega)
  rw [hps'] at hrun
  refine ⟨u, ?_, hu, hcfg'.trans hcfg⟩
  rw [hn, List.range_eq_range', List.range'_succ]
  exact runTrace_cons hsend hresp hrun

/-- The send commands keep the invariant. -/
theorem exec_send_inv {i : Instr} (hi : i = .sbSendFirst ∨ i = .sbSendNext) {s t : State} (hs : s.Inv)
    (h : exec i s = .next t) : t.Inv := by
  rcases hi with rfl | rfl
  · rw [exec, execSbSendFirst] at h
    split at h
    case isTrue hpq => exact sendSlot_inv hs h hpq.1
    case isFalse => exact answer_next.1 h ▸ inv_respond hs _ _
  · rw [exec, execSbSendNext] at h
    split at h
    case isTrue hps => exact sendSlot_inv hs h (by rw [BitVec.toNat_add]; simp; omega)
    case isFalse => exact answer_next.1 h ▸ inv_respond hs _ _

end Sys2Proof.Machine
end

section
/-! SUPPORT. The whole transfer: bytes in at the serial side, frames, and the same bytes in a page buffer (R173). -/

namespace Sys2Proof.Machine

/-- The frame of page `k` of `d` (R163, R173). -/
def frameOf (d : List Byte) (k : Nat) : DataIn := mk 0#1 (pageCount d.length - 1 - k) (page d k) :: page d k

theorem framesOf_eq (d : List Byte) : framesOf d = (List.range (pageCount d.length)).map (frameOf d) := rfl

theorem framesOf_length (d : List Byte) : (framesOf d).length = pageCount d.length := by simp [framesOf_eq]

theorem framesOf_getElem? {d : List Byte} {k : Nat} (hk : k < pageCount d.length) :
    (framesOf d)[k]? = some (frameOf d k) := by simp [framesOf_eq, hk]

/-- The payloads of the frames, one after the other, are the bytes. -/
theorem flatMap_framePayload_framesOf (d : List Byte) : (framesOf d).flatMap framePayload = d := by
  rw [framesOf_eq, List.flatMap_map]
  exact flatMap_page d

/-- The frames have 1 to 31 payload bytes, and their indices count down to 0. -/
theorem framesOf_inOrder {d : List Byte} (hd : pageCount d.length ≤ 16) : InOrder (framesOf d) := by
  intro k hk
  have hk' : k < pageCount d.length := framesOf_length d ▸ hk
  have hget : (framesOf d)[k] = frameOf d k := by simp [framesOf_eq]
  have hlen := page_length d k
  rw [hget, framesOf_length, frameOf, frameHeader_cons, hdrIndex_mk_toNat, List.length_cons]
  rw [pageCount, payloadMax_eq] at *
  omega

/-- `RX_FRAME` of the frames is `RB_PROCESS` of them: each has its checksum, and no stream flag (R142, R163). -/
theorem runTrace_rxFrame_framesOf (d : List Byte) (s : State) :
    runTrace ((framesOf d).map .rxFrame) s = runTrace ((framesOf d).map .rbProcess) s := by
  rw [framesOf_eq, List.map_map, List.map_map]
  induction List.range (pageCount d.length) generalizing s with
  | nil => rfl
  | cons k ks ih =>
    have hexec : exec (.rxFrame (frameOf d k)) s = exec (.rbProcess (frameOf d k)) s :=
      exec_rxFrame_eq_rbProcess (hdrCk_mk _ _ _).symm (by rw [hdrStream_mk]; decide) s
    simp only [List.map_cons, Function.comp_apply, runTrace, hexec, ih]

/-- Putting and sending keep the invariant and the engine's state. -/
theorem runTrace_put_send_keeps {s t : State} {d : List Byte} {n : Nat} {rs : List Response} (hs : s.Inv)
    (h : runTrace (d.map .sbPut ++ .sbSendFirst :: List.replicate n .sbSendNext) s = some (rs, t)) :
    t.Inv ∧ sameRadio s t := by
  refine runTrace_keeps (P := fun u => u.Inv ∧ sameRadio s u) (fun i hi u v hu huv => ?_) ⟨hs, rfl, rfl, rfl⟩ h
  obtain ⟨hinv, hcur, hrb0, hrb1⟩ := hu
  have hi' : (∃ v, i = .sbPut v) ∨ i = .sbSendFirst ∨ i = .sbSendNext := by
    simp only [List.mem_append, List.mem_map, List.mem_cons, List.mem_replicate] at hi
    rcases hi with ⟨v, -, rfl⟩ | rfl | ⟨-, rfl⟩ <;> simp
  have hv : v.Inv := by
    rcases hi' with ⟨w, rfl⟩ | hsend
    · exact sbPut_inv hinv huv
    · exact exec_send_inv hsend hinv huv
  have hradio : sameRadio u v := by
    rcases hi' with ⟨w, rfl⟩ | rfl | rfl <;> exact sameRadio_of_exec rfl (by simp) huv
  obtain ⟨hcur', hrb0', hrb1'⟩ := hradio
  exact ⟨hv, hcur'.trans hcur, hrb0'.trans hrb0, hrb1'.trans hrb1⟩

/-- Settles O39: the bytes are held in the slots page by page, the send commands answer the headers of the pages, and
the frames made of both are a page in order for the engine, whose state the serial side has not touched. -/
theorem transferDeliversTheBytes : Obligations.TransferDeliversTheBytes := by
  unfold Obligations.TransferDeliversTheBytes
  intro s d hs hpq hd hroom hcur hempty _
  obtain ⟨hpspq, -, hmax, -⟩ := sb_bounds hs
  have hpages : pageCount d.length ≤ s.cfg.serialSlots := by rw [pageCount, payloadMax_eq]; omega
  obtain ⟨t₁, hputs, ht₁, hcfg₁, hps₁⟩ := runTrace_sbPut (hs.queued_nil hpq) hmax hroom
  obtain ⟨t, hsends, ht, hcfg⟩ := runTrace_sends ht₁ (hcfg₁ ▸ hmax) (hcfg₁ ▸ hpages) hd (by rw [hps₁]; omega)
  have hrun := runTrace_append hputs hsends
  obtain ⟨htinv, htcur, htrb0, -⟩ := runTrace_put_send_keeps hs hrun
  rw [hcur] at htcur
  obtain ⟨u, hframes, hwr, hbytes, hgot, -⟩ := inOrderFramesMakeThePage t (framesOf d) htinv
    (by rw [htcur, State.rb_bufA, htrb0]; exact hempty) (by rw [framesOf_length, pageCount, payloadMax_eq]; omega)
    (by rw [framesOf_length]; omega) (framesOf_inOrder (by omega))
  rw [flatMap_framePayload_framesOf] at hwr hbytes
  rw [htcur] at hframes hwr hbytes hgot
  refine ⟨t, u, hrun, fun k hk => ?_, ?_, hwr, hbytes, hgot⟩
  · obtain ⟨sl, hsl, hslwr, hslbytes⟩ := ht.slot k (by rw [hcfg, hcfg₁]; omega)
    exact ⟨sl, hsl, hslwr, hslbytes, framesOf_getElem? hk⟩
  · rw [runTrace_rxFrame_framesOf, hframes, framesOf_length]
    simp [BufId.bit]

end Sys2Proof.Machine
end

section
/-! SUPPORT. `SB_PUT`, branch by branch (R160, R161), and the pages it makes of the input (R162). -/

namespace Sys2Proof.Machine

/-! ### Counters and cursors -/

theorem toNat_add_one_of_lt {x : BitVec 5} (h : x.toNat < 31) : (x + 1#5).toNat = x.toNat + 1 := by
  simp only [BitVec.toNat_add, BitVec.toNat_ofNat]
  omega

theorem ofNat_toNat_add_one (x : BitVec 5) : BitVec.ofNat 5 (x.toNat + 1) = x + 1#5 := by
  rw [BitVec.ofNat_add, BitVec.ofNat_toNat, BitVec.setWidth_eq]

/-! ### The three storing branches -/

/-- A slot after a byte is stored in it: what `StoredByte` says of it (R160). -/
theorem Slot.stored_spec (sl : Slot) {off : Nat} (hoff : off < 31) (v : Byte) :
    (sl.stored off v).wr.toNat = off + 1 ∧ (sl.stored off v).rd = sl.rd ∧
    Memory.read (sl.stored off v).mem off = some v ∧
    ∀ a, a ≠ off → Memory.read (sl.stored off v).mem a = Memory.read sl.mem a := by
  refine ⟨?_, rfl, Memory.read_write_self _ _ _, fun a ha => Memory.read_write_other _ _ ha⟩
  simp only [Slot.stored, BitVec.toNat_ofNat]
  omega

theorem storedByte_of_set {s t : State} {j off : Nat} {sl : Slot} {v : Byte} (hsl : s.slots[j]? = some sl)
    (hoff : off < 31) (ht : t.slots = s.slots.set j (sl.stored off v)) : StoredByte s t j off v := by
  obtain ⟨hj, -⟩ := List.getElem?_eq_some_iff.1 hsl
  rw [StoredByte, ht]
  exact ⟨⟨sl, sl.stored off v, hsl, List.getElem?_set_self hj, sl.stored_spec hoff v⟩, List.length_set,
    fun i hi => List.getElem?_set_ne (Ne.symm hi)⟩

/-- Storing a byte in a slot the configuration has writes that slot, `SB.pq` and the response, and nothing else. -/
theorem putByte_storedByte {s : State} {j off : Nat} {sl : Slot} (hsl : s.slots[j]? = some sl) (hoff : off < 31)
    (pq : BitVec 5) (v : Byte) :
    ∃ t, putByte s j off pq v = .next t ∧ StoredByte s t j off v ∧ t.pq = pq ∧ t.ps = s.ps ∧ sameRadio s t ∧
      sameHost s t ∧ t.resp = some ⟨.ok, 0#16⟩ :=
  ⟨_, putByte_next.2 ⟨sl, hsl, hoff, rfl⟩, storedByte_of_set hsl hoff rfl, rfl, rfl, ⟨rfl, rfl, rfl⟩, ⟨rfl, rfl⟩, rfl⟩

/-- The first byte of an empty serial buffer starts slot 0 (R160). -/
theorem exec_sbPut_starts_slot_zero {s : State} (hs : s.Inv) (hpq : s.pq.toNat = 0) (v : Byte) :
    ∃ t, exec (.sbPut v) s = .next t ∧ StoredByte s t 0 0 v ∧ t.pq.toNat = 1 ∧ t.ps = s.ps ∧ sameRadio s t ∧
      sameHost s t ∧ t.resp = some ⟨.ok, 0#16⟩ := by
  obtain ⟨-, -, -, hone⟩ := sb_bounds hs
  obtain ⟨sl, hsl, -⟩ := hs.slot_exists hone
  obtain ⟨t, hput, hstored, htpq, hrest⟩ := putByte_storedByte hsl (off := 0) (by decide) 1#5 v
  exact ⟨t, (exec_sbPut_of_empty hpq v).trans hput, hstored, by rw [htpq]; rfl, hrest⟩

/-- A byte for a full slot that is not the last starts the next one (R160). -/
theorem exec_sbPut_starts_next_slot {s : State} {sl : Slot} (hs : s.Inv) (hpq : 0 < s.pq.toNat)
    (hsl : s.slots[s.pq.toNat - 1]? = some sl) (hwr : sl.wr.toNat = 31) (hroom : s.pq.toNat < s.cfg.serialSlots)
    (v : Byte) :
    ∃ t, exec (.sbPut v) s = .next t ∧ StoredByte s t s.pq.toNat 0 v ∧ t.pq.toNat = s.pq.toNat + 1 ∧ t.ps = s.ps ∧
      sameRadio s t ∧ sameHost s t ∧ t.resp = some ⟨.ok, 0#16⟩ := by
  obtain ⟨-, -, hmax, -⟩ := sb_bounds hs
  obtain ⟨next, hnext, -⟩ := hs.slot_exists hroom
  obtain ⟨t, hput, hstored, htpq, hrest⟩ := putByte_storedByte hnext (off := 0) (by decide) (s.pq + 1#5) v
  exact ⟨t, (exec_sbPut_of_full_slot hpq hsl hwr hroom v).trans hput, hstored,
    htpq ▸ toNat_add_one_of_lt (by omega), hrest⟩

/-! ### The overflow -/

/-- With the last slot full too, the buffer is emptied (R161). -/
theorem exec_sbPut_of_all_full {s : State} {sl : Slot} (hs : s.Inv) (hpq : s.pq.toNat = s.cfg.serialSlots)
    (hsl : s.slots[s.pq.toNat - 1]? = some sl) (hwr : sl.wr.toNat = 31) (v : Byte) :
    exec (.sbPut v) s = answer s.clearSb .overflow 0#16 := by
  obtain ⟨-, -, -, hone⟩ := sb_bounds hs
  have hpos : s.pq.toNat ≠ 0 := by omega
  simp only [exec, execSbPut, if_neg hpos, slotAt_ok.2 hsl, payloadMax_eq, hwr, if_neg (Nat.lt_irrefl 31)]
  exact if_neg (Nat.not_lt.2 hpq.ge)

/-- Settles O26: the slot each branch stores in exists, and storing writes that slot and `pq`. -/
theorem sbPutStoresTheByteOrOverflows : Obligations.SbPutStoresTheByteOrOverflows := by
  unfold Obligations.SbPutStoresTheByteOrOverflows
  refine ⟨decode_formatH (opc := 0x40#8) rfl, fun s v hs hpq => exec_sbPut_starts_slot_zero hs hpq v,
    fun s v sl hs hpq hsl hwr => ?_,
    fun s v sl hs hpq hsl hwr hroom => exec_sbPut_starts_next_slot hs hpq hsl hwr hroom v,
    fun s v sl hs hpq hsl hwr => exec_sbPut_of_all_full hs hpq hsl hwr v⟩
  rw [exec_sbPut_of_room hpq hsl hwr]
  exact putByte_storedByte hsl hwr s.pq v

/-- Settles O27: the emptied buffer satisfies the invariant and has nothing queued, so the next byte starts slot 0. -/
theorem sbPutOverflowEmptiesTheBuffer : Obligations.SbPutOverflowEmptiesTheBuffer := by
  unfold Obligations.SbPutOverflowEmptiesTheBuffer
  intro s v v' sl hs hpq hsl hwr
  have hcleared : (s.clearSb.respond .overflow 0#16).Inv := inv_respond (inv_clearSb hs) _ _
  obtain ⟨u, hput, hstored, hupq, -, -, -, huresp⟩ := exec_sbPut_starts_slot_zero hcleared rfl v'
  exact ⟨_, u, exec_sbPut_of_all_full hs hpq hsl hwr v, rfl, hput, hstored, hupq, huresp⟩

/-! ### The pages -/

/-- `SB_PUT` writes neither the configuration nor what the host has still to present. -/
theorem sameHost_of_exec_sbPut {s t : State} {v : Byte} (hs : s.Inv) (h : exec (.sbPut v) s = .next t) :
    sameHost s t := by
  rcases sbPut_cases h hs with ⟨_, _, _, _, -, -, rfl, -⟩ | rfl <;> exact ⟨rfl, rfl⟩

theorem runTrace_sbPut_keeps {s t : State} {d : List Byte} {rs : List Response} (hs : s.Inv)
    (h : runTrace (d.map .sbPut) s = some (rs, t)) : sameRadio s t ∧ sameHost s t := by
  suffices t.Inv ∧ sameRadio s t ∧ sameHost s t from this.2
  refine runTrace_keeps (P := fun u => u.Inv ∧ sameRadio s u ∧ sameHost s u) (fun i hi u w hu huw => ?_)
    ⟨hs, ⟨rfl, rfl, rfl⟩, rfl, rfl⟩ h
  obtain ⟨v, -, rfl⟩ := List.mem_map.1 hi
  obtain ⟨hinv, ⟨hcur, hrb0, hrb1⟩, hcfg, hpending⟩ := hu
  obtain ⟨hcur', hrb0', hrb1'⟩ := sameRadio_of_exec rfl (by simp) huw
  obtain ⟨hcfg', hpending'⟩ := sameHost_of_exec_sbPut hinv huw
  exact ⟨sbPut_inv hinv huw, ⟨hcur'.trans hcur, hrb0'.trans hrb0, hrb1'.trans hrb1⟩, hcfg'.trans hcfg,
    hpending'.trans hpending⟩

/-- Settles O37: byte by byte, the buffer holds the input so far, page by page. -/
theorem ingestCutsTheInputIntoPages : Obligations.IngestCutsTheInputIntoPages := by
  unfold Obligations.IngestCutsTheInputIntoPages
  intro s d hs hpq hroom
  obtain ⟨-, -, hmax, -⟩ := sb_bounds hs
  obtain ⟨t, hrun, ⟨hpages, hslot⟩, hcfg, hps⟩ := runTrace_sbPut (hs.queued_nil hpq) hmax hroom
  obtain ⟨hradio, hhost⟩ := runTrace_sbPut_keeps hs hrun
  exact ⟨t, hrun, hpages, hps, hradio, hhost, hcfg ▸ hslot⟩

end Sys2Proof.Machine
end

section
/-! SUPPORT. Framing a queued slot (R163 to R166), reading the transmit slot (R168), and the two together. -/

namespace Sys2Proof.Machine

/-! ### The send commands -/

/-- A queued slot holds 1 to 31 bytes (SI2 and SI3). -/
theorem State.Inv.exists_slot_holds {s : State} (hs : s.Inv) {j : Nat} (hj : j < s.pq.toNat) :
    ∃ sl d, s.slots[j]? = some sl ∧ sl.Holds d ∧ 1 ≤ d.length ∧ d.length ≤ 31 := by
  obtain ⟨-, hpq, -, -⟩ := sb_bounds hs
  obtain ⟨sl, hsl, -, -, hpresent⟩ := hs.slot_exists (Nat.lt_of_lt_of_le hj hpq)
  obtain ⟨hfull, hactive, -, -, -⟩ := hs.slot_regs hsl
  rw [payloadMax_eq] at hfull hactive
  obtain ⟨d, hd, hlen⟩ := Memory.readBytes_of_present (m := sl.mem) (base := 0) (n := sl.wr.toNat)
    fun k hk => hpresent _ (by omega)
  exact ⟨sl, d, hsl, ⟨hlen.symm, hlen ▸ hd⟩, by omega, by omega⟩

/-- A command that frames a queued slot does what R163 says. -/
theorem sendsSlot_of_exec {i : Instr} {s : State} {j idx : Nat} {ps : BitVec 5} (hs : s.Inv) (hj : j < s.pq.toNat)
    (hidx : idx < 16) (hexec : exec i s = sendSlot s j idx ps) : SendsSlot i s j idx ps := by
  obtain ⟨sl, d, hsl, ⟨hwr, hbytes⟩, h1, h31⟩ := hs.exists_slot_holds hj
  refine ⟨sl, d, hsl, h1, h31, hwr.symm, hbytes, ?_⟩
  rw [hexec, sendSlot_next.2 ⟨sl, d, hsl, by rw [hwr]; exact h31, hwr ▸ hbytes, rfl⟩, resSend_mk hwr hidx]
  rfl

/-- Settles O28: slot 0 is queued, and the index is that of the last slot queued. -/
theorem sbSendFirstFramesSlotZero : Obligations.SbSendFirstFramesSlotZero := by
  unfold Obligations.SbSendFirstFramesSlotZero
  refine ⟨decode_matchWord (opc := 0x41#8) rfl, fun s hs hpq hps => ?_, fun s _ h => if_neg (by omega)⟩
  obtain ⟨-, hle, hmax, -⟩ := sb_bounds hs
  exact sendsSlot_of_exec hs hpq (by omega) (exec_sbSendFirst_of_queued hpq hps)

/-- Settles O29: slot `ps` is queued while `ps` is below `pq`. -/
theorem sbSendNextFramesTheNextSlot : Obligations.SbSendNextFramesTheNextSlot := by
  unfold Obligations.SbSendNextFramesTheNextSlot
  refine ⟨decode_matchWord (opc := 0x42#8) rfl, fun s hs hps hlt => ?_, fun s _ h => if_neg (by omega)⟩
  obtain ⟨-, hle, hmax, -⟩ := sb_bounds hs
  refine sendsSlot_of_exec hs hlt (by omega) ?_
  rw [exec_sbSendNext_of_lt hps hlt, ofNat_toNat_add_one]

theorem exec_sbResend_of_sent {s : State} (hps : 1 ≤ s.ps.toNat) :
    exec .sbResend s = sendSlot s (s.ps.toNat - 1) (s.pq.toNat - 1 - (s.ps.toNat - 1)) s.ps :=
  if_neg (Nat.one_le_iff_ne_zero.1 hps)

/-- Settles O30: the slot sent last is queued, since `ps` is at most `pq` (SI1). -/
theorem sbResendFramesTheTransmitSlot : Obligations.SbResendFramesTheTransmitSlot := by
  unfold Obligations.SbResendFramesTheTransmitSlot
  refine ⟨decode_matchWord (opc := 0x43#8) rfl, fun s hs hps => ?_, fun s _ hps => if_pos hps⟩
  obtain ⟨hsent, hle, hmax, -⟩ := sb_bounds hs
  refine sendsSlot_of_exec hs (by omega) (by omega) ?_
  rw [exec_sbResend_of_sent hps, show s.pq.toNat - 1 - (s.ps.toNat - 1) = s.pq.toNat - s.ps.toNat by omega]

/-! ### `SB_RD` -/

section
variable {s : State} {j : Nat} {sl : Slot}

theorem exec_sbRd_of_end (hps : s.ps.toNat = j + 1) (hsl : s.slots[j]? = some sl) (hend : sl.rd = sl.wr) :
    exec .sbRd s = .next { s with resp := some ⟨.empty, 0#16⟩ } := by
  simp only [exec, execSbRd, hps, if_neg j.succ_ne_zero, Nat.add_sub_cancel, slotAt_ok.2 hsl, if_pos hend]
  rfl

theorem exec_sbRd_of_lt (hps : s.ps.toNat = j + 1) (hsl : s.slots[j]? = some sl) (hlt : sl.rd.toNat < sl.wr.toNat)
    {v : Byte} (hv : Memory.read sl.mem sl.rd.toNat = some v) :
    exec .sbRd s = .next { s with
      slots := s.slots.set j { sl with rd := sl.rd + 1#5 }
      resp := some ⟨.ok, BitVec.ofNat 16 v.toNat⟩ } := by
  have hne : sl.rd ≠ sl.wr := fun h => by simp [h] at hlt
  have hwr := sl.wr.isLt
  have hload : load payloadMax sl.mem sl.rd.toNat = .ok v := load_ok.2 ⟨by rw [payloadMax_eq]; omega, hv⟩
  simp only [exec, execSbRd, hps, if_neg j.succ_ne_zero, Nat.add_sub_cancel, slotAt_ok.2 hsl, if_neg hne, hload,
    BitVec.ofNat_toNat]
  rfl

end

/-- Settles O32: a read cursor that is not at the write cursor is below it (SI5), where the invariant has a byte. -/
theorem sbRdDeliversTheNextByte : Obligations.SbRdDeliversTheNextByte := by
  unfold Obligations.SbRdDeliversTheNextByte
  refine ⟨decode_matchWord (opc := 0x45#8) rfl, fun s _ hps => if_pos hps,
    fun s sl _ hps hsl hend => exec_sbRd_of_end (Nat.sub_add_cancel hps).symm hsl hend,
    fun s sl hs hps hsl hne => ?_⟩
  obtain ⟨-, -, -, hrd, -⟩ := hs.slot_regs hsl
  have hlt : sl.rd.toNat < sl.wr.toNat := Nat.lt_of_le_of_ne hrd (mt BitVec.eq_of_toNat_eq hne)
  obtain ⟨-, -, hmem⟩ := hs.mem
  obtain ⟨-, -, hpresent⟩ := hmem sl (List.mem_of_getElem? hsl)
  obtain ⟨v, hv⟩ := Option.isSome_iff_exists.1 (hpresent _ hlt)
  refine ⟨v, hv, ?_⟩
  rw [exec_sbRd_of_lt (Nat.sub_add_cancel hps).symm hsl hlt hv, ofNat_toNat_add_one]

/-! ### Reading a slot -/

theorem Memory.readBytes_cons {m : Memory} {base : Nat} {v : Byte} {p : List Byte} :
    Memory.readBytes m base (v :: p).length = some (v :: p) ↔
      Memory.read m base = some v ∧ Memory.readBytes m (base + 1) p.length = some p := by
  rw [List.length_cons, Memory.readBytes]
  cases Memory.read m base <;> cases Memory.readBytes m (base + 1) p.length <;> simp

/-- From any read cursor, reads deliver the bytes up to the write cursor and then `EMPTY` (R168). -/
theorem runTrace_sbRd {s : State} {j : Nat} {sl : Slot} {p : List Byte} (hps : s.ps.toNat = j + 1)
    (hsl : s.slots[j]? = some sl) (hwr : sl.wr.toNat = sl.rd.toNat + p.length)
    (hp : Memory.readBytes sl.mem sl.rd.toNat p.length = some p) :
    ∃ slots q, runTrace (List.replicate p.length .sbRd ++ [.sbRd]) s =
      some (p.map (fun v => ⟨.ok, BitVec.ofNat 16 v.toNat⟩) ++ [⟨.empty, 0#16⟩],
        { s with slots := slots, resp := q }) := by
  induction p generalizing s sl with
  | nil => exact ⟨_, _, runTrace_singleton (exec_sbRd_of_end hps hsl (BitVec.eq_of_toNat_eq hwr.symm)) rfl⟩
  | cons v p ih =>
    rw [List.length_cons] at hwr
    obtain ⟨hv, hp'⟩ := Memory.readBytes_cons.1 hp
    have hlt := sl.wr.isLt
    have hrd : (sl.rd + 1#5).toNat = sl.rd.toNat + 1 := toNat_add_one_of_lt (by omega)
    obtain ⟨slots, q, hrun⟩ := ih (s := { s with
        slots := s.slots.set j { sl with rd := sl.rd + 1#5 }
        resp := some ⟨.ok, BitVec.ofNat 16 v.toNat⟩ }) (sl := { sl with rd := sl.rd + 1#5 }) hps
      (List.getElem?_set_self (List.getElem?_eq_some_iff.1 hsl).1)
      (by rw [hwr, hrd, Nat.add_assoc, Nat.add_comm 1]) (by rw [hrd]; exact hp')
    exact ⟨slots, q, runTrace_cons (exec_sbRd_of_lt hps hsl (by omega) hv) rfl hrun⟩

/-- A framed slot is the transmit slot, with its read cursor at 0, so the reads deliver all of it. -/
theorem SendsSlot.runTrace_reads {i : Instr} {s : State} {j idx : Nat} {ps : BitVec 5} (h : SendsSlot i s j idx ps)
    (hps : ps.toNat = j + 1) :
    ∃ sl d slots q, s.slots[j]? = some sl ∧ 1 ≤ d.length ∧ Memory.readBytes sl.mem 0 sl.wr.toNat = some d ∧
      runTrace (i :: (List.replicate d.length .sbRd ++ [.sbRd])) s =
        some (⟨.ok, BitVec.ofNat 16 (256 * d.length + 8 * idx + (ck d).toNat)⟩ ::
          (d.map (fun v => ⟨.ok, BitVec.ofNat 16 v.toNat⟩) ++ [⟨.empty, 0#16⟩]),
          { s with slots := slots, ps := ps, resp := q }) := by
  obtain ⟨sl, d, hsl, h1, -, hlen, hbytes, hexec⟩ := h
  obtain ⟨slots, q, hrun⟩ := runTrace_sbRd (s := { s with
      slots := s.slots.set j { sl with rd := 0#5 }
      ps := ps
      resp := some ⟨.ok, BitVec.ofNat 16 (256 * d.length + 8 * idx + (ck d).toNat)⟩ })
    (sl := { sl with rd := 0#5 }) hps (List.getElem?_set_self (List.getElem?_eq_some_iff.1 hsl).1)
    (by simp [hlen]) hbytes
  exact ⟨sl, d, slots, q, hsl, h1, hlen ▸ hbytes, runTrace_cons hexec rfl hrun⟩

/-- Settles O38: the three commands frame slot `j` with index `pq - 1 - j` and leave it the transmit slot. -/
theorem readsAfterASendDeliverTheSlot : Obligations.ReadsAfterASendDeliverTheSlot := by
  unfold Obligations.ReadsAfterASendDeliverTheSlot
  intro s i j hs hi
  obtain ⟨-, hfirst, -⟩ := sbSendFirstFramesSlotZero
  obtain ⟨-, hnext, -⟩ := sbSendNextFramesTheNextSlot
  obtain ⟨-, hresend, -⟩ := sbResendFramesTheTransmitSlot
  obtain ⟨-, hle, hmax, -⟩ := sb_bounds hs
  have hsends : ∃ ps : BitVec 5, ps.toNat = j + 1 ∧ SendsSlot i s j (s.pq.toNat - 1 - j) ps := by
    rcases hi with ⟨rfl, hpq, hps, rfl⟩ | ⟨rfl, hps, hlt, rfl⟩ | ⟨rfl, hps, hj⟩
    · exact ⟨1#5, rfl, hfirst s hs hpq hps⟩
    · exact ⟨_, by rw [BitVec.toNat_ofNat]; omega, hnext s hs hps hlt⟩
    · refine ⟨s.ps, hj.symm, ?_⟩
      have h := hresend s hs hps
      rwa [← hj, Nat.add_sub_cancel, Nat.add_comm, Nat.sub_add_eq] at h
  obtain ⟨ps, hps, hsend⟩ := hsends
  obtain ⟨sl, d, slots, q, hsl, h1, hbytes, hrun⟩ := hsend.runTrace_reads hps
  exact ⟨sl, d, _, hsl, h1, hbytes, hrun, rfl, hps, ⟨rfl, rfl, rfl⟩, rfl, rfl⟩

end Sys2Proof.Machine
end

section
/-! SUPPORT. The word of format S, and the serial commands that clear registers or read them out (R167, R169 to
R172). -/

namespace Sys2Proof

/-- A word of format S is its row's command on the slot number in bits 3:0 (R85, R92). -/
theorem decode_formatS {opc : BitVec 8} {mkInstr : BitVec 4 → Instr}
    (hrow : rowOf opc = some ⟨opc, .s, fun w _ => mkInstr (opS w)⟩) (n : BitVec 4) (d : DataIn) :
    decode ⟨matchWord opc ||| n.setWidth 32, d⟩ = .ok (mkInstr n) := by
  have hword : matchWord opc ||| n.setWidth 32 = packWord opc 0#1 (n.setWidth 16) := by
    simp [packWord_eq_or]
  rw [hword, decode_packWord hrow (packWord_mask_s opc n)]
  simp only [opS_packWord]

namespace Machine

/-- Two 5-bit numbers in one result lie side by side (R170, R171). -/
theorem ofNat_shiftLeft_or (hi lo : BitVec 5) :
    BitVec.ofNat 16 ((hi.toNat <<< 8) ||| lo.toNat) = resPair hi lo := by
  have hlo : lo.toNat < 2 ^ 8 := Nat.lt_trans lo.isLt (by decide)
  rw [← Nat.shiftLeft_add_eq_or_of_lt hlo, Nat.shiftLeft_eq, Nat.mul_comm, ← resPair_toNat, BitVec.ofNat_toNat,
    BitVec.setWidth_eq]

/-- Settles O31: `ps` is the one register written. -/
theorem sbRestartClearsPagesSent : Obligations.SbRestartClearsPagesSent := by
  unfold Obligations.SbRestartClearsPagesSent
  exact ⟨decode_matchWord (opc := 0x44#8) rfl, fun s => rfl⟩

/-- Settles O33: `RES` is the flag of the comparison. -/
theorem sbPendingComparesCounters : Obligations.SbPendingComparesCounters := by
  unfold Obligations.SbPendingComparesCounters
  refine ⟨decode_matchWord (opc := 0x46#8) rfl, fun s _ => ?_⟩
  calc exec .sbPending s
    _ = answer s .ok (resFlag (decide (s.ps.toNat < s.pq.toNat))) := rfl
    _ = _ := by simp only [answer, State.respond, resFlag, decide_eq_true_eq]

/-- Settles O34: `RES` is the two counters side by side. -/
theorem sbStatShowsCounters : Obligations.SbStatShowsCounters := by
  unfold Obligations.SbStatShowsCounters
  refine ⟨decode_matchWord (opc := 0x47#8) rfl, fun s _ => ?_⟩
  rw [ofNat_shiftLeft_or]
  rfl

theorem exec_sbSlot_of_slot {s : State} {n : BitVec 4} {sl : Slot} (hn : n.toNat < s.cfg.serialSlots)
    (hsl : s.slots[n.toNat]? = some sl) : exec (.sbSlot n) s = answer s .ok (resPair sl.rd sl.wr) := by
  simp only [exec, execSbSlot, if_neg (Nat.not_le.2 hn), slotAt_ok.2 hsl]

/-- Settles O35: a slot below `SERIAL_SLOTS` exists, and `RES` is its two cursors side by side. -/
theorem sbSlotShowsCursors : Obligations.SbSlotShowsCursors := by
  unfold Obligations.SbSlotShowsCursors
  refine ⟨decode_formatS (opc := 0x48#8) rfl, fun s n hs hn => ?_, fun s n _ hn => if_pos hn⟩
  obtain ⟨sl, hsl, -⟩ := hs.slot_exists hn
  refine ⟨sl, hsl, ?_⟩
  rw [exec_sbSlot_of_slot hn hsl, ofNat_shiftLeft_or]
  rfl

/-- Settles O36: the counters and the cursors of each slot are the registers written. -/
theorem sbResetEmptiesTheBuffer : Obligations.SbResetEmptiesTheBuffer := by
  unfold Obligations.SbResetEmptiesTheBuffer
  exact ⟨decode_matchWord (opc := 0x49#8) rfl, fun s => rfl⟩

end Machine

end Sys2Proof
end

section
/-! SUPPORT. `SYS_RESET` (R190): the word the port takes in every state, and the three single resets it unites. -/

namespace Sys2Proof.Machine

theorem runRequest_of_decode {r : Request} {i : Instr} (h : decode r = .ok i) (s : State) :
    runRequest r s = exec i s := by
  simp only [runRequest, h]

theorem accepts_of_decode_sysReset {r : Request} (h : decode r = .ok .sysReset) (s : State) : accepts r s := by
  refine .inl ?_
  simp only [isSysReset, h, decide_true]

/-- `SYS_RESET` needs no invariant: it is "legal in every state" (R190). -/
theorem step_sysReset {s : State} {r : Request} {rest : List PortEvent} (h : decode r = .ok .sysReset)
    (hp : s.pending = .command r :: rest) : step s = exec .sysReset { s with pending := rest } := by
  calc step s
    _ = takeEvent (.command r) { s with pending := rest } := by simp only [step, stepPort, hp]
    _ = runRequest r { s with pending := rest } := if_pos (accepts_of_decode_sysReset h _)
    _ = exec .sysReset { s with pending := rest } := runRequest_of_decode h _

/-- The three single resets in a row clear every register but `CUR` (R146, R172). -/
theorem execList_resets (s : State) : execList [.rbReset .bufA, .rbReset .bufB, .sbReset] s =
    .next (((s.clearRb .bufA).clearRb .bufB).clearSb.respond .ok 0#16) := rfl

/-- `SYS_RESET` does not read `CUR`, so clearing it can come last (R190). -/
theorem exec_sysReset_eq_resets_setCur (s : State) : exec .sysReset s =
    .next ((((s.clearRb .bufA).clearRb .bufB).clearSb.respond .ok 0#16).setCur .bufA) := rfl

/-- Settles O40: no part of `SYS_RESET`, from the word to the registers, asks anything of the state. -/
theorem sysResetClearsEveryRegister : Obligations.SysResetClearsEveryRegister := by
  unfold Obligations.SysResetClearsEveryRegister
  have hdecode := decode_matchWord (opc := 0x01#8) rfl
  exact ⟨hdecode, exec_sysReset, fun s => ⟨_, _, execList_resets s, exec_sysReset_eq_resets_setCur s, rfl⟩,
    fun s d rest hp => step_sysReset (hdecode d) hp⟩

end Sys2Proof.Machine
end

section
/-! SUPPORT. The encoder against the opcode map (R84, R85, R88, R92): the encoding of a command matches the row that
builds the command back, and a word that matches a row is the encoding of what the row builds from it. -/

namespace Sys2Proof

/-! ### From a command to its word -/

/-- Every command is built by the row its encoding's opcode selects. -/
theorem operandsOf (i : Instr) : Laws.OperandsOf.Statement i := by
  cases i with
  | sysReset => exact Laws.OperandsOf.sysReset
  | ckMake p => exact Laws.OperandsOf.ckMake p
  | ckVerify f => exact Laws.OperandsOf.ckVerify f
  | bidMake st ix p => exact Laws.OperandsOf.bidMake st ix p
  | bidStream h => exact Laws.OperandsOf.bidStream h
  | bidIndex h => exact Laws.OperandsOf.bidIndex h
  | bidCk h => exact Laws.OperandsOf.bidCk h
  | rbProcess f => exact Laws.OperandsOf.rbProcess f
  | rxFrame f => exact Laws.OperandsOf.rxFrame f
  | rbReady b => exact Laws.OperandsOf.rbReady b
  | rbSwitch => exact Laws.OperandsOf.rbSwitch
  | rbFlushBegin b => exact Laws.OperandsOf.rbFlushBegin b
  | rbRd b a => exact Laws.OperandsOf.rbRd b a
  | rbReset b => exact Laws.OperandsOf.rbReset b
  | rbStat b => exact Laws.OperandsOf.rbStat b
  | sbPut v => exact Laws.OperandsOf.sbPut v
  | sbSendFirst => exact Laws.OperandsOf.sbSendFirst
  | sbSendNext => exact Laws.OperandsOf.sbSendNext
  | sbResend => exact Laws.OperandsOf.sbResend
  | sbRestart => exact Laws.OperandsOf.sbRestart
  | sbRd => exact Laws.OperandsOf.sbRd
  | sbPending => exact Laws.OperandsOf.sbPending
  | sbStat => exact Laws.OperandsOf.sbStat
  | sbSlot n => exact Laws.OperandsOf.sbSlot n
  | sbReset => exact Laws.OperandsOf.sbReset

theorem Row.matches_packWord {opc : BitVec 8} {b : BitVec 1} {arg : BitVec 16} {row row' : Row}
    (hopc : rowOf opc = some row') (hmask : packWord opc b arg &&& row'.format.mask = matchWord opc)
    (hrow : rowOf (opcOf (packWord opc b arg)) = some row) : row.Matches (packWord opc b arg) := by
  rw [opcOf_packWord, hopc] at hrow
  obtain rfl := Option.some.inj hrow
  obtain ⟨-, rfl⟩ := rowOf_eq_some_iff.1 hopc
  exact hmask

/-- An encoding has 0 in the must-be-zero bits of its row's format: format by format, `packWord_mask_*`. -/
theorem Row.matches_encode {i : Instr} {row : Row} (hrow : rowOf (opcOf (encode i).word) = some row) :
    row.Matches (encode i).word := by
  cases i with
  | sysReset | rbSwitch | sbSendFirst | sbSendNext | sbResend | sbRestart | sbRd | sbPending | sbStat | sbReset =>
    exact Row.matches_packWord rfl (packWord_mask_n _) hrow
  | ckMake | ckVerify | rbProcess | rxFrame => exact Row.matches_packWord rfl (packWord_mask_v _) hrow
  | bidMake st ix => exact Row.matches_packWord rfl (packWord_mask_m _ st ix) hrow
  | bidStream v | bidIndex v | bidCk v | sbPut v => exact Row.matches_packWord rfl (packWord_mask_h _ v) hrow
  | rbReady b | rbFlushBegin b | rbReset b | rbStat b =>
    exact Row.matches_packWord rfl (packWord_mask_b _ b.bit) hrow
  | rbRd b a => exact Row.matches_packWord rfl (packWord_mask_a _ b.bit a) hrow
  | sbSlot n => exact Row.matches_packWord rfl (packWord_mask_s _ n) hrow

/-- The decoder reads every command from its encoding, whatever the length of its `DIN`. -/
theorem decode_encode (i : Instr) : decode (encode i) = .ok i := by
  obtain ⟨row, hrow, hbuild⟩ := operandsOf i
  obtain ⟨hmem, -⟩ := rowOf_eq_some_iff.1 hrow
  exact decode_eq_ok_iff.2 ⟨row, hmem, Row.matches_encode hrow, hbuild⟩

/-- Only the commands with a `DIN` have a condition, and their encoding carries that `DIN`. -/
theorem encode_wf {i : Instr} (h : i.wf = true) : (encode i).wf = true := by
  cases i with
  | ckMake | ckVerify | bidMake | rbProcess | rxFrame => exact h
  | _ => rfl

/-- Settles O42: the row of the encoding's opcode matches the encoding and builds the command. -/
theorem decodeOfEncodeIsTheCommand : Obligations.DecodeOfEncodeIsTheCommand := by
  unfold Obligations.DecodeOfEncodeIsTheCommand
  exact fun i h => ⟨encode_wf h, decode_encode i⟩

/-! ### From a word to its command -/

/-- A word is its fixed bits and its free bits. -/
theorem eq_or_of_and_mask {w m x free : CommandWord} (h : w &&& m = x) (hfree : ~~~m = free) :
    w = x ||| (w &&& free) := by
  rw [← h, ← hfree, ← BitVec.and_or_distrib_left, BitVec.or_not_self, BitVec.and_allOnes]

/-- Masking with `k` low ones leaves the field of the low `k` bits. -/
theorem and_lowOnes (w : CommandWord) (k : Nat) :
    w &&& BitVec.ofNat 32 (2 ^ k - 1) = (w.extractLsb' 0 k).setWidth 32 := by
  apply BitVec.eq_of_getLsbD_eq
  intro i hi
  simp [hi, -BitVec.getLsbD_eq_getElem, BitVec.getLsbD_ofNat, Nat.testBit_two_pow_sub_one, Bool.and_comm]

/-- Masking with bit 16 leaves the buffer bit. -/
theorem and_bit16 (w : CommandWord) : w &&& 0x00010000#32 = (bitB w).setWidth 32 <<< 16 := by
  apply BitVec.eq_of_getLsbD_eq
  intro i hi
  interval_cases i <;> simp [bitB]

/-- The free bits of the formats B, A and M are bit 16 and `k` low bits. -/
theorem and_bit16_or_lowOnes (w : CommandWord) (k : Nat) :
    w &&& (0x00010000#32 ||| BitVec.ofNat 32 (2 ^ k - 1)) =
      (bitB w).setWidth 32 <<< 16 ||| (w.extractLsb' 0 k).setWidth 32 := by
  rw [BitVec.and_or_distrib_left, and_bit16, and_lowOnes]

section
variable {w : CommandWord} {opc : BitVec 8}

theorem eq_packWord_of_mask_n (h : w &&& Format.mask .n = matchWord opc) : w = packWord opc 0#1 0#16 :=
  calc w
    _ = matchWord opc ||| (w &&& 0#32) := eq_or_of_and_mask h (by decide)
    _ = packWord opc 0#1 0#16 := by simp [packWord_eq_or]

theorem eq_packWord_of_mask_h (h : w &&& Format.mask .h = matchWord opc) :
    w = packWord opc 0#1 ((opV w).setWidth 16) :=
  calc w
    _ = matchWord opc ||| (w &&& BitVec.ofNat 32 (2 ^ 8 - 1)) := eq_or_of_and_mask h (by decide)
    _ = matchWord opc ||| (opV w).setWidth 32 := by rw [and_lowOnes]; rfl
    _ = packWord opc 0#1 ((opV w).setWidth 16) := by simp [packWord_eq_or]

theorem eq_packWord_of_mask_s (h : w &&& Format.mask .s = matchWord opc) :
    w = packWord opc 0#1 ((opS w).setWidth 16) :=
  calc w
    _ = matchWord opc ||| (w &&& BitVec.ofNat 32 (2 ^ 4 - 1)) := eq_or_of_and_mask h (by decide)
    _ = matchWord opc ||| (opS w).setWidth 32 := by rw [and_lowOnes]; rfl
    _ = packWord opc 0#1 ((opS w).setWidth 16) := by simp [packWord_eq_or]

theorem eq_packWord_of_mask_b (h : w &&& Format.mask .b = matchWord opc) : w = packWord opc (opB w).bit 0#16 :=
  calc w
    _ = matchWord opc ||| (w &&& 0x00010000#32) := eq_or_of_and_mask h (by decide)
    _ = packWord opc (opB w).bit 0#16 := by simp [packWord_eq_or, opB, BufId.bit_ofBit, and_bit16]

theorem eq_packWord_of_mask_a (h : w &&& Format.mask .a = matchWord opc) :
    w = packWord opc (opB w).bit ((opA w).setWidth 16) :=
  calc w
    _ = matchWord opc ||| (w &&& (0x00010000#32 ||| BitVec.ofNat 32 (2 ^ 9 - 1))) := eq_or_of_and_mask h (by decide)
    _ = matchWord opc ||| (bitB w).setWidth 32 <<< 16 ||| (opA w).setWidth 32 := by
      rw [and_bit16_or_lowOnes, ← BitVec.or_assoc]; rfl
    _ = packWord opc (opB w).bit ((opA w).setWidth 16) := by simp [packWord_eq_or, opB, BufId.bit_ofBit]

theorem eq_packWord_of_mask_m (h : w &&& Format.mask .m = matchWord opc) :
    w = packWord opc (bitB w) (opIx w) :=
  calc w
    _ = matchWord opc ||| (w &&& (0x00010000#32 ||| BitVec.ofNat 32 (2 ^ 16 - 1))) := eq_or_of_and_mask h (by decide)
    _ = matchWord opc ||| (bitB w).setWidth 32 <<< 16 ||| (opIx w).setWidth 32 := by
      rw [and_bit16_or_lowOnes, ← BitVec.or_assoc]; rfl
    _ = packWord opc (bitB w) (opIx w) := (packWord_eq_or opc (bitB w) (opIx w)).symm

end

/-- What a row builds from a word it matches encodes to that word, with the `DIN` where the format reads it. -/
def Row.Encodes (row : Row) : Prop :=
  ∀ (w : CommandWord) (d : DataIn), row.Matches w →
    encode (row.build w d) = ⟨w, if row.format.usesDin then d else []⟩

section
variable {opc : BitVec 8}

theorem Row.encodes_n {i : Instr} (h : encode i = ⟨packWord opc 0#1 0#16, []⟩) :
    Row.Encodes ⟨opc, .n, fun _ _ => i⟩ :=
  fun _ _ hw => h.trans (congrArg (Request.mk · _) (eq_packWord_of_mask_n hw).symm)

theorem Row.encodes_v {mkInstr : DataIn → Instr} (h : ∀ d, encode (mkInstr d) = ⟨packWord opc 0#1 0#16, d⟩) :
    Row.Encodes ⟨opc, .v, fun _ d => mkInstr d⟩ :=
  fun _ d hw => (h d).trans (congrArg (Request.mk · _) (eq_packWord_of_mask_n hw).symm)

theorem Row.encodes_h {mkInstr : Byte → Instr}
    (h : ∀ v, encode (mkInstr v) = ⟨packWord opc 0#1 (v.setWidth 16), []⟩) :
    Row.Encodes ⟨opc, .h, fun w _ => mkInstr (opV w)⟩ :=
  fun w _ hw => (h (opV w)).trans (congrArg (Request.mk · _) (eq_packWord_of_mask_h hw).symm)

theorem Row.encodes_s {mkInstr : BitVec 4 → Instr}
    (h : ∀ n, encode (mkInstr n) = ⟨packWord opc 0#1 (n.setWidth 16), []⟩) :
    Row.Encodes ⟨opc, .s, fun w _ => mkInstr (opS w)⟩ :=
  fun w _ hw => (h (opS w)).trans (congrArg (Request.mk · _) (eq_packWord_of_mask_s hw).symm)

theorem Row.encodes_b {mkInstr : BufId → Instr} (h : ∀ b, encode (mkInstr b) = ⟨packWord opc b.bit 0#16, []⟩) :
    Row.Encodes ⟨opc, .b, fun w _ => mkInstr (opB w)⟩ :=
  fun w _ hw => (h (opB w)).trans (congrArg (Request.mk · _) (eq_packWord_of_mask_b hw).symm)

theorem Row.encodes_a {mkInstr : BufId → BitVec 9 → Instr}
    (h : ∀ b a, encode (mkInstr b a) = ⟨packWord opc b.bit (a.setWidth 16), []⟩) :
    Row.Encodes ⟨opc, .a, fun w _ => mkInstr (opB w) (opA w)⟩ :=
  fun w _ hw => (h (opB w) (opA w)).trans (congrArg (Request.mk · _) (eq_packWord_of_mask_a hw).symm)

theorem Row.encodes_m {mkInstr : BitVec 1 → BitVec 16 → DataIn → Instr}
    (h : ∀ st ix d, encode (mkInstr st ix d) = ⟨packWord opc st ix, d⟩) :
    Row.Encodes ⟨opc, .m, fun w d => mkInstr (bitB w) (opIx w) d⟩ :=
  fun w d hw => (h (bitB w) (opIx w) d).trans (congrArg (Request.mk · _) (eq_packWord_of_mask_m hw).symm)

end

/-- The encoder was written from the opcode map: row by row, by the row's format. -/
theorem Row.encodes : ∀ row ∈ opcodeTable, row.Encodes := by
  simp only [opcodeTable, systemRows, checksumRows, byteIdRows, reassemblyRows, serialRows, List.cons_append,
    List.nil_append, List.forall_mem_cons]
  exact ⟨encodes_n rfl, encodes_v fun _ => rfl, encodes_v fun _ => rfl,
    encodes_m fun _ _ _ => rfl, encodes_h fun _ => rfl, encodes_h fun _ => rfl, encodes_h fun _ => rfl,
    encodes_v fun _ => rfl, encodes_v fun _ => rfl, encodes_b fun _ => rfl, encodes_n rfl, encodes_b fun _ => rfl,
    encodes_a fun _ _ => rfl, encodes_b fun _ => rfl, encodes_b fun _ => rfl,
    encodes_h fun _ => rfl, encodes_n rfl, encodes_n rfl, encodes_n rfl, encodes_n rfl, encodes_n rfl, encodes_n rfl,
    encodes_n rfl, encodes_s fun _ => rfl, encodes_n rfl, by simp⟩

/-- The formats that read `DIN` are those of five opcodes (R85, R88). -/
theorem Row.usesDin_iff : ∀ row ∈ opcodeTable,
    row.format.usesDin = true ↔ row.opc ∈ [0x10#8, 0x11#8, 0x20#8, 0x30#8, 0x31#8] := by decide

/-- Settles O43: the row the word matches built the command, and its command encodes to the word. -/
theorem encodeOfDecodeIsTheWord : Obligations.EncodeOfDecodeIsTheWord := by
  unfold Obligations.EncodeOfDecodeIsTheWord
  intro r i h
  obtain ⟨row, hmem, hmatch, rfl⟩ := decode_eq_ok_iff.1 h
  rw [Row.encodes row hmem r.word r.din hmatch, hmatch.opcOf_eq]
  exact ⟨rfl, if_congr (Row.usesDin_iff row hmem) rfl rfl⟩

/-! ### Sample words -/

/-- Settles O45: six words are their row's `match` with the operands or-ed in; the decoder's errors are evaluated. -/
theorem sampleWordsDecode : Obligations.SampleWordsDecode := by
  unfold Obligations.SampleWordsDecode
  exact ⟨decode_formatH (opc := 0x40#8) rfl 0x41#8 [],
    decode_formatA (opc := 0x35#8) rfl .bufB 0x1F0#9 [],
    decode_formatM (opc := 0x20#8) rfl 1#1 15#16 [0xFF#8],
    decode_formatB (opc := 0x36#8) rfl .bufB [],
    decode_formatS (opc := 0x48#8) rfl 2#4 [],
    decode_formatB (opc := 0x37#8) rfl .bufB [],
    by decide, by decide⟩

end Sys2Proof
end

section
/-! SUPPORT. What each command does in a state with the invariant, said once: it is answered, by a state that stands in
the relation `Effect` to the one before. That the invariant is kept, which statuses are answered (R9, R200) and which
registers are written (R40) are read off it. -/

namespace Sys2Proof.Machine

/-! ### The effects -/

/-- What command `i` can do to state `s`, constructor by constructor of the next state. -/
inductive Effect (s : State) : Instr → State → Prop
  /-- Only a response: `OK` or a status listed for the command, and with a refusing status `RES` is 0 (R9, R200). -/
  | answers {i : Instr} (st : Status) (r : ResultWord) (hst : st = .ok ∨ st ∈ i.alsoAnswers ∧ st ≠ .overflow)
      (hres : st ∈ [.illegalCmd, .badOperand, .badState] → r = 0#16) : Effect s i (s.respond st r)
  /-- R190. -/
  | resetsAll : Effect s .sysReset ((((s.setCur .bufA).clearRb .bufA).clearRb .bufB).clearSb.respond .ok 0#16)
  /-- R133 to R141, after the gates of R142. -/
  | takesFrame {i : Instr} {t : State} (f : DataIn) (r : ResultWord) (hi : i.isFrame = true)
      (hlen : lenIn 2 frameMax f = true) (hf : processFrame f s = .next t) (hresp : t.resp = some ⟨.ok, r⟩) :
      Effect s i t
  /-- R144. -/
  | switches (r : ResultWord) : Effect s .rbSwitch ((s.setCur (otherBuf s.cur)).respond .ok r)
  /-- R145. -/
  | beginsFlush (b : BufId) (r : ResultWord) (hgot : (s.rb b).got = true) :
      Effect s (.rbFlushBegin b) ((s.setRb b { s.rb b with fl := true }).respond .ok r)
  /-- R146. -/
  | resetsBuffer (b : BufId) : Effect s (.rbReset b) ((s.clearRb b).respond .ok 0#16)
  /-- R160. -/
  | putsByte (v : Byte) {j off : Nat} {sl : Slot} {pq : BitVec 5} (hsl : s.slots[j]? = some sl) :
      Effect s (.sbPut v) (((s.setSlot j (sl.stored off v)).setPq pq).respond .ok 0#16)
  /-- R161. -/
  | overflows (v : Byte) : Effect s (.sbPut v) (s.clearSb.respond .overflow 0#16)
  /-- R163 to R166. -/
  | sendsSlot {i : Instr} {j : Nat} {sl : Slot} {ps : BitVec 5} (r : ResultWord)
      (hi : i = .sbSendFirst ∨ i = .sbSendNext ∨ i = .sbResend ∧ ps = s.ps) (hsl : s.slots[j]? = some sl)
      (hps : ps.toNat ≤ s.pq.toNat) :
      Effect s i (((s.setSlot j { sl with rd := 0#5 }).setPs ps).respond .ok r)
  /-- R167. -/
  | restarts : Effect s .sbRestart ((s.setPs 0#5).respond .ok 0#16)
  /-- R168. -/
  | readsByte {j : Nat} {sl : Slot} (r : ResultWord) (hsl : s.slots[j]? = some sl)
      (hrd : sl.rd.toNat < sl.wr.toNat) :
      Effect s .sbRd ((s.setSlot j { sl with rd := sl.rd + 1#5 }).respond .ok r)
  /-- R172. -/
  | resetsSerial : Effect s .sbReset (s.clearSb.respond .ok 0#16)

/-! ### Every command has one of the effects -/

/-- Command `i` is answered in `s`, with one of its effects. -/
def Answered (i : Instr) (s : State) : Prop := ∃ t, exec i s = .next t ∧ Effect s i t

section
variable {i : Instr} {s : State}

theorem answered_of_ok {r : ResultWord} (h : exec i s = answer s .ok r) : Answered i s :=
  ⟨_, h, .answers .ok r (.inl rfl) (by simp)⟩

theorem answered_of_refusal {st : Status} (h : exec i s = .next { s with resp := some ⟨st, 0#16⟩ })
    (hst : st ∈ i.alsoAnswers) (hne : st ≠ .overflow := by decide) : Answered i s :=
  ⟨_, h, .answers st 0#16 (.inr ⟨hst, hne⟩) fun _ => rfl⟩

theorem answered_of_sendsSlot {j idx : Nat} {ps : BitVec 5} (h : SendsSlot i s j idx ps)
    (hi : i = .sbSendFirst ∨ i = .sbSendNext ∨ i = .sbResend ∧ ps = s.ps) (hps : ps.toNat ≤ s.pq.toNat) :
    Answered i s := by
  obtain ⟨sl, d, hsl, -, -, -, -, hexec⟩ := h
  exact ⟨_, hexec, .sendsSlot _ hi hsl hps⟩

end

/-- A frame of a length in the range is a header and a payload of 1 to 31 bytes. -/
theorem exists_cons_of_lenIn {f : DataIn} (h : lenIn 2 frameMax f = true) :
    ∃ hdr p, f = hdr :: p ∧ 1 ≤ p.length ∧ p.length ≤ 31 := by
  obtain ⟨h2, h32⟩ := lenIn_iff.1 h
  cases f with
  | nil => simp at h2
  | cons hdr p => exact ⟨hdr, p, rfl, Nat.le_of_succ_le_succ h2, Nat.le_of_succ_le_succ h32⟩

theorem bad_len_of_not_lenIn {lo hi : Nat} {d : DataIn} (h : ¬ lenIn lo hi d = true) :
    d.length < lo ∨ hi < d.length := by
  rw [lenIn_iff] at h
  omega

section
variable {s : State} (hs : s.Inv)
include hs

theorem answered_rbProcess (f : DataIn) : Answered (.rbProcess f) s := by
  by_cases hlen : lenIn 2 frameMax f = true
  · obtain ⟨hdr, p, rfl, h1, h31⟩ := exists_cons_of_lenIn hlen
    obtain ⟨t, _, hexec, -, hresp, -⟩ := outcomeTagSaysWhatHappened s hdr p hs h1 h31
    exact ⟨t, hexec, .takesFrame _ _ rfl hlen ((exec_rbProcess_of_len h1 h31).symm.trans hexec) hresp⟩
  · exact answered_of_refusal (badOperand_of_len (bad_len_of_not_lenIn hlen) s _) (by simp [Instr.alsoAnswers])

/-- Gate after gate; past them, `RB_PROCESS` (R142). -/
theorem answered_rxFrame (f : DataIn) : Answered (.rxFrame f) s := by
  by_cases hlen : lenIn 2 frameMax f = true
  · obtain ⟨hdr, p, rfl, h1, h31⟩ := exists_cons_of_lenIn hlen
    by_cases hck : ck p = hdrCk hdr
    · by_cases hst : hdrStream hdr = 1#1
      · exact ⟨_, exec_rxFrame_of_stream h1 h31 hck hst s,
          .answers .stream _ (.inr ⟨by simp [Instr.alsoAnswers], by decide⟩) (by simp)⟩
      · obtain ⟨t, _, hexec, -, hresp, -⟩ := outcomeTagSaysWhatHappened s hdr p hs h1 h31
        exact ⟨t, (exec_rxFrame_eq_rbProcess hck hst s).trans hexec,
          .takesFrame _ _ rfl hlen ((exec_rbProcess_of_len h1 h31).symm.trans hexec) hresp⟩
    · exact answered_of_refusal (exec_rxFrame_of_bad_ck h1 h31 hck s) (by simp [Instr.alsoAnswers])
  · exact answered_of_refusal (badOperand_of_len (bad_len_of_not_lenIn hlen) s _) (by simp [Instr.alsoAnswers])

/-- The four branches of R160 and R161 are answered. -/
theorem exists_exec_sbPut (v : Byte) : ∃ t, exec (.sbPut v) s = .next t := by
  obtain ⟨-, hstart, hroom, hnext, hover⟩ := sbPutStoresTheByteOrOverflows
  rcases Nat.eq_zero_or_pos s.pq.toNat with hpq | hpq
  · obtain ⟨t, hexec, -⟩ := hstart s v hs hpq
    exact ⟨t, hexec⟩
  · obtain ⟨sl, d, hsl, ⟨hwr, -⟩, -, h31⟩ := hs.exists_slot_holds (j := s.pq.toNat - 1) (by omega)
    obtain ⟨-, hle, -, -⟩ := sb_bounds hs
    by_cases hlt : sl.wr.toNat < 31
    · obtain ⟨t, hexec, -⟩ := hroom s v sl hs hpq hsl hlt
      exact ⟨t, hexec⟩
    · have hfull : sl.wr.toNat = 31 := by omega
      rcases Nat.lt_or_eq_of_le hle with hslots | hslots
      · obtain ⟨t, hexec, -⟩ := hnext s v sl hs hpq hsl hfull hslots
        exact ⟨t, hexec⟩
      · exact ⟨_, hover s v sl hs hslots hsl hfull⟩

theorem answered_sbPut (v : Byte) : Answered (.sbPut v) s := by
  obtain ⟨t, hexec⟩ := exists_exec_sbPut hs v
  refine ⟨t, hexec, ?_⟩
  rcases sbPut_cases hexec hs with ⟨j, off, sl, pq, hsl, -, rfl, -⟩ | rfl
  · exact .putsByte v hsl
  · exact .overflows v

theorem answered_sbSendFirst : Answered .sbSendFirst s := by
  obtain ⟨-, hsend, hrefuse⟩ := sbSendFirstFramesSlotZero
  by_cases h : 0 < s.pq.toNat ∧ s.ps.toNat = 0
  · exact answered_of_sendsSlot (hsend s hs h.1 h.2) (.inl rfl) h.1
  · exact answered_of_refusal (hrefuse s hs (by omega)) (by decide)

theorem answered_sbSendNext : Answered .sbSendNext s := by
  obtain ⟨-, hsend, hrefuse⟩ := sbSendNextFramesTheNextSlot
  obtain ⟨hsent, hle, hmax, -⟩ := sb_bounds hs
  by_cases h : 1 ≤ s.ps.toNat ∧ s.ps.toNat < s.pq.toNat
  · exact answered_of_sendsSlot (hsend s hs h.1 h.2) (.inr (.inl rfl)) (by rw [BitVec.toNat_ofNat]; omega)
  · exact answered_of_refusal (hrefuse s hs (by omega)) (by decide)

theorem answered_sbResend : Answered .sbResend s := by
  obtain ⟨-, hsend, hrefuse⟩ := sbResendFramesTheTransmitSlot
  obtain ⟨hsent, -, -, -⟩ := sb_bounds hs
  rcases Nat.eq_zero_or_pos s.ps.toNat with hps | hps
  · exact answered_of_refusal (hrefuse s hs hps) (by decide)
  · exact answered_of_sendsSlot (hsend s hs hps) (.inr (.inr ⟨rfl, rfl⟩)) hsent

/-- The transmit slot is queued (SI1), and its read cursor is at or below its write cursor (SI5). -/
theorem answered_sbRd : Answered .sbRd s := by
  obtain ⟨-, hrefuse, hend, hread⟩ := sbRdDeliversTheNextByte
  obtain ⟨hsent, -, -, -⟩ := sb_bounds hs
  rcases Nat.eq_zero_or_pos s.ps.toNat with hps | hps
  · exact answered_of_refusal (hrefuse s hs hps) (by decide)
  · obtain ⟨sl, -, hsl, -, -, -⟩ := hs.exists_slot_holds (j := s.ps.toNat - 1) (by omega)
    by_cases heq : sl.rd = sl.wr
    · exact answered_of_refusal (hend s sl hs hps hsl heq) (by decide)
    · obtain ⟨-, -, -, hrd, -⟩ := hs.slot_regs hsl
      obtain ⟨v, -, hexec⟩ := hread s sl hs hps hsl heq
      rw [ofNat_toNat_add_one] at hexec
      exact ⟨_, hexec, .readsByte _ hsl (Nat.lt_of_le_of_ne hrd (mt BitVec.eq_of_toNat_eq heq))⟩

theorem answered_sbSlot (n : BitVec 4) : Answered (.sbSlot n) s := by
  obtain ⟨-, hshow, hrefuse⟩ := sbSlotShowsCursors
  rcases Nat.lt_or_ge n.toNat s.cfg.serialSlots with hn | hn
  · obtain ⟨sl, -, hexec⟩ := hshow s n hs hn
    exact answered_of_ok hexec
  · exact answered_of_refusal (hrefuse s n hs hn) (by simp [Instr.alsoAnswers])

theorem answered_rbFlushBegin (b : BufId) : Answered (.rbFlushBegin b) s := by
  obtain ⟨-, -, hrefuse⟩ := rbFlushBeginMarksCompleteBuffer
  by_cases h : (s.rb b).got = true ∧ (s.rb b).fl = false
  · exact ⟨_, exec_rbFlushBegin_of_complete h.1 h.2, .beginsFlush b _ h.1⟩
  · exact answered_of_refusal (hrefuse s b hs (by simpa [-not_and, not_and_or] using h)) (by simp [Instr.alsoAnswers])

theorem answered_rbRd (b : BufId) (a : BitVec 9) : Answered (.rbRd b a) s := by
  obtain ⟨-, hread, hrefuse⟩ := rbRdReadsBelowTheCursor
  rcases Nat.lt_or_ge a.toNat (s.rb b).wr.toNat with ha | ha
  · obtain ⟨v, -, hexec⟩ := hread s b a hs ha
    exact answered_of_ok hexec
  · exact answered_of_refusal (hrefuse s b a hs ha) (by simp [Instr.alsoAnswers])

/-- No command stops in a state with the invariant, and each does one of the things of `Effect`. -/
theorem answered (i : Instr) : Answered i s := by
  cases i with
  | sysReset => exact ⟨_, exec_sysReset s, .resetsAll⟩
  | ckMake p =>
    rcases Nat.lt_or_ge 31 p.length with hp | hp
    · exact answered_of_refusal (badOperand_of_len (.inr hp) s _) (by simp [Instr.alsoAnswers])
    · exact answered_of_ok (exec_ckMake_of_len hp s)
  | ckVerify f =>
    by_cases hlen : lenIn 1 frameMax f = true
    · exact answered_of_ok (if_pos hlen)
    · exact answered_of_refusal (exec_ckVerify_of_bad_len (bad_len_of_not_lenIn hlen) s) (by simp [Instr.alsoAnswers])
  | bidMake st ix p =>
    rcases Nat.lt_or_ge 31 p.length with hp | hp
    · exact answered_of_refusal (badOperand_of_len (.inr hp) s _) (by simp [Instr.alsoAnswers])
    · exact answered_of_ok (exec_bidMake_of_len hp st ix s)
  | bidStream | bidIndex | bidCk | rbReady | rbStat | sbPending | sbStat => exact answered_of_ok rfl
  | rbProcess f => exact answered_rbProcess hs f
  | rxFrame f => exact answered_rxFrame hs f
  | rbSwitch =>
    cases hready : (s.rb (otherBuf s.cur)).ready with
    | true => exact ⟨_, exec_rbSwitch_of_ready hready, .switches _⟩
    | false => exact answered_of_ok (exec_rbSwitch_of_not_ready hready)
  | rbFlushBegin b => exact answered_rbFlushBegin hs b
  | rbRd b a => exact answered_rbRd hs b a
  | rbReset b => exact ⟨_, exec_rbReset b s, .resetsBuffer b⟩
  | sbPut v => exact answered_sbPut hs v
  | sbSendFirst => exact answered_sbSendFirst hs
  | sbSendNext => exact answered_sbSendNext hs
  | sbResend => exact answered_sbResend hs
  | sbRestart => exact ⟨_, rfl, .restarts⟩
  | sbRd => exact answered_sbRd hs
  | sbSlot n => exact answered_sbSlot hs n
  | sbReset => exact ⟨_, rfl, .resetsSerial⟩

/-- The next state of a command is an effect of it. -/
theorem effect_of_exec {i : Instr} {t : State} (h : exec i s = .next t) : Effect s i t := by
  obtain ⟨u, hu, heffect⟩ := answered hs i
  rw [h] at hu
  cases hu
  exact heffect

end

end Sys2Proof.Machine
end

section
/-! SUPPORT. What is read off the effects of the commands: the invariant at reset and after every step (R37 to R39), the
answer to every request and the meaning of the statuses (R9, R200). -/

namespace Sys2Proof.Machine

/-! ### The invariant -/

theorem RadioBuf.memOk_reset (size : Nat) : RadioBuf.reset.memOk size :=
  ⟨List.Pairwise.nil, by simp [RadioBuf.reset], by simp [RadioBuf.reset]⟩

theorem Slot.memOk_reset : Slot.reset.memOk :=
  ⟨List.Pairwise.nil, by simp [Slot.reset], by simp [Slot.reset]⟩

theorem inv_resetWith {c : Config} (hc : c.ok) : (State.resetWith c).Inv where
  shape := ⟨hc, List.length_replicate⟩
  regs := (regsAtReset_resetWith c).regsOk
  mem := ⟨RadioBuf.memOk_reset _, RadioBuf.memOk_reset _, fun _ hsl =>
    List.eq_of_mem_replicate hsl ▸ Slot.memOk_reset⟩

/-- Settles O48: the registers have their reset values, and the memories hold nothing. -/
theorem invariantHoldsAtReset : Obligations.InvariantHoldsAtReset := by
  unfold Obligations.InvariantHoldsAtReset
  exact ⟨inv_resetWith (by decide), fun _ hc => inv_resetWith hc⟩

/-- What the host has still to present is no part of the invariant. -/
theorem State.Inv.setPending {s : State} (hs : s.Inv) (l : List PortEvent) : ({ s with pending := l } : State).Inv :=
  inv_of_fields hs rfl rfl rfl rfl rfl rfl

theorem inv_hardReset {s : State} (hs : s.Inv) : (hardReset s).Inv :=
  (inv_resetWith hs.shape.1).setPending s.pending

/-- A slot's read cursor moves up to its write cursor (SI5). -/
theorem inv_setSlot_rd {s : State} (hs : s.Inv) {j : Nat} {sl : Slot} (hsl : s.slots[j]? = some sl) {rd : BitVec 5}
    (hrd : rd.toNat ≤ sl.wr.toNat) : (s.setSlot j { sl with rd := rd }).Inv := by
  obtain ⟨hsent, -, -, -⟩ := sb_bounds hs
  exact slot_rd_inv hs hsl rd s.ps hrd hsent

/-- `SB.ps` stays at or below `SB.pq` (SI1). -/
theorem inv_setPs {s : State} (hs : s.Inv) {x : BitVec 5} (hx : x.toNat ≤ s.pq.toNat) : (s.setPs x).Inv := by
  obtain ⟨hshape, ⟨hrb0, hrb1, ⟨-, hpq⟩, hslots⟩, hmem⟩ := hs
  exact ⟨hshape, ⟨hrb0, hrb1, ⟨hx, hpq⟩, hslots⟩, hmem⟩

/-- Every command keeps the invariant. -/
theorem exec_inv {i : Instr} {s t : State} (hs : s.Inv) (h : exec i s = .next t) : t.Inv := by
  cases effect_of_exec hs h with
  | answers st r => exact inv_respond hs st r
  | resetsAll =>
    exact inv_respond (inv_clearSb (inv_clearRb (inv_clearRb (inv_setCur hs .bufA) .bufA) .bufB)) _ _
  | takesFrame f r _ hlen hf => exact processFrame_inv hs hf hlen
  | switches r => exact inv_respond (inv_setCur hs _) _ _
  | beginsFlush b r hgot => exact inv_respond (flushBegun_inv hs hgot) _ _
  | resetsBuffer b => exact inv_respond (inv_clearRb hs b) _ _
  | putsByte v => exact sbPut_inv hs h
  | overflows | resetsSerial => exact inv_respond (inv_clearSb hs) _ _
  | sendsSlot r _ hsl hps => exact inv_respond (slot_rd_inv hs hsl 0#5 _ (by simp) hps) _ _
  | restarts => exact inv_respond (inv_setPs hs (Nat.zero_le _)) _ _
  | @readsByte j sl r hsl hrd =>
    have hwr := sl.wr.isLt
    exact inv_respond (inv_setSlot_rd hs hsl (by rw [toNat_add_one_of_lt (by omega)]; exact hrd)) _ _

/-! ### Steps -/

theorem step_of_decode {s : State} (hs : s.regsOk) {r : Request} {i : Instr} {rest : List PortEvent}
    (hp : s.pending = .command r :: rest) (hi : decode r = .ok i) : step s = exec i { s with pending := rest } := by
  rw [step_command hs hp, runRequest_of_decode hi]

theorem step_of_decode_error {s : State} (hs : s.regsOk) {r : Request} {e : DecodeError} {rest : List PortEvent}
    (hp : s.pending = .command r :: rest) (he : decode r = .error e) :
    step s = .next { s with pending := rest, resp := some ⟨.illegalCmd, 0#16⟩ } := by
  rw [step_command hs hp, runRequest_illegal (by simp [he])]

theorem step_of_pending_nil {s : State} (hp : s.pending = []) : step s = .next s := by
  simp only [step, stepPort, hp]

theorem decode_tableRequest_of_decodeTableWord {nbits w : Nat} {i : Instr} (h : decodeTableWord nbits w = some i) :
    decode (tableRequest nbits w) = .ok i := by
  change (decode (tableRequest nbits w)).toOption = some i at h
  cases hd : decode (tableRequest nbits w) with
  | error e => simp [hd, Except.toOption] at h
  | ok j => simpa [hd, Except.toOption] using h

/-- Settles O47: the request taken off is the one that decodes, and `withFetchWord` puts the table word's first. -/
theorem stepRunsTheDecodedCommand : Obligations.StepRunsTheDecodedCommand := by
  unfold Obligations.StepRunsTheDecodedCommand
  refine ⟨fun s r i rest hs hp hi => step_of_decode hs hp hi, fun s w i hs h => ?_, fun s => step_of_pending_nil⟩
  exact step_of_decode (s := s.withFetchWord 32 w) hs rfl (decode_tableRequest_of_decodeTableWord h)

/-- Settles O49: a step changes nothing, is a hardware reset, refuses an illegal word, or is a command. -/
theorem stepKeepsInvariant : Obligations.StepKeepsInvariant := by
  unfold Obligations.StepKeepsInvariant
  intro s t hs h
  cases hp : s.pending with
  | nil =>
    rw [step_of_pending_nil hp] at h
    cases h
    exact hs
  | cons e rest =>
    have hs' := hs.setPending rest
    cases e with
    | resetInput =>
      rw [step_resetInput hp] at h
      cases h
      exact inv_hardReset hs'
    | command r =>
      cases hd : decode r with
      | error e =>
        rw [step_of_decode_error hs.regs hp hd] at h
        cases h
        exact inv_respond hs' .illegalCmd 0#16
      | ok i =>
        rw [step_of_decode hs.regs hp hd] at h
        exact exec_inv hs' h

/-! ### Statuses -/

/-- The three kinds of responses: one with no other effect, the overflow of R161, and `OK`. -/
theorem Effect.response {i : Instr} {s t : State} (h : Effect s i t) :
    (∃ st r, (st = .ok ∨ st ∈ i.alsoAnswers ∧ st ≠ .overflow) ∧
      (st ∈ [.illegalCmd, .badOperand, .badState] → r = 0#16) ∧ t = s.respond st r) ∨
    ((∃ v, i = .sbPut v) ∧ t = s.clearSb.respond .overflow 0#16) ∨ ∃ r, t.resp = some ⟨.ok, r⟩ := by
  cases h with
  | answers st r hst hres => exact .inl ⟨st, r, hst, hres, rfl⟩
  | overflows v => exact .inr (.inl ⟨⟨v, rfl⟩, rfl⟩)
  | takesFrame _ r _ _ _ hresp => exact .inr (.inr ⟨r, hresp⟩)
  | _ => exact .inr (.inr ⟨_, rfl⟩)

/-- Settles O50: a word that is no command is refused; a command has one of the three kinds of responses. -/
theorem everyRequestIsAnswered : Obligations.EveryRequestIsAnswered := by
  unfold Obligations.EveryRequestIsAnswered
  intro s r rest hs hp
  cases hd : decode r with
  | error e => exact ⟨_, _, step_of_decode_error hs.regs hp hd, rfl, .inr ⟨by decide, rfl, rfl⟩⟩
  | ok i =>
    obtain ⟨t, hexec, heffect⟩ := answered (hs.setPending rest) i
    rw [← step_of_decode hs.regs hp hd] at hexec
    rcases heffect.response with ⟨st, res, -, hres, rfl⟩ | ⟨-, rfl⟩ | ⟨res, hresp⟩
    · refine ⟨_, ⟨st, res⟩, hexec, rfl, ?_⟩
      by_cases hst : st ∈ [.illegalCmd, .badOperand, .badState]
      · exact .inr ⟨hst, hres hst, rfl⟩
      · exact .inl (by cases st <;> simp_all)
    · exact ⟨_, ⟨.overflow, 0#16⟩, hexec, rfl, .inl (by simp)⟩
    · exact ⟨t, _, hexec, hresp, .inl (by simp)⟩

/-- Settles O51: the numbers are evaluated; what a status says is read off the three kinds of responses. -/
theorem statusSaysWhatHappened : Obligations.StatusSaysWhatHappened := by
  unfold Obligations.StatusSaysWhatHappened
  refine ⟨by decide, fun s r e rest hs hp he => step_of_decode_error hs.regs hp he, fun s t i q hs h hq => ?_⟩
  rcases (effect_of_exec hs h).response with ⟨st, r, hst, -, rfl⟩ | ⟨⟨v, rfl⟩, rfl⟩ | ⟨r, hresp⟩
  · obtain rfl := Option.some.inj hq
    refine ⟨hst.imp_right And.left, fun _ => rfl, ?_⟩
    rintro rfl
    simp at hst
  · obtain rfl := Option.some.inj hq
    exact ⟨.inr (by simp [Instr.alsoAnswers]), by simp, fun _ => rfl⟩
  · obtain rfl := Option.some.inj (hresp.symm.trans hq)
    exact ⟨.inl rfl, by simp, by simp⟩

end Sys2Proof.Machine
end

section
/-! SUPPORT. What each command leaves unchanged, register by register of R40's table: the effects that write a register
are named, every other effect leaves it. -/

namespace Sys2Proof.Machine

/-! ### Shared operations -/

/-- Replacing a slot by one with the same field leaves the list of that field. -/
theorem map_set_of_eq {α : Type} (field : Slot → α) {l : List Slot} {j : Nat} {sl sl' : Slot} (hsl : l[j]? = some sl)
    (heq : field sl' = field sl) : (l.set j sl').map field = l.map field := by
  obtain ⟨hj, rfl⟩ := List.getElem?_eq_some_iff.1 hsl
  rw [List.map_set, heq, ← List.getElem_map field (h := by simpa using hj), List.set_getElem_self]

/-- The frame processor leaves the serial buffer and the host's fields. -/
theorem sameSerial_of_processFrame {f : DataIn} {s t : State} (h : processFrame f s = .next t) :
    sameSerial s t ∧ sameHost s t := by
  rcases processFrame_next h with ⟨-, -, -, rfl⟩ | ⟨-, -, rfl⟩ | ⟨-, -, -, -, rfl⟩ | ⟨-, -, -, rfl⟩ | ⟨-, -, -, rfl⟩ <;>
    simp [sameSerial, sameHost]

theorem fl_setRb_stored (s : State) (b c : BufId) (base : Nat) (idx : BitVec 4) (p : List Byte) :
    ((s.setRb c ((s.rb c).stored base idx p)).rb b).fl = (s.rb b).fl := by
  rw [State.setRb_rb]
  split
  case isTrue hbc => subst hbc; rfl
  case isFalse => rfl

/-- A store does not write `fl` (R131, R132); the MISSED reset clears it (R138). -/
theorem fl_of_processFrame {f : DataIn} {s t : State} (h : processFrame f s = .next t) (b : BufId) :
    (s.rb b).fl = (t.rb b).fl ∨ (t.rb b).fl = false := by
  rcases processFrame_next h with ⟨-, -, -, rfl⟩ | ⟨-, -, rfl⟩ | ⟨-, -, -, -, rfl⟩ | ⟨-, -, -, rfl⟩ | ⟨-, -, -, rfl⟩
  · have hstored := fl_setRb_stored (s.setCur (otherBuf s.cur)) b (otherBuf s.cur) 0 (hdrIndex (frameHeader f))
      (framePayload f)
    exact .inl (by simpa using hstored.symm)
  · exact .inl (by simp)
  · exact .inl (by simp [fl_setRb_stored])
  · rw [State.respond_rb, State.clearRb_rb]
    split
    · exact .inr rfl
    · exact .inl rfl
  · exact .inl (by simp [fl_setRb_stored])

/-! ### The rows of the table -/

section
variable {i : Instr} {s t : State} (h : Effect s i t)
include h

theorem Effect.sameHost : sameHost s t := by
  cases h with
  | takesFrame f r hi hlen hf => exact (sameSerial_of_processFrame hf).2
  | _ => simp [Machine.sameHost]

theorem Effect.cur_eq (hframe : i.isFrame = false) (hswitch : i ≠ .rbSwitch) (hreset : i ≠ .sysReset) :
    t.cur = s.cur := by
  cases h with
  | takesFrame f r hi => simp [hi] at hframe
  | switches => exact absurd rfl hswitch
  | resetsAll => exact absurd rfl hreset
  | _ => simp

theorem Effect.cursor_eq (b : BufId) (hframe : i.isFrame = false) (hclear : i ≠ .rbReset b) (hreset : i ≠ .sysReset) :
    (t.rb b).wr = (s.rb b).wr ∧ (t.rb b).exp = (s.rb b).exp ∧ (t.rb b).got = (s.rb b).got := by
  cases h with
  | takesFrame f r hi => simp [hi] at hframe
  | beginsFlush c =>
    rw [State.respond_rb, State.setRb_rb]
    split
    case isTrue hbc => subst hbc; exact ⟨rfl, rfl, rfl⟩
    case isFalse => exact ⟨rfl, rfl, rfl⟩
  | resetsBuffer c =>
    have hbc : b ≠ c := fun hbc => hclear (hbc ▸ rfl)
    simp [State.clearRb_rb, hbc]
  | resetsAll => exact absurd rfl hreset
  | _ => simp

theorem Effect.fl_eq (b : BufId) (hframe : i.isFrame = false) (hflush : i ≠ .rbFlushBegin b) (hclear : i ≠ .rbReset b)
    (hreset : i ≠ .sysReset) : (t.rb b).fl = (s.rb b).fl := by
  cases h with
  | takesFrame f r hi => simp [hi] at hframe
  | beginsFlush c =>
    have hbc : b ≠ c := fun hbc => hflush (hbc ▸ rfl)
    simp [State.setRb_rb, hbc]
  | resetsBuffer c =>
    have hbc : b ≠ c := fun hbc => hclear (hbc ▸ rfl)
    simp [State.clearRb_rb, hbc]
  | resetsAll => exact absurd rfl hreset
  | _ => simp

theorem Effect.fl_of_isFrame (b : BufId) (hframe : i.isFrame = true) :
    (s.rb b).fl = (t.rb b).fl ∨ (t.rb b).fl = false := by
  cases h with
  | answers st r => exact .inl (by simp)
  | takesFrame f r hi hlen hf => exact fl_of_processFrame hf b
  | sendsSlot r hi => rcases hi with rfl | rfl | ⟨rfl, -⟩ <;> cases hframe
  | _ => cases hframe

theorem Effect.rb_mem_eq (b : BufId) (hframe : i.isFrame = false) : (t.rb b).mem = (s.rb b).mem := by
  cases h with
  | takesFrame f r hi => simp [hi] at hframe
  | resetsAll => cases b <;> rfl
  | beginsFlush c =>
    rw [State.respond_rb, State.setRb_rb]
    split
    case isTrue hbc => subst hbc; rfl
    case isFalse => rfl
  | resetsBuffer c =>
    rw [State.respond_rb, State.clearRb_rb]
    split <;> rfl
  | _ => simp

theorem Effect.pq_eq (hput : ∀ v, i ≠ .sbPut v) (hclear : i ≠ .sbReset) (hreset : i ≠ .sysReset) :
    t.pq = s.pq ∧ t.slots.map Slot.wr = s.slots.map Slot.wr := by
  cases h with
  | takesFrame f r hi hlen hf =>
    obtain ⟨⟨hpq, -, hslots⟩, -⟩ := sameSerial_of_processFrame hf
    exact ⟨hpq, congrArg _ hslots⟩
  | putsByte v | overflows v => exact absurd rfl (hput v)
  | sendsSlot r hi hsl | readsByte r hsl => exact ⟨rfl, map_set_of_eq Slot.wr hsl rfl⟩
  | resetsSerial => exact absurd rfl hclear
  | resetsAll => exact absurd rfl hreset
  | _ => simp

theorem Effect.ps_eq (hput : ∀ v, i ≠ .sbPut v) (hfirst : i ≠ .sbSendFirst) (hnext : i ≠ .sbSendNext)
    (hrestart : i ≠ .sbRestart) (hclear : i ≠ .sbReset) (hreset : i ≠ .sysReset) : t.ps = s.ps := by
  cases h with
  | takesFrame f r hi hlen hf =>
    obtain ⟨⟨-, hps, -⟩, -⟩ := sameSerial_of_processFrame hf
    exact hps
  | putsByte v | overflows v => exact absurd rfl (hput v)
  | sendsSlot r hi =>
    rcases hi with hi | hi | ⟨-, hps⟩
    · exact absurd hi hfirst
    · exact absurd hi hnext
    · exact hps
  | restarts => exact absurd rfl hrestart
  | resetsSerial => exact absurd rfl hclear
  | resetsAll => exact absurd rfl hreset
  | _ => simp

theorem Effect.rd_eq (hput : ∀ v, i ≠ .sbPut v) (hfirst : i ≠ .sbSendFirst) (hnext : i ≠ .sbSendNext)
    (hresend : i ≠ .sbResend) (hread : i ≠ .sbRd) (hclear : i ≠ .sbReset) (hreset : i ≠ .sysReset) :
    t.slots.map Slot.rd = s.slots.map Slot.rd := by
  cases h with
  | takesFrame f r hi hlen hf =>
    obtain ⟨⟨-, -, hslots⟩, -⟩ := sameSerial_of_processFrame hf
    exact congrArg _ hslots
  | putsByte v | overflows v => exact absurd rfl (hput v)
  | sendsSlot r hi =>
    rcases hi with hi | hi | ⟨hi, -⟩
    · exact absurd hi hfirst
    · exact absurd hi hnext
    · exact absurd hi hresend
  | readsByte => exact absurd rfl hread
  | resetsSerial => exact absurd rfl hclear
  | resetsAll => exact absurd rfl hreset
  | _ => simp

theorem Effect.slot_mem_eq (hput : ∀ v, i ≠ .sbPut v) : t.slots.map Slot.mem = s.slots.map Slot.mem := by
  cases h with
  | takesFrame f r hi hlen hf =>
    obtain ⟨⟨-, -, hslots⟩, -⟩ := sameSerial_of_processFrame hf
    exact congrArg _ hslots
  | putsByte v | overflows v => exact absurd rfl (hput v)
  | sendsSlot r hi hsl | readsByte r hsl => exact map_set_of_eq Slot.mem hsl rfl
  | resetsSerial | resetsAll => simp [Function.comp_def]
  | _ => simp

end

/-- Settles O52: the table, row by row. -/
theorem onlyListedCommandsWrite : Obligations.OnlyListedCommandsWrite := by
  unfold Obligations.OnlyListedCommandsWrite
  intro s t i hs hexec
  have h := effect_of_exec hs hexec
  exact ⟨h.sameHost, h.cur_eq, h.cursor_eq, h.fl_eq, h.fl_of_isFrame, h.rb_mem_eq, h.pq_eq, h.ps_eq, h.rd_eq,
    h.slot_mem_eq⟩

/-! ### Commands that only answer -/

/-- The commands R67 lists have no effect but their response. -/
theorem Effect.respond_of_isIdempotent {i : Instr} {s t : State} (h : Effect s i t) (hi : i.isIdempotent = true) :
    ∃ st r, t = s.respond st r := by
  cases h with
  | answers st r => exact ⟨st, r, rfl⟩
  | takesFrame f r hframe =>
    cases i with
    | rbProcess | rxFrame => cases hi
    | _ => cases hframe
  | sendsSlot r hsend => rcases hsend with rfl | rfl | ⟨rfl, -⟩ <;> cases hi
  | _ => cases hi

end Sys2Proof.Machine
end

section
/-! SUPPORT. What a command does not read. A change of the state that leaves what a unit reads and commutes with what it
writes passes through the unit's commands; so neither the last response nor what is presented is an operand (R33, R34),
and neither the engine nor the serial buffer sees the other (R40). -/

namespace Sys2Proof

/-- No command is of both units (R88). -/
theorem Instr.not_isRadio_and_isSerial (i : Instr) : ¬ (i.isRadio = true ∧ i.isSerial = true) := by
  rintro ⟨hradio, hserial⟩
  cases i with
  | rbProcess | rxFrame | rbReady | rbSwitch | rbFlushBegin | rbRd | rbReset | rbStat => cases hserial
  | _ => cases hradio

end Sys2Proof

namespace Sys2Proof.Machine

/-! ### Changes a command does not see -/

/-- Change the next state of a result. -/
def mapNext (g : State → State) : Result → Result
  | .next s => .next (g s)
  | .fault e => .fault e
  | .refused e => .refused e

/-- `f` before a command is `g` after its response: all that the commands of R110 to R124 ask. -/
structure UnseenByResponse (f g : State → State) : Prop where
  respond : ∀ s st r, (f s).respond st r = g (s.respond st r)

/-- `f` leaves what the engine reads and commutes with what it writes. -/
structure UnseenByEngine (f g : State → State) : Prop extends UnseenByResponse f g where
  cfg   : ∀ s, (f s).cfg = s.cfg
  cur   : ∀ s, (f s).cur = s.cur
  rb    : ∀ s b, (f s).rb b = s.rb b
  setCur : ∀ s b, (f s).setCur b = f (s.setCur b)
  setRb  : ∀ s b r, (f s).setRb b r = f (s.setRb b r)

/-- `f` leaves what the serial buffer reads and commutes with what it writes. -/
structure UnseenBySerial (f g : State → State) : Prop extends UnseenByResponse f g where
  cfg   : ∀ s, (f s).cfg = s.cfg
  pq    : ∀ s, (f s).pq = s.pq
  ps    : ∀ s, (f s).ps = s.ps
  slots : ∀ s, (f s).slots = s.slots
  setPq   : ∀ s x, (f s).setPq x = f (s.setPq x)
  setPs   : ∀ s x, (f s).setPs x = f (s.setPs x)
  setSlot : ∀ s t sl, (f s).setSlot t sl = f (s.setSlot t sl)
  clearSb : ∀ s, (f s).clearSb = f s.clearSb

variable {f g : State → State}

theorem UnseenByResponse.answer_eq (h : UnseenByResponse f g) (s : State) (st : Status) (r : ResultWord) :
    answer (f s) st r = mapNext g (answer s st r) := congrArg _ (h.respond s st r)

/-! ### The engine -/

section
variable (h : UnseenByEngine f g)
include h

theorem UnseenByEngine.clearRb_eq (s : State) (b : BufId) : (f s).clearRb b = f (s.clearRb b) := by
  rw [State.clearRb, State.clearRb, h.rb, h.setRb]

theorem UnseenByEngine.storePayload_eq (s : State) (b : BufId) (base : Nat) (idx : BitVec 4) (p : List Byte) :
    storePayload (f s) b base idx p = (storePayload s b base idx p).map f := by
  simp only [storePayload, h.cfg, h.rb, h.setRb]
  cases store s.cfg.radioBufBytes (s.rb b).mem base p <;> rfl

theorem UnseenByEngine.outcome_eq (r : Except Fault State) (tag : OutcomeTag) :
    outcome (r.map f) tag = mapNext g (outcome r tag) := by
  cases r with
  | error e => rfl
  | ok t => exact (congrArg (fun c => answer (f t) .ok (resOutcome c tag)) (h.cur t)).trans (h.answer_eq t _ _)

theorem UnseenByEngine.processFrame_eq (p : DataIn) (s : State) :
    processFrame p (f s) = mapNext g (processFrame p s) := by
  simp only [processFrame, storeFirst, append, h.cur, h.rb, h.setCur, h.clearRb_eq, h.storePayload_eq]
  cases (s.rb s.cur).classOf with
  | complete =>
    simp only
    split
    · exact h.outcome_eq _ _
    · exact h.outcome_eq (.ok s) _
  | incomplete =>
    simp only
    split
    · exact h.outcome_eq _ _
    · exact h.outcome_eq (.ok (s.clearRb s.cur)) _
  | empty => exact h.outcome_eq _ _

/-- A command of the engine does not see the change. -/
theorem UnseenByEngine.exec_eq {i : Instr} (hi : i.isRadio = true) (s : State) :
    exec i (f s) = mapNext g (exec i s) := by
  have hans := h.answer_eq
  cases i with
  | rbProcess p =>
    simp only [exec, execRbProcess, refuse_eq, h.processFrame_eq, hans]
    split <;> rfl
  | rxFrame p =>
    simp only [exec, execRxFrame, refuse_eq, h.processFrame_eq, hans]
    split
    · split
      · rfl
      · split <;> rfl
    · rfl
  | rbReady b => simp only [exec, execRbReady, h.rb, hans]
  | rbStat b => simp only [exec, execRbStat, h.cur, h.rb, hans]
  | rbReset b => simp only [exec, execRbReset, h.clearRb_eq, hans]
  | rbSwitch =>
    simp only [exec, execRbSwitch, h.cur, h.rb, h.setCur, hans]
    split <;> rfl
  | rbFlushBegin b =>
    simp only [exec, execRbFlushBegin, refuse_eq, h.rb, h.setRb, hans]
    split <;> rfl
  | rbRd b a =>
    simp only [exec, execRbRd, refuse_eq, h.cfg, h.rb, hans]
    split
    · rfl
    · cases load s.cfg.radioBufBytes (s.rb b).mem a.toNat <;> rfl
  | _ => cases hi

end

/-! ### The serial buffer -/

section
variable (h : UnseenBySerial f g)
include h

theorem UnseenBySerial.slotAt_eq (s : State) (t : Nat) : slotAt (f s) t = slotAt s t := by
  rw [slotAt, slotAt, h.slots]

theorem UnseenBySerial.putByte_eq (s : State) (t off : Nat) (pq : BitVec 5) (v : Byte) :
    putByte (f s) t off pq v = mapNext g (putByte s t off pq v) := by
  simp only [putByte, h.slotAt_eq, h.setSlot, h.setPq, h.answer_eq]
  cases slotAt s t with
  | error e => rfl
  | ok sl =>
    simp only
    cases store payloadMax sl.mem off [v] <;> rfl

theorem UnseenBySerial.sendSlot_eq (s : State) (t idx : Nat) (ps : BitVec 5) :
    sendSlot (f s) t idx ps = mapNext g (sendSlot s t idx ps) := by
  simp only [sendSlot, h.slotAt_eq, h.setSlot, h.setPs, h.answer_eq]
  cases slotAt s t with
  | error e => rfl
  | ok sl =>
    simp only
    cases frameHdr sl idx <;> rfl

/-- A command of the serial buffer does not see the change. -/
theorem UnseenBySerial.exec_eq {i : Instr} (hi : i.isSerial = true) (s : State) :
    exec i (f s) = mapNext g (exec i s) := by
  have hans := h.answer_eq
  cases i with
  | sbPut v =>
    simp only [exec, execSbPut, h.cfg, h.pq, h.slotAt_eq, h.putByte_eq, h.clearSb, hans]
    split
    · rfl
    · cases slotAt s (s.pq.toNat - 1) with
      | error e => rfl
      | ok sl =>
        simp only
        split
        · rfl
        · split <;> rfl
  | sbSendFirst =>
    simp only [exec, execSbSendFirst, refuse_eq, h.pq, h.ps, h.sendSlot_eq, hans]
    split <;> rfl
  | sbSendNext =>
    simp only [exec, execSbSendNext, refuse_eq, h.pq, h.ps, h.sendSlot_eq, hans]
    split <;> rfl
  | sbResend =>
    simp only [exec, execSbResend, refuse_eq, h.pq, h.ps, h.sendSlot_eq, hans]
    split <;> rfl
  | sbRestart => simp only [exec, execSbRestart, h.setPs, hans]
  | sbRd =>
    simp only [exec, execSbRd, refuse_eq, h.ps, h.slotAt_eq, h.setSlot, hans]
    split
    · rfl
    · cases slotAt s (s.ps.toNat - 1) with
      | error e => rfl
      | ok sl =>
        simp only
        split
        · rfl
        · cases load payloadMax sl.mem sl.rd.toNat <;> rfl
  | sbPending => simp only [exec, execSbPending, h.ps, h.pq, hans]
  | sbStat => simp only [exec, execSbStat, h.ps, h.pq, hans]
  | sbSlot n =>
    simp only [exec, execSbSlot, refuse_eq, h.cfg, h.slotAt_eq, hans]
    split
    · rfl
    · cases slotAt s n.toNat <;> rfl
  | sbReset => simp only [exec, execSbReset, h.clearSb, hans]
  | _ => cases hi

end

/-! ### The other commands -/

/-- A command of the checksum unit or the codec reads no state. -/
theorem UnseenByResponse.exec_eq (h : UnseenByResponse f g) {i : Instr} (hradio : i.isRadio = false)
    (hserial : i.isSerial = false) (hreset : i ≠ .sysReset) (s : State) :
    exec i (f s) = mapNext g (exec i s) := by
  have hans := h.answer_eq
  cases i with
  | sysReset => exact absurd rfl hreset
  | ckMake p =>
    simp only [exec, execCkMake, refuse_eq, hans]
    split <;> rfl
  | ckVerify p =>
    simp only [exec, execCkVerify, refuse_eq, hans]
    split <;> rfl
  | bidMake st ix p =>
    simp only [exec, execBidMake, refuse_eq, hans]
    split <;> rfl
  | bidStream | bidIndex | bidCk => exact hans s _ _
  | rbProcess | rxFrame | rbReady | rbSwitch | rbFlushBegin | rbRd | rbReset | rbStat => cases hradio
  | sbPut | sbSendFirst | sbSendNext | sbResend | sbRestart | sbRd | sbPending | sbStat | sbSlot | sbReset =>
    cases hserial

/-- What neither unit sees, no command sees. -/
theorem exec_of_unseen (he : UnseenByEngine f g) (hsb : UnseenBySerial f g) (i : Instr) (s : State) :
    exec i (f s) = mapNext g (exec i s) := by
  cases hradio : i.isRadio with
  | true => exact he.exec_eq hradio s
  | false =>
    cases hserial : i.isSerial with
    | true => exact hsb.exec_eq hserial s
    | false =>
      by_cases hreset : i = .sysReset
      · subst hreset
        simp only [exec, execSysReset, he.setCur, he.clearRb_eq, hsb.clearSb, he.answer_eq]
      · exact he.toUnseenByResponse.exec_eq hradio hserial hreset s

/-! ### The response and what is presented -/

def State.setResp (q : Option Response) (s : State) : State := { s with resp := q }

def State.setPending (l : List PortEvent) (s : State) : State := { s with pending := l }

theorem unseenByEngine_setResp (q : Option Response) : UnseenByEngine (State.setResp q) id where
  respond _ _ _ := rfl
  cfg _ := rfl
  cur _ := rfl
  rb _ b := by cases b <;> rfl
  setCur _ _ := rfl
  setRb _ b _ := by cases b <;> rfl

theorem unseenBySerial_setResp (q : Option Response) : UnseenBySerial (State.setResp q) id where
  respond _ _ _ := rfl
  cfg _ := rfl
  pq _ := rfl
  ps _ := rfl
  slots _ := rfl
  setPq _ _ := rfl
  setPs _ _ := rfl
  setSlot _ _ _ := rfl
  clearSb _ := rfl

theorem unseenByEngine_setPending (l : List PortEvent) : UnseenByEngine (State.setPending l) (State.setPending l) where
  respond _ _ _ := rfl
  cfg _ := rfl
  cur _ := rfl
  rb _ b := by cases b <;> rfl
  setCur _ _ := rfl
  setRb _ b _ := by cases b <;> rfl

theorem unseenBySerial_setPending (l : List PortEvent) : UnseenBySerial (State.setPending l) (State.setPending l) where
  respond _ _ _ := rfl
  cfg _ := rfl
  pq _ := rfl
  ps _ := rfl
  slots _ := rfl
  setPq _ _ := rfl
  setPs _ _ := rfl
  setSlot _ _ _ := rfl
  clearSb _ := rfl

theorem exec_setResp (i : Instr) (s : State) (q : Option Response) : exec i { s with resp := q } = exec i s := by
  have h := exec_of_unseen (unseenByEngine_setResp q) (unseenBySerial_setResp q) i s
  refine h.trans ?_
  cases exec i s <;> rfl

theorem exec_setPending {i : Instr} {s t : State} (l : List PortEvent) (h : exec i s = .next t) :
    exec i { s with pending := l } = .next { t with pending := l } := by
  have hexec := exec_of_unseen (unseenByEngine_setPending l) (unseenBySerial_setPending l) i s
  rw [h] at hexec
  exact hexec

/-- Settles O55: neither unit sees the two fields. -/
theorem responseAndQueueAreNoOperands : Obligations.ResponseAndQueueAreNoOperands := by
  unfold Obligations.ResponseAndQueueAreNoOperands
  exact ⟨fun s i => exec_setResp i s, fun s t i l => exec_setPending l⟩

/-! ### Repeated commands (R67) -/

/-- A read of the transmit slot that answers `OK` is one below the write cursor. -/
theorem rd_of_exec_sbRd_ok {s t : State} {r : ResultWord} {sl : Slot} (hs : s.Inv) (hexec : exec .sbRd s = .next t)
    (hresp : t.resp = some ⟨.ok, r⟩) (hsl : s.slots[s.ps.toNat - 1]? = some sl) :
    ∃ sl', t.slots[s.ps.toNat - 1]? = some sl' ∧ sl'.rd.toNat = sl.rd.toNat + 1 := by
  obtain ⟨-, hrefuse, hend, hread⟩ := sbRdDeliversTheNextByte
  rcases Nat.eq_zero_or_pos s.ps.toNat with hps | hps
  · rw [hrefuse s hs hps] at hexec
    cases hexec
    cases hresp
  · by_cases heq : sl.rd = sl.wr
    · rw [hend s sl hs hps hsl heq] at hexec
      cases hexec
      cases hresp
    · obtain ⟨v, -, hnext⟩ := hread s sl hs hps hsl heq
      rw [hnext] at hexec
      cases hexec
      obtain ⟨-, -, -, hrd, -⟩ := hs.slot_regs hsl
      have hne : sl.rd.toNat ≠ sl.wr.toNat := mt BitVec.eq_of_toNat_eq heq
      have hwr := sl.wr.isLt
      refine ⟨_, List.getElem?_set_self (List.getElem?_eq_some_iff.1 hsl).1, ?_⟩
      rw [BitVec.toNat_ofNat]
      omega

/-- Settles O54: the commands listed only answer, and the answer is no operand of the next command. -/
theorem readsAreIdempotentButSbRd : Obligations.ReadsAreIdempotentButSbRd := by
  unfold Obligations.ReadsAreIdempotentButSbRd
  refine ⟨fun s i hs hi => ?_, fun s t r sl hs hexec hresp hsl => rd_of_exec_sbRd_ok hs hexec hresp hsl⟩
  obtain ⟨t, hexec, heffect⟩ := answered hs i
  obtain ⟨st, r, rfl⟩ := heffect.respond_of_isIdempotent hi
  exact ⟨⟨st, r⟩, hexec, (exec_setResp i s _).trans hexec⟩

/-! ### Runs of steps (R8, R66) -/

theorem execList_cons {i : Instr} {is : List Instr} {s t : State} (h : execList (i :: is) s = .next t) :
    ∃ u, exec i s = .next u ∧ execList is u = .next t := by
  rw [execList] at h
  split at h
  case h_1 u hu => exact ⟨u, hu, h⟩
  all_goals cases h

theorem run_succ_of_step {s t : State} (h : step s = .next t) (k : Nat) :
    Host.Core.run core (k + 1) s = Host.Core.run core k t := by
  have hcore : core.step s = .next t := h
  simp only [Host.Core.run, hcore]

/-- Steps over presented encodings run the commands, and leave nothing presented. -/
theorem run_encodings {is : List Instr} {s t : State} (hs : s.Inv) (h : execList is s = .next t) :
    Host.Core.run core is.length { s with pending := is.map (fun i => .command (encode i)) } =
      .next { t with pending := [] } := by
  induction is generalizing s with
  | nil => cases h; rfl
  | cons i is ih =>
    obtain ⟨u, hu, hrest⟩ := execList_cons h
    have hnext := exec_setPending (is.map fun i => .command (encode i)) hu
    have hstep := (step_of_decode (hs.setPending _).regs rfl (decode_encode i)).trans hnext
    exact (run_succ_of_step hstep is.length).trans (ih (exec_inv hs hu) hrest)

/-- Settles O56: each step takes off one encoding, which decodes to its command; no command writes what is presented. -/
theorem stepsRunCommandsInOrder : Obligations.StepsRunCommandsInOrder := by
  unfold Obligations.StepsRunCommandsInOrder
  intro s t is hs hp h
  have hpending : t.Inv ∧ t.pending = [] := by
    refine execList_keeps (P := fun u => u.Inv ∧ u.pending = []) (fun i _ u v hu huv => ?_) ⟨hs, hp⟩ h
    obtain ⟨hinv, hnil⟩ := hu
    obtain ⟨-, hkept⟩ := (effect_of_exec hinv huv).sameHost
    exact ⟨exec_inv hinv huv, hkept.trans hnil⟩
  rw [run_encodings hs h, ← hpending.2]

/-! ### The two units (R40) -/

/-- State `x` with the engine and the configuration of `s`. -/
def State.withEngine (x s : State) : State := { x with cfg := s.cfg, cur := s.cur, rb0 := s.rb0, rb1 := s.rb1 }

/-- State `x` with the serial buffer and the configuration of `s`. -/
def State.withSerial (x s : State) : State := { x with cfg := s.cfg, pq := s.pq, ps := s.ps, slots := s.slots }

theorem unseenByEngine_withEngine (x : State) :
    UnseenByEngine x.withEngine (fun s => (x.setResp s.resp).withEngine s) where
  respond _ _ _ := rfl
  cfg _ := rfl
  cur _ := rfl
  rb _ b := by cases b <;> rfl
  setCur _ _ := rfl
  setRb _ b _ := by cases b <;> rfl

theorem unseenBySerial_withSerial (x : State) :
    UnseenBySerial x.withSerial (fun s => (x.setResp s.resp).withSerial s) where
  respond _ _ _ := rfl
  cfg _ := rfl
  pq _ := rfl
  ps _ := rfl
  slots _ := rfl
  setPq _ _ := rfl
  setPs _ _ := rfl
  setSlot _ _ _ := rfl
  clearSb _ := rfl

/-- What a command outside unit 4 does to the engine does not depend on the rest of the state. -/
theorem exec_withEngine {i : Instr} {s t : State} (hserial : i.isSerial = false) (h : exec i s = .next t) (x : State) :
    ∃ y : State, exec i (x.withEngine s) = .next (y.withEngine t) := by
  by_cases hreset : i = .sysReset
  · subst hreset
    cases h
    exact ⟨x.clearSb.respond .ok 0#16, exec_sysReset (x.withEngine s)⟩
  · have hunseen := unseenByEngine_withEngine x
    have hexec : exec i (x.withEngine s) = mapNext (fun u => (x.setResp u.resp).withEngine u) (exec i s) := by
      cases hradio : i.isRadio with
      | true => exact hunseen.exec_eq hradio s
      | false => exact hunseen.toUnseenByResponse.exec_eq hradio hserial hreset s
    rw [h] at hexec
    exact ⟨_, hexec⟩

/-- What a command outside unit 3 does to the serial buffer does not depend on the rest of the state. -/
theorem exec_withSerial {i : Instr} {s t : State} (hradio : i.isRadio = false) (h : exec i s = .next t) (x : State) :
    ∃ y : State, exec i (x.withSerial s) = .next (y.withSerial t) := by
  by_cases hreset : i = .sysReset
  · subst hreset
    cases h
    exact ⟨(((x.setCur .bufA).clearRb .bufA).clearRb .bufB).respond .ok 0#16, exec_sysReset (x.withSerial s)⟩
  · have hunseen := unseenBySerial_withSerial x
    have hexec : exec i (x.withSerial s) = mapNext (fun u => (x.setResp u.resp).withSerial u) (exec i s) := by
      cases hserial : i.isSerial with
      | true => exact hunseen.exec_eq hserial s
      | false => exact hunseen.toUnseenByResponse.exec_eq hradio hserial hreset s
    rw [h] at hexec
    exact ⟨_, hexec⟩

/-- Every command outside unit 4 but `SYS_RESET` leaves the serial buffer (R40). -/
theorem Effect.sameSerial {i : Instr} {s t : State} (h : Effect s i t) (hserial : i.isSerial = false)
    (hreset : i ≠ .sysReset) : sameSerial s t := by
  cases h with
  | takesFrame f r hi hlen hf => exact (sameSerial_of_processFrame hf).1
  | resetsAll => exact absurd rfl hreset
  | sendsSlot r hi => rcases hi with rfl | rfl | ⟨rfl, -⟩ <;> cases hserial
  | putsByte | overflows | restarts | readsByte | resetsSerial => cases hserial
  | _ => simp [Machine.sameSerial]

/-- A command of the serial buffer leaves all that `withEngine` takes over. -/
theorem withEngine_of_isSerial {i : Instr} {s t : State} (hs : s.Inv) (hi : i.isSerial = true) (h : exec i s = .next t)
    (x : State) : x.withEngine s = x.withEngine t := by
  have hradio : i.isRadio = false := Bool.eq_false_iff.2 fun hradio => i.not_isRadio_and_isSerial ⟨hradio, hi⟩
  have hreset : i ≠ .sysReset := by rintro rfl; cases hi
  obtain ⟨hcur, hrb0, hrb1⟩ := sameRadio_of_exec hradio hreset h
  obtain ⟨hcfg, -⟩ := (effect_of_exec hs h).sameHost
  simp only [State.withEngine, hcur, hrb0, hrb1, hcfg]

/-- A command of the engine leaves all that `withSerial` takes over. -/
theorem withSerial_of_isRadio {i : Instr} {s t : State} (hs : s.Inv) (hi : i.isRadio = true) (h : exec i s = .next t)
    (x : State) : x.withSerial s = x.withSerial t := by
  have hserial : i.isSerial = false := Bool.eq_false_iff.2 fun hserial => i.not_isRadio_and_isSerial ⟨hi, hserial⟩
  have hreset : i ≠ .sysReset := by rintro rfl; cases hi
  have heffect := effect_of_exec hs h
  obtain ⟨hpq, hps, hslots⟩ := heffect.sameSerial hserial hreset
  obtain ⟨hcfg, -⟩ := heffect.sameHost
  simp only [State.withSerial, hpq, hps, hslots, hcfg]

/-- Simulation: when the commands kept act on a view of the state alone and the commands dropped leave it, the run of
those kept ends in the view the whole run ends in. -/
theorem execList_filter {keep : Instr → Bool} {view : State → State → State}
    (hkeep : ∀ {i s t}, keep i = true → exec i s = .next t → ∀ x, ∃ y, exec i (view x s) = .next (view y t))
    (hdrop : ∀ {i s t}, s.Inv → keep i = false → exec i s = .next t → ∀ x, view x s = view x t)
    {is : List Instr} {s t : State} (hs : s.Inv) (h : execList is s = .next t) (x : State) :
    ∃ y, execList (is.filter keep) (view x s) = .next (view y t) := by
  induction is generalizing s x with
  | nil => cases h; exact ⟨x, rfl⟩
  | cons i is ih =>
    obtain ⟨u, hu, hrest⟩ := execList_cons h
    have hinv := exec_inv hs hu
    cases hi : keep i with
    | true =>
      obtain ⟨y, hy⟩ := hkeep hi hu x
      obtain ⟨z, hz⟩ := ih hinv hrest y
      exact ⟨z, by simp only [List.filter_cons, hi, if_true, execList, hy, hz]⟩
    | false =>
      rw [hdrop hs hi hu x, List.filter_cons_of_neg (by simp [hi])]
      exact ih hinv hrest x

/-- Settles O53: for each unit, the commands of the other leave it, and the rest do not see the other. -/
theorem unitsDoNotInterfere : Obligations.UnitsDoNotInterfere := by
  unfold Obligations.UnitsDoNotInterfere
  intro s t is hs h
  obtain ⟨x, hx⟩ := execList_filter (keep := fun i => !i.isSerial) (view := State.withEngine)
    (fun hi hexec => exec_withEngine (by simpa using hi) hexec)
    (fun hs hi hexec => withEngine_of_isSerial hs (by simpa using hi) hexec) hs h s
  obtain ⟨y, hy⟩ := execList_filter (keep := fun i => !i.isRadio) (view := State.withSerial)
    (fun hi hexec => exec_withSerial (by simpa using hi) hexec)
    (fun hs hi hexec => withSerial_of_isRadio hs (by simpa using hi) hexec) hs h s
  exact ⟨x.withEngine t, y.withSerial t, hx, hy, ⟨rfl, rfl, rfl⟩, rfl, rfl, rfl⟩

end Sys2Proof.Machine
end
